-- ==== Sys2Proof/Word.lean ====
section
/-! DEFINITION. The word types of the core: what a register, a window entry and a buffer byte are. -/

namespace Sys2Proof

/-- A 32-bit register value or command word (spec R30, R90). -/
abbrev Word := BitVec 32

/-- One byte of a buffer, a stream or a sample plane (spec R60, R140). -/
abbrev Byte := BitVec 8

/-- A block register: 64 entries, entry `(x, y)` at linear index `8*y + x` (spec R12, R26 to R29). -/
abbrev Block (α : Type) := Vector α 64

end Sys2Proof
end

