-- ==== Sys2Proof/Syntax.lean ====
section
/-! DEFINITION. The 31 commands of spec R92, one constructor per row of spec/opcode_table.json, and the
pseudo-commands of R97. -/

namespace Sys2Proof

/-- A channel: field `CH`, 0 = Y, 1 = Cb, 2 = Cr (spec R16, R90). -/
inductive Ch where
  | y | cb | cr
deriving DecidableEq, Repr

/-- A plane set: field `PS`, 0 = `CUR`, 1 = `REF`, 2 = `PRED`, 3 = `RES` (spec R90). -/
inductive PlaneSet where
  | cur | ref | pred | res
deriving DecidableEq, Repr

/-- A quantisation table: field `T`, 0 = `Q_LUMINANCE`, 1 = `Q_CHROMINANCE` (spec R90). -/
inductive Table where
  | lum | chr
deriving DecidableEq, Repr

/-- A command. The fields are those of spec R90, each decoded to the thing it names: `bias` is field `B`. -/
inductive Instr where
  | nop
  | srst
  | rgb2ycc
  | ycc2rgb
  | ldpix
  | ldpln
  | strgba (ps : PlaneSet)
  | stpln (ps : PlaneSet)
  | getblk (ps : PlaneSet) (ch : Ch)
  | fdct (bias : Bool)
  | idct (bias : Bool)
  | quant (t : Table)
  | dequant (t : Table)
  | zz
  | unzz
  | rleenc
  | rledec
  | xfkey
  | emitkey
  | deckey
  | mest (ch : Ch)
  | mcomp (ch : Ch)
  | resid (ch : Ch)
  | xfp
  | emitp
  | decp
  | chrst
  | chapp
  | chemit
  | chopen
  | chnext
deriving DecidableEq, Repr

/-- The pseudo-commands of spec R97. -/
inductive Pseudo where
  | enckey
  | encp
  | blkenc (t : Table) (bias : Bool)
  | blkdec (t : Table) (bias : Bool)
deriving DecidableEq, Repr

end Sys2Proof
end

