-- ==== Sys2Proof/WellFormed.lean ====
section
/-! DEFINITION. Which commands the encoding can express (spec R92, column "Legal field values"). The types of the
fields already exclude `CH` = 3; what remains is `PS` = 3, which only `GETBLK` may have (R94). -/

namespace Sys2Proof

/-- A command whose fields hold legal values (spec R92, R94): `STRGBA` and `STPLN` take `PS` 0, 1 or 2 only. -/
def Instr.wf : Instr → Bool
  | .strgba ps => ps != .res
  | .stpln ps => ps != .res
  | .nop | .srst | .rgb2ycc | .ycc2rgb | .ldpix | .ldpln | .getblk _ _ | .fdct _ | .idct _ | .quant _
  | .dequant _ | .zz | .unzz | .rleenc | .rledec | .xfkey | .emitkey | .deckey | .mest _ | .mcomp _
  | .resid _ | .xfp | .emitp | .decp | .chrst | .chapp | .chemit | .chopen | .chnext => true

/-- `i.WellFormed` says `i.wf` holds. -/
abbrev Instr.WellFormed (i : Instr) : Prop := i.wf = true

end Sys2Proof
end

