-- ==== Sys2Proof/Decode.lean ====
section
/-! DEFINITION. Decoding a command word (spec R90 to R96), total and rejecting by name, and encoding one (R99). -/

namespace Sys2Proof

/-- Why a word selects no command (spec R94). Every reason is the same error to the host, `IllegalCommand`. -/
inductive DecodeError where
  /-- `OP` is not one of the 31 opcodes (R94, R95). -/
  | unassignedOpcode
  /-- An unused field, or one of bits 31:14, is not zero (R93). -/
  | nonzeroUnused
  /-- `CH` = 3 where `CH` is used. -/
  | illegalChannel
  /-- `PS` = 3 in `STRGBA` or `STPLN`. -/
  | illegalPlaneSet
deriving DecidableEq, Repr

/-- Field `OP`, bits 7:0 (spec R90). -/
def fieldOp (w : Word) : Nat := (w.extractLsb' 0 8).toNat

/-- Field `CH`, bits 9:8; 3 names no channel (spec R90). -/
def fieldCh (w : Word) : Option Ch :=
  match (w.extractLsb' 8 2).toNat with
  | 0 => some .y
  | 1 => some .cb
  | 2 => some .cr
  | _ => none

/-- Field `B`, bit 10 (spec R90). -/
def fieldB (w : Word) : Bool := w.getLsbD 10

/-- Field `T`, bit 11 (spec R90). -/
def fieldT (w : Word) : Table := if w.getLsbD 11 then .chr else .lum

/-- Field `PS`, bits 13:12 (spec R90). -/
def fieldPs (w : Word) : PlaneSet :=
  match (w.extractLsb' 12 2).toNat with
  | 0 => .cur
  | 1 => .ref
  | 2 => .pred
  | _ => .res

/-- The check of spec R93 for one row of R92: apart from `OP`, the word is zero at every bit the row's mask has set. -/
def requireZero (w mask : Word) (r : Except DecodeError Instr) : Except DecodeError Instr :=
  if w &&& mask &&& 0xFFFFFF00#32 = 0#32 then r else .error .nonzeroUnused

/-- A row of R92 with no field. -/
def decPlain (w : Word) (i : Instr) : Except DecodeError Instr := requireZero w 0xFFFFFFFF#32 (.ok i)

/-- A row of R92 with field `B`. -/
def decB (w : Word) (mk : Bool → Instr) : Except DecodeError Instr :=
  requireZero w 0xFFFFFBFF#32 (.ok (mk (fieldB w)))

/-- A row of R92 with field `T`. -/
def decT (w : Word) (mk : Table → Instr) : Except DecodeError Instr :=
  requireZero w 0xFFFFF7FF#32 (.ok (mk (fieldT w)))

/-- A row of R92 with field `CH`, legal values 0 to 2. -/
def decCh (w : Word) (mk : Ch → Instr) : Except DecodeError Instr :=
  requireZero w 0xFFFFFCFF#32 <|
    match fieldCh w with
    | some c => .ok (mk c)
    | none => .error .illegalChannel

/-- A row of R92 with field `PS`, legal values 0 to 2. -/
def decPs (w : Word) (mk : PlaneSet → Instr) : Except DecodeError Instr :=
  requireZero w 0xFFFFCFFF#32 <|
    match fieldPs w with
    | .res => .error .illegalPlaneSet
    | ps => .ok (mk ps)

/-- The row of R92 with fields `PS` (0 to 3) and `CH` (0 to 2). -/
def decPsCh (w : Word) (mk : PlaneSet → Ch → Instr) : Except DecodeError Instr :=
  requireZero w 0xFFFFCCFF#32 <|
    match fieldCh w with
    | some c => .ok (mk (fieldPs w) c)
    | none => .error .illegalChannel

/-- The decoder: every 32-bit word is one of the 31 commands with legal fields, or illegal (spec R92, R94). -/
def decode (w : Word) : Except DecodeError Instr :=
  match fieldOp w with
  | 0x00 => decPlain w .nop
  | 0x01 => decPlain w .srst
  | 0x10 => decPlain w .rgb2ycc
  | 0x11 => decPlain w .ycc2rgb
  | 0x20 => decPlain w .ldpix
  | 0x21 => decPlain w .ldpln
  | 0x22 => decPs w .strgba
  | 0x23 => decPs w .stpln
  | 0x24 => decPsCh w .getblk
  | 0x30 => decB w .fdct
  | 0x31 => decB w .idct
  | 0x40 => decT w .quant
  | 0x41 => decT w .dequant
  | 0x50 => decPlain w .zz
  | 0x51 => decPlain w .unzz
  | 0x60 => decPlain w .rleenc
  | 0x61 => decPlain w .rledec
  | 0x70 => decPlain w .xfkey
  | 0x71 => decPlain w .emitkey
  | 0x72 => decPlain w .deckey
  | 0x80 => decCh w .mest
  | 0x90 => decCh w .mcomp
  | 0x91 => decCh w .resid
  | 0x92 => decPlain w .xfp
  | 0x93 => decPlain w .emitp
  | 0x94 => decPlain w .decp
  | 0xA0 => decPlain w .chrst
  | 0xA1 => decPlain w .chapp
  | 0xA2 => decPlain w .chemit
  | 0xA3 => decPlain w .chopen
  | 0xA4 => decPlain w .chnext
  | _ => .error .unassignedOpcode

/-- The instruction the decoder reads from the low `nbits` bits of `w`, every higher bit zero. -/
def decodeTableWord (nbits w : Nat) : Option Instr :=
  match decode (BitVec.ofNat 32 (w % 2 ^ nbits)) with
  | .ok i => some i
  | .error _ => none

/-- The value of field `CH` (spec R16, R90). -/
def Ch.code : Ch → Nat
  | .y => 0
  | .cb => 1
  | .cr => 2

/-- The value of field `PS` (spec R90). -/
def PlaneSet.code : PlaneSet → Nat
  | .cur => 0
  | .ref => 1
  | .pred => 2
  | .res => 3

/-- The value of field `T` (spec R90). -/
def Table.code : Table → Nat
  | .lum => 0
  | .chr => 1

/-- The word `OP + 2^8 * CH + 2^10 * B + 2^11 * T + 2^12 * PS` (spec R99). -/
def commandWord (op ch b t ps : Nat) : Word :=
  BitVec.ofNat 32 (op + 2 ^ 8 * ch + 2 ^ 10 * b + 2 ^ 11 * t + 2 ^ 12 * ps)

/-- The encoder: the word of a command, 0 for every field it does not use (spec R92, R99). -/
def encode : Instr → Word
  | .nop => commandWord 0x00 0 0 0 0
  | .srst => commandWord 0x01 0 0 0 0
  | .rgb2ycc => commandWord 0x10 0 0 0 0
  | .ycc2rgb => commandWord 0x11 0 0 0 0
  | .ldpix => commandWord 0x20 0 0 0 0
  | .ldpln => commandWord 0x21 0 0 0 0
  | .strgba ps => commandWord 0x22 0 0 0 ps.code
  | .stpln ps => commandWord 0x23 0 0 0 ps.code
  | .getblk ps ch => commandWord 0x24 ch.code 0 0 ps.code
  | .fdct b => commandWord 0x30 0 b.toNat 0 0
  | .idct b => commandWord 0x31 0 b.toNat 0 0
  | .quant t => commandWord 0x40 0 0 t.code 0
  | .dequant t => commandWord 0x41 0 0 t.code 0
  | .zz => commandWord 0x50 0 0 0 0
  | .unzz => commandWord 0x51 0 0 0 0
  | .rleenc => commandWord 0x60 0 0 0 0
  | .rledec => commandWord 0x61 0 0 0 0
  | .xfkey => commandWord 0x70 0 0 0 0
  | .emitkey => commandWord 0x71 0 0 0 0
  | .deckey => commandWord 0x72 0 0 0 0
  | .mest ch => commandWord 0x80 ch.code 0 0 0
  | .mcomp ch => commandWord 0x90 ch.code 0 0 0
  | .resid ch => commandWord 0x91 ch.code 0 0 0
  | .xfp => commandWord 0x92 0 0 0 0
  | .emitp => commandWord 0x93 0 0 0 0
  | .decp => commandWord 0x94 0 0 0 0
  | .chrst => commandWord 0xA0 0 0 0 0
  | .chapp => commandWord 0xA1 0 0 0 0
  | .chemit => commandWord 0xA2 0 0 0 0
  | .chopen => commandWord 0xA3 0 0 0 0
  | .chnext => commandWord 0xA4 0 0 0 0

/-- The commands a pseudo-command stands for, in order (spec R97). -/
def Pseudo.expand : Pseudo → List Instr
  | .enckey => [.ldpix, .xfkey, .emitkey]
  | .encp => [.ldpix, .xfp, .emitp]
  | .blkenc t b => [.fdct b, .quant t, .zz]
  | .blkdec t b => [.unzz, .dequant t, .idct b]

/-- A channel as the line form of spec R98 writes it. -/
def Ch.text : Ch → String
  | .y => "Y"
  | .cb => "CB"
  | .cr => "CR"

/-- A plane set as the line form of spec R98 writes it. -/
def PlaneSet.text : PlaneSet → String
  | .cur => "CUR"
  | .ref => "REF"
  | .pred => "PRED"
  | .res => "RES"

/-- A table as the line form of spec R98 writes it. -/
def Table.text : Table → String
  | .lum => "LUM"
  | .chr => "CHR"

/-- Field `B` as the line form of spec R98 writes it. -/
def biasText (b : Bool) : String := if b then "1" else "0"

/-- A command in the line form of spec R98, operands in the order `PS`, `CH`, `B`, `T`. -/
def Instr.text : Instr → String
  | .nop => "NOP"
  | .srst => "SRST"
  | .rgb2ycc => "RGB2YCC"
  | .ycc2rgb => "YCC2RGB"
  | .ldpix => "LDPIX"
  | .ldpln => "LDPLN"
  | .strgba ps => "STRGBA " ++ ps.text
  | .stpln ps => "STPLN " ++ ps.text
  | .getblk ps ch => "GETBLK " ++ ps.text ++ ", " ++ ch.text
  | .fdct b => "FDCT " ++ biasText b
  | .idct b => "IDCT " ++ biasText b
  | .quant t => "QUANT " ++ t.text
  | .dequant t => "DEQUANT " ++ t.text
  | .zz => "ZZ"
  | .unzz => "UNZZ"
  | .rleenc => "RLEENC"
  | .rledec => "RLEDEC"
  | .xfkey => "XFKEY"
  | .emitkey => "EMITKEY"
  | .deckey => "DECKEY"
  | .mest ch => "MEST " ++ ch.text
  | .mcomp ch => "MCOMP " ++ ch.text
  | .resid ch => "RESID " ++ ch.text
  | .xfp => "XFP"
  | .emitp => "EMITP"
  | .decp => "DECP"
  | .chrst => "CHRST"
  | .chapp => "CHAPP"
  | .chemit => "CHEMIT"
  | .chopen => "CHOPEN"
  | .chnext => "CHNEXT"

end Sys2Proof
end

