-- ==== Sys2Proof/Config.lean ====
section
/-! DEFINITION. What a build of the core fixes (spec R7, R8, U4, U5) and the values the spec leaves open (U1, U4). -/

namespace Sys2Proof

/-- Which DCT numerics `NUM` a build has (spec R174, U4): the spec's default `REF32` (R177), or numerics of which
nothing is known, one for each `k`. A theorem about every build holds for both. -/
inductive NumSel where
  | ref32
  | free (k : Nat)
deriving DecidableEq, Repr

/-- The open parameters of a build (spec R8, D5, D12): `MAX_DIM`, `IN_CAP`, `OUT_CAP`, `CH_MAX`, `NUM`. -/
structure Params where
  maxDim : Nat
  inCap : Nat
  outCap : Nat
  chMax : Nat
  num : NumSel
deriving DecidableEq, Repr

/-- The constraints R8 puts on a build. The upper bound of `CH_MAX` is DEDUCED (log 4): `CHE_COUNT` is 32 bits wide. -/
abbrev Params.Legal (p : Params) : Prop :=
  2 ≤ p.maxDim ∧ p.maxDim ≤ 2 ^ 31 - 1 ∧ p.inCap ≤ 2 ^ 32 - 1 ∧ p.outCap ≤ 2 ^ 32 - 1 ∧
    1 ≤ p.chMax ∧ p.chMax ≤ 2 ^ 32 - 1

namespace Config

/-- The build `State.reset` describes. DESIGN CHOICE, unsafe (log 3): the largest legal capacities, and the spec's
default numerics. Every statement is about every build, so none rests on it. -/
def build : Params where
  maxDim := 2 ^ 31 - 1
  inCap := 2 ^ 32 - 1
  outCap := 2 ^ 32 - 1
  chMax := 2 ^ 32 - 1
  num := .ref32

/-- `ID` reads `0x4D504301` (spec R33). -/
def idValue : Word := 0x4D504301#32

/-- The byte `INBUF[a]` holds after power-on, before the host writes it: any value (spec U1; log 7). -/
opaque inbufPowerOn : Nat → Byte

/-- The byte `OUTBUF[a]` holds where no command has specified it; the first argument is the state's `outGen`, so that
each command leaves fresh values: any value (spec U1, R63; log 8). -/
opaque outbufFree : Nat → Nat → Byte

/-- Entry `n` of `NUM.fdct` of a block in a build whose numerics are `.free k` (spec R174, U4; log 5). -/
opaque freeFdct : Nat → Block Int → Nat → Word

/-- Entry `n` of `NUM.idct` of a block in a build whose numerics are `.free k` (spec R174, U4; log 5). -/
opaque freeIdct : Nat → Block Word → Nat → Word

end Config

end Sys2Proof
end

