-- ==== Sys2Proof/Machine/State.lean ====
section
/-! DEFINITION. The whole state of the core (spec R20), what a run carries beside it (R8, R61), the outcomes, and the
state after power-on (R400). -/

namespace Sys2Proof.Machine

/-- One thing for each channel: Y, Cb, Cr (spec R16). -/
structure PerCh (α : Type) where
  y : α
  cb : α
  cr : α
deriving DecidableEq, Repr

/-- The error codes of spec R360; codes 9 to 15 are never produced. -/
inductive Err where
  | ok
  | malformedHeader
  | truncatedStream
  | missingReference
  | invalidVector
  | precompressState
  | badRequest
  | overflow
  | illegalCommand
deriving DecidableEq, Repr

/-- The stage of the current frame, `FSTAGE` (spec R36). -/
inductive Stage where
  | empty | raw | transformed | serialized
deriving DecidableEq, Repr

/-- The kind of the transformed frame, `FKIND` (spec R32, R36). -/
inductive Kind where
  | key | predicted
deriving DecidableEq, Repr

/-- A motion vector: two s8 (spec R42). -/
structure MVec where
  dx : BitVec 8
  dy : BitVec 8
deriving DecidableEq, Repr

/-- A byte plane, row-major: sample `(x, y)` at index `y * width + x` (spec R140). -/
abbrev Plane := List Byte

/-- A residual plane: integers in -255..255, row-major like a byte plane (spec R41). -/
abbrev ResPlane := List Int

/-- A byte store: (address, byte) pairs, addresses strictly rising. An unlisted address holds no specified byte. -/
abbrev Memory := List Host.Cell

/-- The windows on the block registers (spec R60, R64). -/
inductive Window where
  | sbw | tbw | qbw | zbw
deriving DecidableEq, Repr

/-- The host's primitives (spec R61): the only things that act on the core. -/
inductive HostAction where
  | regWrite (n : Nat) (v : Word)
  | regRead (n : Nat)
  | winWrite (w : Window) (i : Nat) (v : Word)
  | winRead (w : Window) (i : Nat)
  | bufWrite (a : Nat) (b : Byte)
  | bufReadIn (a : Nat)
  | bufRead (a : Nat)
  | reset
deriving DecidableEq, Repr

/-- The state of the core: exactly the components of spec R20. `CMD` is a trigger and `ID` a constant, so neither holds
anything (R31, R33). -/
structure CoreState where
  /-- `STATUS.ERR` (R32, R47). -/
  err : Err
  /-- `STATUS.FIRSTERR` (R32, R47). -/
  firstErr : Err
  /-- `STATUS.FSTAGE` (R36). -/
  fstage : Stage
  /-- `STATUS.FKIND` (R36). -/
  fkind : Kind
  /-- `STATUS.REFV` (R38). -/
  refv : Bool
  /-- `STATUS.MVV`, one bit a channel (R42). -/
  mvv : PerCh Bool
  /-- `STATUS.PREDV`, one bit a channel (R40). -/
  predv : PerCh Bool
  /-- `STATUS.RESV`, one bit a channel (R41). -/
  resv : PerCh Bool
  /-- `STATUS.CHOPEN` (R45). -/
  chopen : Bool
  /-- `FRM_W` (R34). -/
  frmW : Word
  /-- `FRM_H` (R34). -/
  frmH : Word
  /-- `RADIUS`, bits 6:0 (R35). -/
  radius : BitVec 7
  /-- `IN_LEN` (R37). -/
  inLen : Word
  /-- `OUT_LEN` (R37). -/
  outLen : Word
  /-- `ARG0` (R25). -/
  arg0 : Word
  /-- `ARG1` (R25). -/
  arg1 : Word
  /-- `PX`: R, G, B, A from the low byte up (R23). -/
  px : Word
  /-- `YC`: Y, Cb, Cr from the low byte up (R24). -/
  yc : BitVec 24
  /-- `SB`: signed 32-bit entries (R26). -/
  sb : Block Word
  /-- `TB`: binary32 patterns (R27). -/
  tb : Block Word
  /-- `QB`: signed 8-bit entries (R28). -/
  qb : Block Byte
  /-- `ZB`: wire bytes in zigzag order (R29). -/
  zb : Block Byte
  /-- `INBUF` (R62). -/
  inbuf : Memory
  /-- `OUTBUF` (R63): the bytes a command has specified. -/
  outbuf : Memory
  /-- `CUR` (R39). -/
  cur : PerCh Plane
  /-- `REF` (R38). -/
  ref : PerCh Plane
  /-- `PRED` (R40). -/
  pred : PerCh Plane
  /-- `RES` (R41). -/
  res : PerCh ResPlane
  /-- `MV.0`, `MV.1`, `MV.2` (R42). -/
  mv : PerCh (List MVec)
  /-- `COEF` (R43). -/
  coef : List Byte
  /-- `CHS` (R44). -/
  chs : List (List Byte)
  /-- `CHE_COUNT` (R44). -/
  cheCount : Word
  /-- `CHE_W` (R44). -/
  cheW : Word
  /-- `CHE_H` (R44). -/
  cheH : Word
  /-- `CHLEN` (R45). -/
  chlen : List Word
  /-- `CHD_COUNT` (R45). -/
  chdCount : Word
  /-- `CHD_IDX` (R45). -/
  chdIdx : Word
  /-- `CHD_OFF` (R45). -/
  chdOff : Word
deriving DecidableEq, Repr

/-- What a run steps on: the state of the core (R20), and beside it four things R20 does not count as state, which the
model carries because a step is a function of one argument. -/
structure State extends CoreState where
  /-- Beside the core's state: the build's parameters (R8), which nothing writes (log 3). -/
  cfg : Params
  /-- Beside the core's state: the host primitives not yet performed, the next one first (R21, R61; log 1). -/
  host : List HostAction
  /-- Beside the core's state: the values the host's reads returned, newest first (log 2). -/
  seen : List Word
  /-- Beside the core's state: moves on whenever a command leaves `OUTBUF` unspecified beyond its output (U1; log 8). -/
  outGen : Nat
deriving DecidableEq, Repr

/-- The core never stops with a fault: a failed check aborts the command, which is a next state (spec R366), an access
beyond a capacity reads 0 or is ignored (R60 to R64), and no behaviour is unpredictable (93_implementation_defined.md).
No constructor, so nobody raises one; safe: nothing the hardware does is cut short (log 17). -/
inductive Fault where
deriving DecidableEq, Repr

/-- Why the model gives an instruction no meaning. -/
inductive Refusal where
  /-- Raised only by `exec`, for an instruction the model has not reached; no arm raises it now. Safe: nothing is
  claimed of such an instruction. -/
  | notModelled (mnemonic : String)
deriving DecidableEq, Repr

/-- What one command or one step answers. -/
abbrev Result := Host.Outcome State Fault Refusal

/-- The state after power-on (spec R49, R400): `STATUS` 0, the registers 0, `RADIUS` 8, the chain stores empty. The
buffers list nothing (every byte unspecified, U1), the invalid stores are empty (unreadable, U2; log 9), the host has
nothing pending (log 1). -/
def State.reset : State where
  cfg := Config.build
  host := []
  seen := []
  outGen := 0
  err := .ok
  firstErr := .ok
  fstage := .empty
  fkind := .key
  refv := false
  mvv := ⟨false, false, false⟩
  predv := ⟨false, false, false⟩
  resv := ⟨false, false, false⟩
  chopen := false
  frmW := 0
  frmH := 0
  radius := 8
  inLen := 0
  outLen := 0
  arg0 := 0
  arg1 := 0
  px := 0
  yc := 0
  sb := Vector.replicate 64 0
  tb := Vector.replicate 64 0
  qb := Vector.replicate 64 0
  zb := Vector.replicate 64 0
  inbuf := []
  outbuf := []
  cur := ⟨[], [], []⟩
  ref := ⟨[], [], []⟩
  pred := ⟨[], [], []⟩
  res := ⟨[], [], []⟩
  mv := ⟨[], [], []⟩
  coef := []
  chs := []
  cheCount := 0
  cheW := 0
  cheH := 0
  chlen := []
  chdCount := 0
  chdIdx := 0
  chdOff := 0

end Sys2Proof.Machine
end

