-- ==== Sys2Proof/Machine/Arith.lean ====
section
/-! DEFINITION. The integer functions of spec R10, the byte order of R65, block indexing (R12), planes (R140) and the
frame geometry of R14 to R16 and R270. All arithmetic is on unbounded naturals and integers (R110). -/

namespace Sys2Proof.Machine

/-! ### Integer functions (R10) -/

/-- `ceil8(n)` (spec R10). -/
def ceil8 (n : Nat) : Nat := (n + 7) / 8

/-- `ceil16(n)` (spec R10). -/
def ceil16 (n : Nat) : Nat := (n + 15) / 16

/-- `clamp(v, lo, hi)` (spec R10). -/
def clamp (v lo hi : Int) : Int := if v < lo then lo else if hi < v then hi else v

/-- The sample byte `clamp(v, 0, 255)` (spec R110). -/
def clampByte (v : Int) : Byte := BitVec.ofInt 8 (clamp v 0 255)

/-- `rnd` of the rational `n / d`, `d > 0`: round half away from zero (spec R10, R193). -/
def rndDiv (n : Int) (d : Nat) : Int :=
  if 0 ≤ n then (2 * n + d) / (2 * d) else -((-(2 * n) + d) / (2 * d))

/-- `le32(n)`: four bytes, least significant first (spec R10, R65). -/
def le32 (n : Nat) : List Byte :=
  [BitVec.ofNat 8 n, BitVec.ofNat 8 (n / 2 ^ 8), BitVec.ofNat 8 (n / 2 ^ 16), BitVec.ofNat 8 (n / 2 ^ 24)]

/-- Byte `i` of a byte string; every rule reads inside the string (spec R11). -/
def byteAt (b : List Byte) (i : Nat) : Byte := b.getD i 0

/-- `rd32(b, o)` (spec R10, R65). -/
def rd32 (b : List Byte) (o : Nat) : Nat :=
  (byteAt b o).toNat + 2 ^ 8 * (byteAt b (o + 1)).toNat + 2 ^ 16 * (byteAt b (o + 2)).toNat +
    2 ^ 24 * (byteAt b (o + 3)).toNat

/-- The sub-list `A[i..j)` (spec R11). -/
def slice {α : Type} (l : List α) (i j : Nat) : List α := (l.drop i).take (j - i)

/-! ### Blocks (R12) -/

/-- The block whose entry `n` is `f n`. -/
def mkBlock {α : Type} (f : Fin 64 → α) : Block α := ⟨⟨List.ofFn f⟩, by simp⟩

/-- `f` of every entry of a block. -/
def mapBlock {α β : Type} (f : α → β) (b : Block α) : Block β := mkBlock fun n => f b[n]

/-- Entry `n` of a window or block at a natural index below 64 (spec R12). -/
def blockAt {α : Type} (b : Block α) (n : Nat) (default : α) : α :=
  if h : n < 64 then b[n] else default

/-! ### Channels (R16) -/

/-- The component of channel `c`. -/
def PerCh.get {α : Type} (p : PerCh α) : Ch → α
  | .y => p.y
  | .cb => p.cb
  | .cr => p.cr

/-- Replace the component of channel `c` and no other. -/
def PerCh.set {α : Type} (p : PerCh α) (c : Ch) (v : α) : PerCh α :=
  match c with
  | .y => { p with y := v }
  | .cb => { p with cb := v }
  | .cr => { p with cr := v }

/-- The three components `f Y`, `f Cb`, `f Cr`. -/
def PerCh.of {α : Type} (f : Ch → α) : PerCh α := ⟨f .y, f .cb, f .cr⟩

/-! ### Planes (R140) -/

/-- The row-major plane of size `w × h` whose sample `(x, y)` is `f x y` (spec R140). -/
def planeOf {α : Type} (w h : Nat) (f : Nat → Nat → α) : List α :=
  (List.range h).flatMap fun y => (List.range w).map fun x => f x y

/-- Sample `(x, y)` of a row-major byte plane of width `w`. A rule reads inside the plane only; outside the list it is
0 (log 10). -/
def sampleAt (p : Plane) (w x y : Nat) : Byte := p.getD (y * w + x) 0

/-- Sample `(x, y)` of a row-major residual plane of width `w`; outside the list 0 (log 10). -/
def resAt (p : ResPlane) (w x y : Nat) : Int := p.getD (y * w + x) 0

/-- A byte plane as a function to integers. -/
def sampleInt (p : Plane) (w x y : Nat) : Int := (sampleAt p w x y).toNat

/-! ### Frame geometry (R14 to R16, R270) -/

/-- Width of the plane of channel `c` in a frame of width `W` (spec R14, R16). -/
def planeW (W : Nat) : Ch → Nat
  | .y => W
  | .cb => W / 2
  | .cr => W / 2

/-- Height of the plane of channel `c` in a frame of height `H` (spec R14, R16). -/
def planeH (H : Nat) : Ch → Nat
  | .y => H
  | .cb => H / 2
  | .cr => H / 2

/-- The macroblock side `S(c)` (spec R16). -/
def mbSide : Ch → Nat
  | .y => 16
  | .cb => 8
  | .cr => 8

/-- How many 8 × 8 blocks a plane of size `pw × ph` has (spec R14, R149). -/
def blockCount (pw ph : Nat) : Nat := ceil8 pw * ceil8 ph

/-- `nY` (spec R14). -/
def nY (W H : Nat) : Nat := blockCount W H

/-- `nC` (spec R14). -/
def nC (W H : Nat) : Nat := blockCount (W / 2) (H / 2)

/-- `LC`, the size of the coefficient region (spec R14). -/
def lenCoef (W H : Nat) : Nat := 64 * (nY W H + 2 * nC W H)

/-- `mY` (spec R15). -/
def mY (W H : Nat) : Nat := ceil16 W * ceil16 H

/-- `mC` (spec R15). -/
def mC (W H : Nat) : Nat := ceil8 (W / 2) * ceil8 (H / 2)

/-- `LV`, the size of the vector region (spec R15). -/
def lenVec (W H : Nat) : Nat := 2 * (mY W H + 2 * mC W H)

/-- Macroblock columns of a plane of width `pw` (spec R270). -/
def nmx (c : Ch) (pw : Nat) : Nat := (pw + mbSide c - 1) / mbSide c

/-- Macroblock rows of a plane of height `ph` (spec R270). -/
def nmy (c : Ch) (ph : Nat) : Nat := (ph + mbSide c - 1) / mbSide c

end Sys2Proof.Machine
end

