-- ==== Sys2Proof/Machine/Ops.lean ====
section
/-! DEFINITION. The shared operations over buffers and registers: byte stores, how a command completes (R37, R47), how
it aborts (R366), `SetDims` (R48) and the warm reset (R400). -/

namespace Sys2Proof.Machine

/-! ### Byte stores (R62, R63) -/

/-- The byte the store lists at address `a`, if any. -/
def Memory.read : Memory → Nat → Option Byte
  | [], _ => none
  | (b, v) :: m, a => if a = b then some v else if a < b then none else Memory.read m a

/-- Store byte `v` at address `a`, keeping the addresses strictly rising. -/
def Memory.write : Memory → Nat → Byte → Memory
  | [], a, v => [(a, v)]
  | (b, u) :: m, a, v =>
    if a < b then (a, v) :: (b, u) :: m
    else if a = b then (a, v) :: m
    else (b, u) :: Memory.write m a v

/-- The store that lists the bytes of `l` from address `a` on and nothing else. -/
def Memory.ofBytes : List Byte → Nat → Memory
  | [], _ => []
  | v :: l, a => (a, v) :: Memory.ofBytes l (a + 1)

/-- Every listed address is at least `a` and the addresses rise strictly. -/
def Memory.wfFrom : Memory → Nat → Bool
  | [], _ => true
  | (b, _) :: m, a => decide (a ≤ b) && Memory.wfFrom m (b + 1)

/-- The canonical form: addresses strictly rising. An unlisted address holds no specified byte, so no listed byte can
equal what an unlisted address reads as. -/
def Memory.wf (m : Memory) : Bool := Memory.wfFrom m 0

/-- Every listed address is below `n`. -/
def Memory.below (m : Memory) (n : Nat) : Bool := m.all fun c => decide (c.1 < n)

/-- `INBUF[a]`: the byte the host wrote, or any value (spec R62, U1; log 7). -/
def State.inByte (s : State) (a : Nat) : Byte := (Memory.read s.inbuf a).getD (Config.inbufPowerOn a)

/-- `OUTBUF[a]`: the byte a command specified, or any value (spec R63, U1; log 8). -/
def State.outByte (s : State) (a : Nat) : Byte := (Memory.read s.outbuf a).getD (Config.outbufFree s.outGen a)

/-- `MemRead(INBUF, o, n)`: the bytes `INBUF[o .. o+n)` (spec R11, R80). -/
def State.inBytes (s : State) (o n : Nat) : List Byte := (List.range n).map fun i => s.inByte (o + i)

/-! ### How a command ends -/

/-- A command completes with output `out`: `OUTBUF[0 .. |out|) <- out`, the rest of `OUTBUF` unspecified,
`OUT_LEN <- |out|`, `ERR <- 0` (spec R37, R47, R51, R63). -/
def State.done (s : State) (out : List Byte) : State :=
  { s with
    err := .ok
    outLen := BitVec.ofNat 32 out.length
    outbuf := Memory.ofBytes out 0
    outGen := s.outGen + 1 }

/-- A command aborts with error `e`: `ERR <- e`, `FIRSTERR <- e` if it was 0, `OUT_LEN <- 0`, no byte of `OUTBUF`
specified, nothing else changes (spec R366, R47, R51). -/
def State.abort (s : State) (e : Err) : State :=
  { s with
    err := e
    firstErr := if s.firstErr = .ok then e else s.firstErr
    outLen := 0
    outbuf := []
    outGen := s.outGen + 1 }

/-! ### Dimensions and reset -/

/-- `SetDims(w, h)` (spec R48). -/
def State.setDims (s : State) (w h : Word) : State :=
  { s with
    frmW := w
    frmH := h
    fstage := .empty
    fkind := .key
    refv := false
    mvv := ⟨false, false, false⟩
    predv := ⟨false, false, false⟩
    resv := ⟨false, false, false⟩ }

/-- A warm reset, by the host's `Reset` or by `SRST`: every register and the chain stores at their reset values;
`INBUF`, `OUTBUF` and the (now invalid) stores are not changed (spec R400, R403). -/
def State.warmReset (s : State) : State :=
  { State.reset with
    cfg := s.cfg
    host := s.host
    seen := s.seen
    outGen := s.outGen
    inbuf := s.inbuf
    outbuf := s.outbuf
    cur := s.cur
    ref := s.ref
    pred := s.pred
    res := s.res
    mv := s.mv
    coef := s.coef }

end Sys2Proof.Machine
end

