-- ==== Sys2Proof/Machine/Flags.lean ====
section
/-! DEFINITION. The fields of `STATUS` as the host reads them (spec R32, R36, R360). The core has no other flags (R52). -/

namespace Sys2Proof.Machine

/-- The number of an error code (spec R360). -/
def Err.code : Err → BitVec 4
  | .ok => 0
  | .malformedHeader => 1
  | .truncatedStream => 2
  | .missingReference => 3
  | .invalidVector => 4
  | .precompressState => 5
  | .badRequest => 6
  | .overflow => 7
  | .illegalCommand => 8

/-- The value of `FSTAGE` (spec R32, R36). -/
def Stage.code : Stage → BitVec 2
  | .empty => 0
  | .raw => 1
  | .transformed => 2
  | .serialized => 3

/-- The value of `FKIND` (spec R32). -/
def Kind.code : Kind → BitVec 1
  | .key => 0
  | .predicted => 1

/-- `FSTAGE ≥ 2`: the transform-domain representation has been computed (spec R36, R43). -/
def Stage.isTransformed : Stage → Bool
  | .empty => false
  | .raw => false
  | .transformed => true
  | .serialized => true

/-- Three channel bits, Y lowest (spec R32). -/
def channelBits (p : PerCh Bool) : BitVec 3 := BitVec.ofBool p.cr ++ BitVec.ofBool p.cb ++ BitVec.ofBool p.y

/-- The `STATUS` word (spec R32): bits 31:22 zero, then `CHOPEN`, `RESV`, `PREDV`, `MVV`, `REFV`, `FKIND`, `FSTAGE`,
`FIRSTERR`, `ERR`. -/
def State.statusWord (s : State) : Word :=
  0#10 ++ BitVec.ofBool s.chopen ++ channelBits s.resv ++ channelBits s.predv ++ channelBits s.mvv ++
    BitVec.ofBool s.refv ++ s.fkind.code ++ s.fstage.code ++ s.firstErr.code ++ s.err.code

end Sys2Proof.Machine
end

