-- ==== Sys2Proof/Machine/Operands.lean ====
section
/-! DEFINITION. The operands commands read: dimensions, lengths, pixel fields, planes of plane sets, and their validity
(spec R23, R24, R48, R91, R158). -/

namespace Sys2Proof.Machine

/-- `W`, the frame width as a number (spec R14, R91). -/
def State.W (s : State) : Nat := s.frmW.toNat

/-- `H`, the frame height as a number (spec R14, R91). -/
def State.H (s : State) : Nat := s.frmH.toNat

/-- `RADIUS` as a number (spec R35). -/
def State.R (s : State) : Nat := s.radius.toNat

/-- Legal dimensions: both in 2..`MAX_DIM` (spec R48). -/
abbrev legalDims (p : Params) (w h : Nat) : Prop := 2 ≤ w ∧ w ≤ p.maxDim ∧ 2 ≤ h ∧ h ≤ p.maxDim

/-- `DimsOK` (spec R48). -/
abbrev State.dimsOK (s : State) : Prop := legalDims s.cfg s.W s.H

/-- `IN_LEN` lies inside `INBUF` (spec R62). -/
abbrev State.inFits (s : State) : Prop := s.inLen.toNat ≤ s.cfg.inCap

/-- The operand `INBUF[0 .. IN_LEN)` (spec R62, R80). -/
def State.input (s : State) : List Byte := s.inBytes 0 s.inLen.toNat

/-- `PX.R` (spec R23). -/
def pxR (px : Word) : Byte := px.extractLsb' 0 8

/-- `PX.G` (spec R23). -/
def pxG (px : Word) : Byte := px.extractLsb' 8 8

/-- `PX.B` (spec R23). -/
def pxB (px : Word) : Byte := px.extractLsb' 16 8

/-- `PX` from its four bytes (spec R23). -/
def packPx (r g b a : Byte) : Word := a ++ b ++ g ++ r

/-- `YC.Y` (spec R24). -/
def ycY (yc : BitVec 24) : Byte := yc.extractLsb' 0 8

/-- `YC.Cb` (spec R24). -/
def ycCb (yc : BitVec 24) : Byte := yc.extractLsb' 8 8

/-- `YC.Cr` (spec R24). -/
def ycCr (yc : BitVec 24) : Byte := yc.extractLsb' 16 8

/-- `YC` from its three bytes (spec R24). -/
def packYc (y cb cr : Byte) : BitVec 24 := cr ++ cb ++ y

/-- The error `PSValid(ps, need)` raises, if any, where `need c` says channel `c` is read (spec R158). -/
def State.planeSetError (s : State) (ps : PlaneSet) (need : Ch → Bool) : Option Err :=
  match ps with
  | .cur => if s.fstage = .empty then some .badRequest else none
  | .ref => if s.refv then none else some .missingReference
  | .pred => if ∀ c ∈ [Ch.y, Ch.cb, Ch.cr], need c → s.predv.get c then none else some .badRequest
  | .res => if ∀ c ∈ [Ch.y, Ch.cb, Ch.cr], need c → s.resv.get c then none else some .badRequest

/-- The three byte planes of plane set `CUR`, `REF` or `PRED` (spec R154). `RES` holds no byte planes; a command that
reads bytes refuses it before (R94). -/
def State.planesOf (s : State) : PlaneSet → PerCh Plane
  | .cur => s.cur
  | .ref => s.ref
  | .pred => s.pred
  | .res => ⟨[], [], []⟩

/-- Sample `(x, y)` of plane `c` of a plane set as an integer; residuals are signed (spec R160). -/
def State.planeInt (s : State) (ps : PlaneSet) (c : Ch) (x y : Nat) : Int :=
  match ps with
  | .cur => sampleInt (s.cur.get c) (planeW s.W c) x y
  | .ref => sampleInt (s.ref.get c) (planeW s.W c) x y
  | .pred => sampleInt (s.pred.get c) (planeW s.W c) x y
  | .res => resAt (s.res.get c) (planeW s.W c) x y

end Sys2Proof.Machine
end

