-- ==== Sys2Proof/Machine/Motion.lean ====
section
/-! DEFINITION. MotionEstimator: macroblocks, cost, admissible offsets, the exhaustive search, `MEST` (spec R270 to
R278). -/

namespace Sys2Proof.Machine

/-- A macroblock: its origin and extent in its plane (spec R270). -/
structure Macroblock where
  x : Nat
  y : Nat
  w : Nat
  h : Nat
deriving DecidableEq, Repr

/-- The macroblock with index `m` of channel `c` in a plane of size `pw × ph`; a partial one is cropped (spec R270). -/
def macroblock (c : Ch) (pw ph m : Nat) : Macroblock :=
  let x := mbSide c * (m % nmx c pw)
  let y := mbSide c * (m / nmx c pw)
  ⟨x, y, min (mbSide c) (pw - x), min (mbSide c) (ph - y)⟩

/-- How many macroblocks channel `c` has (spec R15, R270). -/
def mbCount (c : Ch) (pw ph : Nat) : Nat := nmx c pw * nmy c ph

/-- Sample of a plane at integer coordinates; rules read at admissible, non-negative places only (log 10). -/
def sampleZ (p : Plane) (pw : Nat) (x y : Int) : Byte := sampleAt p pw x.toNat y.toNat

/-- The cost `sad` of an offset (spec R272). -/
def sad (cu rf : Plane) (pw : Nat) (b : Macroblock) (dx dy : Int) : Nat :=
  ((List.range b.h).map fun j =>
    ((List.range b.w).map fun i =>
      (((sampleAt cu pw (b.x + i) (b.y + j)).toNat : Int) -
        ((sampleZ rf pw (b.x + dx + i) (b.y + dy + j)).toNat : Int)).natAbs).sum).sum

/-- The offset is admissible: the displaced extent lies inside the plane (spec R273). -/
abbrev adm (pw ph : Nat) (b : Macroblock) (dx dy : Int) : Prop :=
  0 ≤ (b.x : Int) + dx ∧ (b.x : Int) + dx + b.w ≤ pw ∧ 0 ≤ (b.y : Int) + dy ∧ (b.y : Int) + dy + b.h ≤ ph

/-- The offsets `-R .. R-1`, ascending (spec R274). -/
def offsets (r : Nat) : List Int := (List.range (2 * r)).map fun k => (k : Int) - r

/-- The candidates in scan order: `u` outer, `v` inner, both ascending (spec R274). -/
def candidates (r : Nat) : List (Int × Int) := (offsets r).flatMap fun u => (offsets r).map fun v => (u, v)

/-- The best offset so far and its cost. -/
abbrev Best := (Int × Int) × Nat

/-- Try one candidate: it replaces the best only if admissible and strictly better (spec R274). -/
def tryOffset (cu rf : Plane) (pw ph : Nat) (b : Macroblock) (best : Best) (d : Int × Int) : Best :=
  if adm pw ph b d.1 d.2 then
    let c := sad cu rf pw b d.1 d.2
    if c < best.2 then (d, c) else best
  else best

/-- `best_vector`: early exit on a zero cost at the zero offset, else the exhaustive scan (spec R274). -/
def bestOffset (cu rf : Plane) (pw ph r : Nat) (b : Macroblock) : Best :=
  let z := sad cu rf pw b 0 0
  if z = 0 then ((0, 0), 0)
  else (candidates r).foldl (tryOffset cu rf pw ph b) ((0, 0), z)

/-- The vector of an offset, two s8 (spec R42, R278). -/
def vectorOf (d : Int × Int) : MVec := ⟨BitVec.ofInt 8 d.1, BitVec.ofInt 8 d.2⟩

/-- `field(C, Rf, c, R)`: the best vector of every macroblock in raster order (spec R276). -/
def field (c : Ch) (cu rf : Plane) (pw ph r : Nat) : List MVec :=
  (List.range (mbCount c pw ph)).map fun m => vectorOf (bestOffset cu rf pw ph r (macroblock c pw ph m)).1

/-- The vector field of channel `c` of `CUR` against `REF` (spec R278, R306). -/
def State.fieldOf (s : State) (c : Ch) : List MVec :=
  field c (s.cur.get c) (s.ref.get c) (planeW s.W c) (planeH s.H c) s.R

/-- `MEST ch` (spec R278). -/
def execMest (ch : Ch) (s : State) : Result :=
  if s.fstage ≠ .raw then .next (s.abort .badRequest)
  else if ¬ s.refv then .next (s.abort .missingReference)
  else .next ({ s with mv := s.mv.set ch (s.fieldOf ch), mvv := s.mvv.set ch true }.done [])

end Sys2Proof.Machine
end

