-- ==== Sys2Proof/Machine/Mrle.lean ====
section
/-! DEFINITION. RunLengthCodec: the MRLE code (spec R220 to R224), `RLEENC` and `RLEDEC` (R226, R227). -/

namespace Sys2Proof.Machine

/-- One item: a triple for a run of two or more or for the escape byte, else the literal (spec R220, R221). -/
def mrleItem (v : Byte) (r : Nat) : List Byte :=
  if 2 ≤ r ∨ v = 0 then [0, BitVec.ofNat 8 r, v] else [v]

/-- Encode the rest of the input while the current run is `v` repeated `r` times, `1 ≤ r ≤ 255`: the run grows while
the next byte is `v` and `r < 255` (the longest run from the left, capped at 255; spec R221). -/
def mrleRun (v : Byte) (r : Nat) : List Byte → List Byte
  | [] => mrleItem v r
  | b :: rest =>
    if b = v ∧ r < 255 then mrleRun v (r + 1) rest
    else mrleItem v r ++ mrleRun b 1 rest

/-- `mrle_enc(x)` (spec R221). -/
def mrleEnc : List Byte → List Byte
  | [] => []
  | b :: rest => mrleRun b 1 rest

/-- `mrle_dec(s)` (spec R224); `none` is `TruncatedStream`: an escape byte with fewer than two bytes after it. -/
def mrleDec : List Byte → Option (List Byte)
  | [] => some []
  | b :: rest =>
    if b ≠ 0 then (mrleDec rest).map (b :: ·)
    else
      match rest with
      | len :: v :: rest' => (mrleDec rest').map (List.replicate len.toNat v ++ ·)
      | _ => none

/-- `RLEENC` (spec R226). -/
def execRleenc (s : State) : Result :=
  if ¬ s.inFits then .next (s.abort .badRequest)
  else
    let e := mrleEnc s.input
    if s.cfg.outCap < e.length then .next (s.abort .overflow) else .next (s.done e)

/-- `RLEDEC` (spec R227): the whole stream is parsed before the size is compared. -/
def execRledec (s : State) : Result :=
  if ¬ s.inFits then .next (s.abort .badRequest)
  else
    match mrleDec s.input with
    | none => .next (s.abort .truncatedStream)
    | some d => if s.cfg.outCap < d.length then .next (s.abort .overflow) else .next (s.done d)

end Sys2Proof.Machine
end

