-- ==== Sys2Proof/Machine/Binary32.lean ====
section
/-! DEFINITION. IEEE 754 binary32 as spec R13 and R111 use it. A finite value is a sign and a magnitude counted in
units of 2^-149, the smallest subnormal, so that every finite binary32 magnitude is a natural number. -/

namespace Sys2Proof.Machine

/-- A finite binary32 value: `(-1)^neg * mag * 2^-149`. -/
structure F32 where
  neg : Bool
  mag : Nat
deriving DecidableEq, Repr

/-- Bits 30:23 of a pattern (spec R13). -/
def f32Exp (w : Word) : Nat := (w.extractLsb' 23 8).toNat

/-- Bits 22:0 of a pattern (spec R13). -/
def f32Frac (w : Word) : Nat := (w.extractLsb' 0 23).toNat

/-- The pattern is neither an infinity nor a NaN. -/
def f32IsFinite (w : Word) : Bool := f32Exp w != 255

/-- The value of a finite pattern; subnormals are kept (spec R13, R111). -/
def F32.ofBits (w : Word) : F32 where
  neg := w.getLsbD 31
  mag := if f32Exp w = 0 then f32Frac w else (2 ^ 23 + f32Frac w) <<< (f32Exp w - 1)

/-- The pattern of a value whose magnitude binary32 can hold; a magnitude of 2^128 or more is the pattern of infinity
(unreachable in the domain of `NUM`, R111; log 11). -/
def F32.toBits (f : F32) : Word :=
  let s := if f.neg then 2 ^ 31 else 0
  if f.mag < 2 ^ 23 then BitVec.ofNat 32 (s + f.mag)
  else
    let e := f.mag.log2 - 23
    if 254 ≤ e then BitVec.ofNat 32 (s + 255 * 2 ^ 23)
    else BitVec.ofNat 32 (s + (e + 1) * 2 ^ 23 + (f.mag >>> e - 2 ^ 23))

/-- `m / 2^k` rounded to the nearest integer, ties to even. -/
def rneShift (m k : Nat) : Nat :=
  let q := m >>> k
  let r := m - q <<< k
  if 2 ^ k < 2 * r ∨ (2 ^ k = 2 * r ∧ q % 2 = 1) then q + 1 else q

/-- `fl` of a magnitude of `p * 2^-149 * 2^-j`: nearest binary32 magnitude, ties to even fraction, gradual underflow
(spec R13, R111). -/
def flMag (p j : Nat) : Nat :=
  let k := max j (p.log2 - 23)
  rneShift p k <<< (k - j)

/-- One binary32 multiplication: the exact product rounded by `fl` (spec R111, R177). -/
def F32.mul (a b : F32) : F32 := ⟨a.neg != b.neg, flMag (a.mag * b.mag) 149⟩

/-- One binary32 addition: the exact sum rounded by `fl`; an exact zero of unlike signs is +0 (spec R111, R177;
log 11). -/
def F32.add (a b : F32) : F32 :=
  if a.neg = b.neg then ⟨a.neg, flMag (a.mag + b.mag) 0⟩
  else if b.mag < a.mag then ⟨a.neg, flMag (a.mag - b.mag) 0⟩
  else if a.mag < b.mag then ⟨b.neg, flMag (b.mag - a.mag) 0⟩
  else ⟨false, 0⟩

/-- `float(n)`: the binary32 value of an integer, +0 for 0 (spec R111, R177). -/
def F32.ofInt (n : Int) : F32 := ⟨decide (n < 0), flMag (n.natAbs <<< 149) 0⟩

/-- The value as an integer number of units of 2^-149. -/
def F32.units (f : F32) : Int := if f.neg then -(f.mag : Int) else f.mag

/-- `rnd` of a binary32 value divided by a positive integer, on the exact rational (spec R10, R193). -/
def F32.rndDivBy (f : F32) (d : Nat) : Int := rndDiv f.units (d * 2 ^ 149)

end Sys2Proof.Machine
end

