-- ==== Sys2Proof/Machine/Dct.lean ====
section
/-! DEFINITION. BlockTransform: the numerics `NUM` (spec R174), its default `REF32` (R176, R177), and `FDCT`, `IDCT`
(R179, R180). -/

namespace Sys2Proof.Machine

/-! ### REF32 (R176, R177) -/

/-- `CT[0 .. 8]` of spec R176, as patterns. -/
def cosPatterns : List Word :=
  [0x3F800000#32, 0x3F7B14BE#32, 0x3F6C835E#32, 0x3F54DB31#32, 0x3F3504F3#32, 0x3F0E39DA#32, 0x3EC3EF15#32,
   0x3E47C5C2#32, 0x00000000#32]

/-- `CT[m]` for `m` in 0..31: `CT[m] = -CT[16 - m]` for 9..16 and `CT[m] = CT[32 - m]` for 17..31 (spec R176). -/
def cosTable (m : Nat) : F32 :=
  let k := if m ≤ 16 then m else 32 - m
  if k ≤ 8 then F32.ofBits (cosPatterns.getD k 0)
  else { F32.ofBits (cosPatterns.getD (16 - k) 0) with neg := true }

/-- The table entry of `cos(u*pi*(2x+1)/16)` (spec R176). -/
def cosAt (u x : Nat) : F32 := cosTable ((u * (2 * x + 1)) % 32)

/-- `cf(0) = ISQ2`, `cf(k) = 1.0` for `k` > 0 (spec R176). -/
def cf (k : Nat) : F32 := if k = 0 then F32.ofBits 0x3F3504F3#32 else F32.ofBits 0x3F800000#32

/-- The binary32 value 0.25. -/
def quarter : F32 := F32.ofBits 0x3E800000#32

/-- The 64-term binary32 sum from +0.0 in index order, `n = 8*row + column`, rows outer (spec R177). -/
def sum64 (t : Fin 64 → F32) : F32 := (List.finRange 64).foldl (fun acc n => acc.add (t n)) ⟨false, 0⟩

/-- Coefficient `(u, v)` of `REF32.fdct` (spec R177). -/
def ref32FdctAt (h : Block Int) (u v : Nat) : F32 :=
  (((cf u).mul (cf v)).mul quarter).mul
    (sum64 fun n => ((F32.ofInt h[n]).mul (cosAt u (n.val % 8))).mul (cosAt v (n.val / 8)))

/-- Sample `(x, y)` of `REF32.idct` (spec R177). -/
def ref32IdctAt (f : Block Word) (x y : Nat) : F32 :=
  quarter.mul
    (sum64 fun n =>
      ((((cf (n.val % 8)).mul (cf (n.val / 8))).mul (F32.ofBits f[n])).mul (cosAt (n.val % 8) x)).mul
        (cosAt (n.val / 8) y))

/-! ### NUM (R174) -/

/-- A finite pattern: what the free numerics answer, or +0.0 where that is an infinity or a NaN (`NUM` answers finite
values, spec R174; log 6). -/
def finitePattern (w : Word) : Word := if f32IsFinite w then w else 0

/-- `NUM.fdct` of a build (spec R174). -/
def numFdct (num : NumSel) (a : Block Int) : Block Word :=
  match num with
  | .ref32 => mkBlock fun n => (ref32FdctAt a (n.val % 8) (n.val / 8)).toBits
  | .free k => mkBlock fun n => finitePattern (Config.freeFdct k a n.val)

/-- `NUM.idct` of a build (spec R174). -/
def numIdct (num : NumSel) (f : Block Word) : Block Word :=
  match num with
  | .ref32 => mkBlock fun n => (ref32IdctAt f (n.val % 8) (n.val / 8)).toBits
  | .free k => mkBlock fun n => finitePattern (Config.freeIdct k f n.val)

/-! ### Commands -/

/-- `a[n] = s[n] - 128*b` (spec R179, R243). -/
def center (b : Bool) (a : Block Int) : Block Int := mapBlock (fun v => v - if b then 128 else 0) a

/-- `rnd(h[n])`, the exact value of each binary32 output rounded to an integer (spec R180, R241). -/
def rndBlock (h : Block Word) : Block Int := mapBlock (fun w => (F32.ofBits w).rndDivBy 1) h

/-- `|TB[n]| ≤ 2^23` and finite: the domain of `NUM.idct` (spec R174, R180). -/
def inIdctDomain (w : Word) : Bool := f32IsFinite w && decide ((F32.ofBits w).mag ≤ 2 ^ 23 * 2 ^ 149)

/-- `FDCT b` (spec R179). -/
def execFdct (b : Bool) (s : State) : Result :=
  let a := center b (mapBlock BitVec.toInt s.sb)
  if a.toList.all (fun v => decide (v.natAbs ≤ 2 ^ 23)) then
    .next ({ s with tb := numFdct s.cfg.num a }.done [])
  else .next (s.abort .badRequest)

/-- `IDCT b` (spec R180): `rnd`, then `+ 128*b`; no clamp. -/
def execIdct (b : Bool) (s : State) : Result :=
  if s.tb.toList.all inIdctDomain then
    let h := rndBlock (numIdct s.cfg.num s.tb)
    .next ({ s with sb := mapBlock (fun v => BitVec.ofInt 32 (v + if b then 128 else 0)) h }.done [])
  else .next (s.abort .badRequest)

end Sys2Proof.Machine
end

