-- ==== Sys2Proof/Machine/Quantizer.lean ====
section
/-! DEFINITION. Quantizer: the two tables (spec R191, R192), `QUANT` and `DEQUANT` (R194, R196). -/

namespace Sys2Proof.Machine

/-- `QL` = `Q_LUMINANCE`, index `8*v + u` (spec R191; from general knowledge, G1; log 16). -/
def tableLum : Block Nat := ⟨#[
  16, 11, 10, 16, 24, 40, 51, 61,
  12, 12, 14, 19, 26, 58, 60, 55,
  14, 13, 16, 24, 40, 57, 69, 56,
  14, 17, 22, 29, 51, 87, 80, 62,
  18, 22, 37, 56, 68, 109, 103, 77,
  24, 35, 55, 64, 81, 104, 113, 92,
  49, 64, 78, 87, 103, 121, 120, 101,
  72, 92, 95, 98, 112, 100, 103, 99], rfl⟩

/-- `QC` = `Q_CHROMINANCE`, index `8*v + u` (spec R192; from general knowledge, G2; log 16). -/
def tableChr : Block Nat := ⟨#[
  17, 18, 24, 47, 99, 99, 99, 99,
  18, 21, 26, 66, 99, 99, 99, 99,
  24, 26, 56, 99, 99, 99, 99, 99,
  47, 66, 99, 99, 99, 99, 99, 99,
  99, 99, 99, 99, 99, 99, 99, 99,
  99, 99, 99, 99, 99, 99, 99, 99,
  99, 99, 99, 99, 99, 99, 99, 99,
  99, 99, 99, 99, 99, 99, 99, 99], rfl⟩

/-- `Q(t)` (spec R192). -/
def tableOf : Table → Block Nat
  | .lum => tableLum
  | .chr => tableChr

/-- `Qof(c)`: the table is chosen by the channel alone, for both frame kinds (spec R197). -/
def tableOfChannel : Ch → Block Nat
  | .y => tableLum
  | .cb => tableChr
  | .cr => tableChr

/-- `sat8(k)` as the signed byte it is (spec R193). -/
def sat8 (k : Int) : Byte := BitVec.ofInt 8 (clamp k (-128) 127)

/-- `quant(F, Q)` (spec R193): saturated `rnd` of the exact quotient. -/
def quant (f : Block Word) (q : Block Nat) : Block Byte :=
  mkBlock fun n => sat8 ((F32.ofBits f[n]).rndDivBy q[n])

/-- `dequant(q, Q)` (spec R195): `float` of the exact product. -/
def dequant (k : Block Byte) (q : Block Nat) : Block Word :=
  mkBlock fun n => (F32.ofInt (k[n].toInt * q[n])).toBits

/-- `QUANT t` (spec R194). -/
def execQuant (t : Table) (s : State) : Result :=
  if s.tb.toList.all f32IsFinite then .next ({ s with qb := quant s.tb (tableOf t) }.done [])
  else .next (s.abort .badRequest)

/-- `DEQUANT t` (spec R196). -/
def execDequant (t : Table) (s : State) : Result :=
  .next ({ s with tb := dequant s.qb (tableOf t) }.done [])

end Sys2Proof.Machine
end

