-- ==== Sys2Proof/Machine/Color.lean ====
section
/-! DEFINITION. ColorTransform: `RGB2YCC` and `YCC2RGB` (spec R120 to R125), in exact millionths (D8). -/

namespace Sys2Proof.Machine

/-- `nY` of spec R121, in millionths. -/
def numY (r g b : Int) : Int := 299000 * r + 587000 * g + 114000 * b + 500000

/-- `nCb` of spec R121, in millionths. -/
def numCb (r g b : Int) : Int := 128000000 - 168736 * r - 331264 * g + 500000 * b + 500000

/-- `nCr` of spec R121, in millionths. -/
def numCr (r g b : Int) : Int := 128000000 + 500000 * r - 418688 * g - 81312 * b + 500000

/-- `rgb2ycc(R, G, B) -> (Y, Cb, Cr)` (spec R121). -/
def rgb2ycc (r g b : Byte) : PerCh Byte where
  y := clampByte (numY r.toNat g.toNat b.toNat / 1000000)
  cb := clampByte (numCb r.toNat g.toNat b.toNat / 1000000)
  cr := clampByte (numCr r.toNat g.toNat b.toNat / 1000000)

/-- `nR` of spec R123, in millionths. -/
def numR (y cr : Int) : Int := 1000000 * y + 1402000 * (cr - 128) + 500000

/-- `nG` of spec R123, in millionths. -/
def numG (y cb cr : Int) : Int := 1000000 * y - 344136 * (cb - 128) - 714136 * (cr - 128) + 500000

/-- `nB` of spec R123, in millionths. -/
def numB (y cb : Int) : Int := 1000000 * y + 1772000 * (cb - 128) + 500000

/-- `ycc2rgb(Y, Cb, Cr) -> (R, G, B)` (spec R123). -/
def ycc2rgb (y cb cr : Byte) : Byte × Byte × Byte :=
  (clampByte (numR y.toNat cr.toNat / 1000000),
   clampByte (numG y.toNat cb.toNat cr.toNat / 1000000),
   clampByte (numB y.toNat cb.toNat / 1000000))

/-- The pixel bytes R, G, B, 255 of a sample triple (spec R125, R154). -/
def opaquePixel (y cb cr : Byte) : List Byte :=
  let p := ycc2rgb y cb cr
  [p.1, p.2.1, p.2.2, 255#8]

/-- `RGB2YCC` (spec R122): `PX.A` is ignored, `PX` is not changed. -/
def execRgb2ycc (s : State) : Result :=
  let c := rgb2ycc (pxR s.px) (pxG s.px) (pxB s.px)
  .next ({ s with yc := packYc c.y c.cb c.cr }.done [])

/-- `YCC2RGB` (spec R124): alpha is set to 255, `YC` is not changed. -/
def execYcc2rgb (s : State) : Result :=
  let p := ycc2rgb (ycY s.yc) (ycCb s.yc) (ycCr s.yc)
  .next ({ s with px := packPx p.1 p.2.1 p.2.2 255#8 }.done [])

end Sys2Proof.Machine
end

