-- ==== Sys2Proof/Machine/Sampler.lean ====
section
/-! DEFINITION. PlaneSampler: `LDPIX`, `LDPLN`, `STRGBA`, `STPLN`, `GETBLK` (spec R140 to R162). -/

namespace Sys2Proof.Machine

/-! ### Functions (R141 to R148) -/

/-- `rgb2ycc` of pixel `(x, y)` of an RGBA grid of width `w`: its bytes R, G, B stand at offset `4 * (y * w + x)`
(spec R141, R143). -/
def pixelYcc (g : List Byte) (w x y : Nat) : PerCh Byte :=
  let o := 4 * (y * w + x)
  rgb2ycc (byteAt g o) (byteAt g (o + 1)) (byteAt g (o + 2))

/-- `planes_of_rgba(W, H, G)` (spec R143): chroma takes pixel `(2x, 2y)`. -/
def planesOfRgba (w h : Nat) (g : List Byte) : PerCh Plane where
  y := planeOf w h fun x y => (pixelYcc g w x y).y
  cb := planeOf (w / 2) (h / 2) fun x y => (pixelYcc g w (2 * x) (2 * y)).cb
  cr := planeOf (w / 2) (h / 2) fun x y => (pixelYcc g w (2 * x) (2 * y)).cr

/-- `subsample(S, w, h)` (spec R144): `D(x, y) = S(2x, 2y)`. -/
def subsample (p : Plane) (w h : Nat) : Plane :=
  planeOf (w / 2) (h / 2) fun x y => sampleAt p w (2 * x) (2 * y)

/-- `planes_of_planes` (spec R145, R152): three full-resolution planes back to back, the chroma planes subsampled. -/
def planesOfPlanes (w h : Nat) (b : List Byte) : PerCh Plane where
  y := slice b 0 (w * h)
  cb := subsample (slice b (w * h) (2 * (w * h))) w h
  cr := subsample (slice b (2 * (w * h)) (3 * (w * h))) w h

/-- `expand(C, x, y)` (spec R146): nearest neighbour, clamped to the chroma plane. -/
def expand (p : Plane) (cw ch x y : Nat) : Byte := sampleAt p cw (min (x / 2) (cw - 1)) (min (y / 2) (ch - 1))

/-- The bytes `STRGBA` writes for three planes of a `w × h` frame (spec R141, R154). -/
def rgbaOfPlanes (w h : Nat) (p : PerCh Plane) : List Byte :=
  (planeOf w h fun x y =>
    opaquePixel (sampleAt p.y w x y) (expand p.cb (w / 2) (h / 2) x y) (expand p.cr (w / 2) (h / 2) x y)).flatten

/-- `getblk(P, pw, ph, bx, by)` (spec R147): block entries outside the plane are 0. -/
def getblk (p : Nat → Nat → Int) (pw ph bx bY : Nat) : Block Int :=
  mkBlock fun n =>
    let x := 8 * bx + n.val % 8
    let y := 8 * bY + n.val / 8
    if x < pw ∧ y < ph then p x y else 0

/-! ### Commands -/

/-- `LDPIX` (spec R150). -/
def execLdpix (s : State) : Result :=
  if ¬ s.dimsOK then .next (s.abort .badRequest)
  else if ¬ s.inFits then .next (s.abort .badRequest)
  else if s.inLen.toNat ≠ 4 * s.W * s.H then .next (s.abort .badRequest)
  else
    .next ({ s with cur := planesOfRgba s.W s.H s.input, fstage := .raw, fkind := .key }.done [])

/-- `LDPLN` (spec R152). -/
def execLdpln (s : State) : Result :=
  if ¬ s.dimsOK then .next (s.abort .badRequest)
  else if ¬ s.inFits then .next (s.abort .badRequest)
  else if s.inLen.toNat ≠ 3 * (s.W * s.H) then .next (s.abort .badRequest)
  else
    .next ({ s with cur := planesOfPlanes s.W s.H s.input, fstage := .raw, fkind := .key }.done [])

/-- `STRGBA ps` (spec R154); `PS` = 3 is no legal value (R94). -/
def execStrgba (ps : PlaneSet) (s : State) : Result :=
  if ps = .res then .next (s.abort .illegalCommand)
  else
    match s.planeSetError ps (fun _ => true) with
    | some e => .next (s.abort e)
    | none =>
      if s.cfg.outCap < 4 * s.W * s.H then .next (s.abort .overflow)
      else .next (s.done (rgbaOfPlanes s.W s.H (s.planesOf ps)))

/-- `STPLN ps` (spec R156): the planes at their own resolutions; `PS` = 3 is no legal value (R94). -/
def execStpln (ps : PlaneSet) (s : State) : Result :=
  if ps = .res then .next (s.abort .illegalCommand)
  else
    match s.planeSetError ps (fun _ => true) with
    | some e => .next (s.abort e)
    | none =>
      if s.cfg.outCap < s.W * s.H + 2 * (s.W / 2 * (s.H / 2)) then .next (s.abort .overflow)
      else .next (s.done ((s.planesOf ps).y ++ (s.planesOf ps).cb ++ (s.planesOf ps).cr))

/-- `GETBLK ps, ch` (spec R160): block column `ARG0`, block row `ARG1`. -/
def execGetblk (ps : PlaneSet) (ch : Ch) (s : State) : Result :=
  match s.planeSetError ps (fun c => c = ch) with
  | some e => .next (s.abort e)
  | none =>
    let pw := planeW s.W ch
    let ph := planeH s.H ch
    if ceil8 pw ≤ s.arg0.toNat ∨ ceil8 ph ≤ s.arg1.toNat then .next (s.abort .badRequest)
    else
      let b := getblk (s.planeInt ps ch) pw ph s.arg0.toNat s.arg1.toNat
      .next ({ s with sb := mapBlock (BitVec.ofInt 32) b }.done [])

end Sys2Proof.Machine
end

