-- ==== Sys2Proof/Machine/Zigzag.lean ====
section
/-! DEFINITION. ZigzagCodec: the permutation (spec R211), `ZZ` and `UNZZ` (R212, R213). -/

namespace Sys2Proof.Machine

/-- `ZZ[k]`: the linear index of the coefficient at zigzag position `k` (spec R211; from general knowledge, G3;
log 16). -/
def zigzagIndex : Block (Fin 64) := ⟨#[
  0, 1, 8, 16, 9, 2, 3, 10, 17, 24, 32, 25, 18, 11, 4, 5,
  12, 19, 26, 33, 40, 48, 41, 34, 27, 20, 13, 6, 7, 14, 21, 28,
  35, 42, 49, 56, 57, 50, 43, 36, 29, 22, 15, 23, 30, 37, 44, 51,
  58, 59, 52, 45, 38, 31, 39, 46, 53, 60, 61, 54, 47, 55, 62, 63], rfl⟩

/-- The same table as a map from linear index `8*v + u` to position (spec R211, second listing). -/
def zigzagPosition : Block (Fin 64) := ⟨#[
  0, 1, 5, 6, 14, 15, 27, 28,
  2, 4, 7, 13, 16, 26, 29, 42,
  3, 8, 12, 17, 25, 30, 41, 43,
  9, 11, 18, 24, 31, 40, 44, 53,
  10, 19, 23, 32, 39, 45, 52, 54,
  20, 22, 33, 38, 46, 51, 55, 60,
  21, 34, 37, 47, 50, 56, 59, 61,
  35, 36, 48, 49, 57, 58, 62, 63], rfl⟩

/-- `toZigzag(q)[k] = u8of(q[ZZ[k]])` (spec R214); a signed byte and its wire byte are the same eight bits. -/
def toZigzag (q : Block Byte) : Block Byte := mkBlock fun k => q[zigzagIndex[k]]

/-- `fromZigzag(z)[ZZ[k]] = sext_8(z[k])` (spec R214). -/
def fromZigzag (z : Block Byte) : Block Byte := mkBlock fun n => z[zigzagPosition[n]]

/-- `ZZ` (spec R212). -/
def execZz (s : State) : Result := .next ({ s with zb := toZigzag s.qb }.done [])

/-- `UNZZ` (spec R213). -/
def execUnzz (s : State) : Result := .next ({ s with qb := fromZigzag s.zb }.done [])

end Sys2Proof.Machine
end

