-- ==== Sys2Proof/Machine/PlaneCodec.lean ====
section
/-! DEFINITION. The plane coding functions key and predicted frames share (spec R240 to R243, R242). -/

namespace Sys2Proof.Machine

/-- One block encoded: centre, `NUM.fdct`, quantise, zigzag (spec R240; the pseudo-command `BLKENC`). -/
def encBlock (num : NumSel) (q : Block Nat) (b : Bool) (s : Block Int) : Block Byte :=
  toZigzag (quant (numFdct num (center b s)) q)

/-- One block decoded: de-zigzag, dequantise, `NUM.idct`, `rnd`; no bias (spec R241; `BLKDEC` with `B` = 0). -/
def decBlock (num : NumSel) (q : Block Nat) (z : Block Byte) : Block Int :=
  rndBlock (numIdct num (dequant (fromZigzag z) q))

/-- `enc_plane(P, pw, ph, Q, b)`: every block in raster order, 64 bytes each (spec R149, R240). -/
def encPlane (num : NumSel) (p : Nat → Nat → Int) (pw ph : Nat) (q : Block Nat) (b : Bool) : List Byte :=
  (List.range (ceil8 ph)).flatMap fun bY =>
    (List.range (ceil8 pw)).flatMap fun bx => (encBlock num q b (getblk p pw ph bx bY)).toList

/-- The `k`-th 64 bytes of a coefficient region as a block (spec R241). -/
def blockOfBytes (z : List Byte) (k : Nat) : Block Byte := mkBlock fun n => byteAt z (64 * k + n.val)

/-- `putblk` of every block at its raster position, cropped to the plane: sample `(x, y)` comes from entry
`(x mod 8, y mod 8)` of block `(x div 8, y div 8)` (spec R148, R149, R241). -/
def assemble (blocks : List (Block Int)) (pw ph : Nat) : List Int :=
  planeOf pw ph fun x y =>
    blockAt (blocks.getD (y / 8 * ceil8 pw + x / 8) (Vector.replicate 64 0)) (8 * (y % 8) + x % 8) 0

/-- `dec_plane(z, pw, ph, Q)`: integers, no bias, no clamp (spec R241). -/
def decPlane (num : NumSel) (z : List Byte) (pw ph : Nat) (q : Block Nat) : List Int :=
  assemble ((List.range (blockCount pw ph)).map fun k => decBlock num q (blockOfBytes z k)) pw ph

/-- `coef_of(PY, PCb, PCr, b)` of a `w × h` frame: all Y blocks, then Cb, then Cr (spec R242). -/
def coefOf (num : NumSel) (w h : Nat) (p : Ch → Nat → Nat → Int) (b : Bool) : List Byte :=
  encPlane num (p .y) (planeW w .y) (planeH h .y) (tableOfChannel .y) b ++
    encPlane num (p .cb) (planeW w .cb) (planeH h .cb) (tableOfChannel .cb) b ++
    encPlane num (p .cr) (planeW w .cr) (planeH h .cr) (tableOfChannel .cr) b

/-- The part of a coefficient region that holds channel `c` (spec R242). -/
def coefPart (w h : Nat) (z : List Byte) : Ch → List Byte
  | .y => slice z 0 (64 * nY w h)
  | .cb => slice z (64 * nY w h) (64 * (nY w h + nC w h))
  | .cr => slice z (64 * (nY w h + nC w h)) (lenCoef w h)

/-- `planes_of_coef(z)` (spec R242). -/
def planesOfCoef (num : NumSel) (w h : Nat) (z : List Byte) : PerCh (List Int) :=
  PerCh.of fun c => decPlane num (coefPart w h z c) (planeW w c) (planeH h c) (tableOfChannel c)

/-- `restore_key(D)`: `clamp(D + 128, 0, 255)` of every sample (spec R248). -/
def restoreKey (d : List Int) : Plane := d.map fun v => clampByte (v + 128)

/-- The reference planes of a key frame with coefficient region `z` (spec R250, R254, R344). -/
def keyPlanes (num : NumSel) (w h : Nat) (z : List Byte) : PerCh Plane :=
  PerCh.of fun c => restoreKey ((planesOfCoef num w h z).get c)

end Sys2Proof.Machine
end

