-- ==== Sys2Proof/Machine/Predicted.lean ====
section
/-! DEFINITION. MotionCompensator and ResidualCodec: `MCOMP`, `RESID`, `XFP`, `EMITP`, `DECP` (spec R290 to R312). -/

namespace Sys2Proof.Machine

/-! ### Functions (R290 to R302) -/

/-- The index of the macroblock of channel `c` that sample `(x, y)` lies in (spec R270). -/
def mbIndexAt (c : Ch) (pw x y : Nat) : Nat := y / mbSide c * nmx c pw + x / mbSide c

/-- The vector of macroblock `m`; a field has one for every macroblock (log 10). -/
def vectorAt (mv : List MVec) (m : Nat) : MVec := mv.getD m ⟨0, 0⟩

/-- `predict(Rf, c, mv)`: every sample is the reference sample displaced by the vector of its macroblock (spec R290). -/
def predict (c : Ch) (rf : Plane) (mv : List MVec) (pw ph : Nat) : Plane :=
  planeOf pw ph fun x y =>
    let v := vectorAt mv (mbIndexAt c pw x y)
    sampleZ rf pw (x + v.dx.toInt) (y + v.dy.toInt)

/-- `residual(C, P)`: current minus predicted, sample by sample (spec R291). -/
def residual (cu p : Plane) : ResPlane := List.zipWith (fun a b => (a.toNat : Int) - (b.toNat : Int)) cu p

/-- `vec_bytes(mv)`: dx then dy (spec R292). -/
def vecBytes (mv : List MVec) : List Byte := mv.flatMap fun v => [v.dx, v.dy]

/-- `vecs_of_bytes(b)` (spec R292). -/
def vecsOfBytes : List Byte → List MVec
  | dx :: dy :: rest => ⟨dx, dy⟩ :: vecsOfBytes rest
  | _ => []

/-- `recon_p(P, D)`: predicted plus residual, clamped (spec R302). -/
def reconP (p : Plane) (d : List Int) : Plane := List.zipWith (fun a r => clampByte ((a.toNat : Int) + r)) p d

/-- A predicted-frame payload: coefficients, then the Y, Cb and Cr fields, run-length coded as one (spec R304). -/
def predStream (coef : List Byte) (mv : PerCh (List MVec)) : List Byte :=
  mrleEnc (coef ++ vecBytes mv.y ++ vecBytes mv.cb ++ vecBytes mv.cr)

/-- The three fields in a decoded payload (spec R304, R312). -/
def fieldsOf (w h : Nat) (p : List Byte) : PerCh (List MVec) where
  y := vecsOfBytes (slice p (lenCoef w h) (lenCoef w h + 2 * mY w h))
  cb := vecsOfBytes (slice p (lenCoef w h + 2 * mY w h) (lenCoef w h + 2 * mY w h + 2 * mC w h))
  cr := vecsOfBytes (slice p (lenCoef w h + 2 * mY w h + 2 * mC w h) (lenCoef w h + lenVec w h))

/-- A vector the decoder accepts for a macroblock: inside the radius and admissible (spec R312, C3, D21). -/
abbrev vectorOk (pw ph r : Nat) (b : Macroblock) (v : MVec) : Prop :=
  v.dx.toInt.natAbs ≤ r ∧ v.dy.toInt.natAbs ≤ r ∧ adm pw ph b v.dx.toInt v.dy.toInt

/-- Every vector of a field passes the decoder's check (spec R312). -/
def fieldOk (c : Ch) (pw ph r : Nat) (mv : List MVec) : Bool :=
  (List.range (mbCount c pw ph)).all fun m => decide (vectorOk pw ph r (macroblock c pw ph m) (vectorAt mv m))

/-- The new reference planes from predictions and decoded residuals (spec R302, R306, R312). -/
def reconPlanes (num : NumSel) (w h : Nat) (pred : PerCh Plane) (z : List Byte) : PerCh Plane :=
  PerCh.of fun c => reconP (pred.get c) ((planesOfCoef num w h z).get c)

/-- `DECP` from "p = mrle_dec(...)" on: the new reference planes, or the first check that fails (spec R312, R344). -/
def State.decodePredicted (s : State) (z : List Byte) : Except Err (PerCh Plane) :=
  match mrleDec z with
  | none => .error .truncatedStream
  | some p =>
    let lc := lenCoef s.W s.H
    if p.length < lc + lenVec s.W s.H then .error .truncatedStream
    else if lc + lenVec s.W s.H < p.length then .error .malformedHeader
    else
      let f := fieldsOf s.W s.H p
      if [Ch.y, Ch.cb, Ch.cr].all fun c => fieldOk c (planeW s.W c) (planeH s.H c) s.R (f.get c) then
        let pr := PerCh.of fun c => predict c (s.ref.get c) (f.get c) (planeW s.W c) (planeH s.H c)
        .ok (reconPlanes s.cfg.num s.W s.H pr (slice p 0 lc))
      else .error .invalidVector

/-! ### Commands -/

/-- `MCOMP ch` (spec R296). -/
def execMcomp (ch : Ch) (s : State) : Result :=
  if ¬ s.refv then .next (s.abort .missingReference)
  else if ¬ s.mvv.get ch then .next (s.abort .badRequest)
  else
    let p := predict ch (s.ref.get ch) (s.mv.get ch) (planeW s.W ch) (planeH s.H ch)
    .next ({ s with pred := s.pred.set ch p, predv := s.predv.set ch true }.done [])

/-- `RESID ch` (spec R298). -/
def execResid (ch : Ch) (s : State) : Result :=
  if s.fstage = .empty then .next (s.abort .badRequest)
  else if ¬ s.predv.get ch then .next (s.abort .badRequest)
  else
    let r := residual (s.cur.get ch) (s.pred.get ch)
    .next ({ s with res := s.res.set ch r, resv := s.resv.set ch true }.done [])

/-- `XFP` (spec R306): estimate, predict, take the residual, code it, and reconstruct `REF` from the coded residual; every
read of `REF` is of the old one. -/
def execXfp (s : State) : Result :=
  if s.fstage ≠ .raw then .next (s.abort .badRequest)
  else if ¬ s.refv then .next (s.abort .missingReference)
  else
    let mv := PerCh.of s.fieldOf
    let pr := PerCh.of fun c => predict c (s.ref.get c) (mv.get c) (planeW s.W c) (planeH s.H c)
    let rs := PerCh.of fun c => residual (s.cur.get c) (pr.get c)
    let z := coefOf s.cfg.num s.W s.H (fun c => resAt (rs.get c) (planeW s.W c)) false
    .next ({ s with
      mv := mv
      pred := pr
      res := rs
      coef := z
      ref := reconPlanes s.cfg.num s.W s.H pr z
      mvv := ⟨true, true, true⟩
      predv := ⟨true, true, true⟩
      resv := ⟨true, true, true⟩
      fstage := .transformed
      fkind := .predicted }.done [])

/-- `EMITP` (spec R308). -/
def execEmitp (s : State) : Result :=
  if ¬ s.fstage.isTransformed then .next (s.abort .precompressState)
  else if s.fkind ≠ .predicted then .next (s.abort .badRequest)
  else
    let z := predStream s.coef s.mv
    if s.cfg.outCap < z.length then .next (s.abort .overflow)
    else .next ({ s with fstage := .serialized }.done z)

/-- `DECP` (spec R312). -/
def execDecp (s : State) : Result :=
  if ¬ s.inFits then .next (s.abort .badRequest)
  else if ¬ s.refv then .next (s.abort .missingReference)
  else
    match s.decodePredicted s.input with
    | .error e => .next (s.abort e)
    | .ok r => .next ({ s with ref := r }.done [])

end Sys2Proof.Machine
end

