-- ==== Sys2Proof/Machine/Still.lean ====
section
/-! DEFINITION. StillFrameCodec: `XFKEY`, `EMITKEY`, `DECKEY` (spec R246 to R254). -/

namespace Sys2Proof.Machine

/-- A still-frame stream: the header outside the run-length code (spec R246, C1). -/
def keyStream (w h : Nat) (coef : List Byte) : List Byte := le32 w ++ le32 h ++ mrleEnc coef

/-- The coefficient bytes of a key frame's payload, or why there are none: an escape cut short, then a length other than
`LC` (spec R254, R344). -/
def keyPayload (w h : Nat) (z : List Byte) : Except Err (List Byte) :=
  match mrleDec z with
  | none => .error .truncatedStream
  | some p => if p.length ≠ lenCoef w h then .error .malformedHeader else .ok p

/-- `XFKEY` (spec R250): code `CUR`, and reconstruct `REF` from the coded coefficients. -/
def execXfkey (s : State) : Result :=
  if s.fstage ≠ .raw then .next (s.abort .badRequest)
  else
    let z := coefOf s.cfg.num s.W s.H (fun c => s.planeInt .cur c) true
    .next ({ s with
      coef := z
      ref := keyPlanes s.cfg.num s.W s.H z
      refv := true
      fstage := .transformed
      fkind := .key }.done [])

/-- `EMITKEY` (spec R252). -/
def execEmitkey (s : State) : Result :=
  if ¬ s.fstage.isTransformed then .next (s.abort .precompressState)
  else if s.fkind ≠ .key then .next (s.abort .badRequest)
  else
    let z := keyStream s.W s.H s.coef
    if s.cfg.outCap < z.length then .next (s.abort .overflow)
    else .next ({ s with fstage := .serialized }.done z)

/-- `DECKEY` (spec R254). -/
def execDeckey (s : State) : Result :=
  if ¬ s.inFits then .next (s.abort .badRequest)
  else if s.inLen.toNat < 8 then .next (s.abort .truncatedStream)
  else
    let z := s.input
    let w := rd32 z 0
    let h := rd32 z 4
    if ¬ legalDims s.cfg w h then .next (s.abort .malformedHeader)
    else
      match keyPayload w h (z.drop 8) with
      | .error e => .next (s.abort e)
      | .ok p =>
        .next ({ s.setDims (BitVec.ofNat 32 w) (BitVec.ofNat 32 h) with
          chopen := false
          ref := keyPlanes s.cfg.num w h p
          refv := true }.done [])

end Sys2Proof.Machine
end

