-- ==== Sys2Proof/Machine/Chain.lean ====
section
/-! DEFINITION. FrameChain and ContainerCodec: `CHRST`, `CHAPP`, `CHEMIT`, `CHOPEN`, `CHNEXT` (spec R333 to R344). -/

namespace Sys2Proof.Machine

/-- The stream `EMITKEY` or `EMITP` would write for the transformed frame (spec R338). -/
def State.frameStream (s : State) : List Byte :=
  match s.fkind with
  | .key => keyStream s.W s.H s.coef
  | .predicted => predStream s.coef s.mv

/-- The size of a container of the given streams (spec R334). -/
def containerSize (chs : List (List Byte)) : Nat := 12 + 4 * chs.length + (chs.map List.length).sum

/-- The container: count, lengths, dimensions, streams (spec R334). -/
def container (chs : List (List Byte)) (w h : Nat) : List Byte :=
  le32 chs.length ++ chs.flatMap (fun z => le32 z.length) ++ le32 w ++ le32 h ++ chs.flatten

/-- The length table of a container of `n` frames (spec R334, R342). -/
def lengthTable (b : List Byte) (n : Nat) : List Nat := (List.range n).map fun i => rd32 b (4 + 4 * i)

/-- What `CHOPEN` reads from a container header (spec R342). -/
structure ContainerHead where
  count : Nat
  lens : List Nat
  w : Nat
  h : Nat
deriving DecidableEq, Repr

/-- The header of the container `b`, or the first check of `CHOPEN` that fails (spec R342, R364). -/
def parseContainer (p : Params) (b : List Byte) : Except Err ContainerHead :=
  if b.length < 4 then .error .truncatedStream
  else
    let n := rd32 b 0
    if n = 0 then .error .malformedHeader
    else if b.length < 12 + 4 * n then .error .truncatedStream
    else if p.chMax < n then .error .overflow
    else
      let l := lengthTable b n
      let w := rd32 b (4 + 4 * n)
      let h := rd32 b (8 + 4 * n)
      let t := 12 + 4 * n + l.sum
      if ¬ legalDims p w h then .error .malformedHeader
      else if b.length < t then .error .truncatedStream
      else if t < b.length then .error .malformedHeader
      else .ok ⟨n, l, w, h⟩

/-- `CHLEN[CHD_IDX]` (spec R344); a chain has a length for every frame (log 10). -/
def State.nextLen (s : State) : Nat := (s.chlen.getD s.chdIdx.toNat 0).toNat

/-- The new reference planes of the chain's next frame, whose stream is `z`, or the first check that fails: frame 0 is a
still-frame stream whose header equals the outer one, a later frame is a predicted payload (spec R335, R344). -/
def State.decodeNext (s : State) (z : List Byte) : Except Err (PerCh Plane) :=
  if s.chdIdx = 0 then
    if z.length < 8 then .error .truncatedStream
    else if rd32 z 0 ≠ s.W ∨ rd32 z 4 ≠ s.H then .error .malformedHeader
    else
      match keyPayload s.W s.H (z.drop 8) with
      | .error e => .error e
      | .ok p => .ok (keyPlanes s.cfg.num s.W s.H p)
  else if ¬ s.refv then .error .missingReference
  else s.decodePredicted z

/-- `CHRST` (spec R336). -/
def execChrst (s : State) : Result :=
  .next ({ s with chs := [], cheCount := 0, cheW := 0, cheH := 0 }.done [])

/-- `CHAPP` (spec R338). -/
def execChapp (s : State) : Result :=
  if ¬ s.fstage.isTransformed then .next (s.abort .precompressState)
  else if s.cheCount = 0 ∧ s.fkind ≠ .key then .next (s.abort .badRequest)
  else if s.cheCount ≠ 0 ∧ s.fkind ≠ .predicted then .next (s.abort .badRequest)
  else if s.cheCount ≠ 0 ∧ (s.frmW ≠ s.cheW ∨ s.frmH ≠ s.cheH) then .next (s.abort .badRequest)
  else if s.cfg.chMax ≤ s.cheCount.toNat then .next (s.abort .overflow)
  else
    let z := s.frameStream
    if 2 ^ 32 - 1 < z.length then .next (s.abort .overflow)
    else
      .next ({ s with
        cheW := if s.cheCount = 0 then s.frmW else s.cheW
        cheH := if s.cheCount = 0 then s.frmH else s.cheH
        chs := s.chs ++ [z]
        cheCount := s.cheCount + 1
        fstage := .serialized }.done [])

/-- `CHEMIT` (spec R340): the store is not emptied. -/
def execChemit (s : State) : Result :=
  if s.cheCount = 0 then .next (s.abort .badRequest)
  else if s.cfg.outCap < containerSize s.chs then .next (s.abort .overflow)
  else .next (s.done (container s.chs s.cheW.toNat s.cheH.toNat))

/-- `CHOPEN` (spec R342). -/
def execChopen (s : State) : Result :=
  if ¬ s.inFits then .next (s.abort .badRequest)
  else
    match parseContainer s.cfg s.input with
    | .error e => .next (s.abort e)
    | .ok c =>
      .next ({ s.setDims (BitVec.ofNat 32 c.w) (BitVec.ofNat 32 c.h) with
        chopen := true
        chdCount := BitVec.ofNat 32 c.count
        chlen := c.lens.map (BitVec.ofNat 32)
        chdIdx := 0
        chdOff := BitVec.ofNat 32 (12 + 4 * c.count) }.done [])

/-- `CHNEXT` (spec R344). -/
def execChnext (s : State) : Result :=
  if ¬ s.chopen then .next (s.abort .badRequest)
  else if ¬ s.inFits then .next (s.abort .badRequest)
  else if s.chdCount.toNat ≤ s.chdIdx.toNat then .next (s.abort .badRequest)
  else if s.inLen.toNat < s.chdOff.toNat + s.nextLen then .next (s.abort .truncatedStream)
  else
    match s.decodeNext (s.inBytes s.chdOff.toNat s.nextLen) with
    | .error e => .next (s.abort e)
    | .ok r =>
      .next ({ s with
        ref := r
        refv := true
        chdIdx := s.chdIdx + 1
        chdOff := BitVec.ofNat 32 (s.chdOff.toNat + s.nextLen) }.done [])

end Sys2Proof.Machine
end

