-- ==== Sys2Proof/Machine/Control.lean ====
section
/-! DEFINITION. `NOP` and `SRST` (spec R403, R404). -/

namespace Sys2Proof.Machine

/-- `NOP` (spec R404): `ERR <- 0; OUT_LEN <- 0`. -/
def execNop (s : State) : Result := .next (s.done [])

/-- `SRST` (spec R403): the reset values of R400; `INBUF` and `OUTBUF` are not changed. -/
def execSrst (s : State) : Result := .next s.warmReset

end Sys2Proof.Machine
end

