-- ==== Sys2Proof/Machine/Dispatch.lean ====
section
/-! DEFINITION. The meaning of a command: one arm per constructor of `Instr`, each one direct call (spec R92). -/

namespace Sys2Proof.Machine

def exec (i : Instr) (s : State) : Host.Outcome State Fault Refusal :=
  match i with
  | .nop => Sys2Proof.Machine.execNop s
  | .srst => Sys2Proof.Machine.execSrst s
  | .rgb2ycc => Sys2Proof.Machine.execRgb2ycc s
  | .ycc2rgb => Sys2Proof.Machine.execYcc2rgb s
  | .ldpix => Sys2Proof.Machine.execLdpix s
  | .ldpln => Sys2Proof.Machine.execLdpln s
  | .strgba ps => Sys2Proof.Machine.execStrgba ps s
  | .stpln ps => Sys2Proof.Machine.execStpln ps s
  | .getblk ps ch => Sys2Proof.Machine.execGetblk ps ch s
  | .fdct b => Sys2Proof.Machine.execFdct b s
  | .idct b => Sys2Proof.Machine.execIdct b s
  | .quant t => Sys2Proof.Machine.execQuant t s
  | .dequant t => Sys2Proof.Machine.execDequant t s
  | .zz => Sys2Proof.Machine.execZz s
  | .unzz => Sys2Proof.Machine.execUnzz s
  | .rleenc => Sys2Proof.Machine.execRleenc s
  | .rledec => Sys2Proof.Machine.execRledec s
  | .xfkey => Sys2Proof.Machine.execXfkey s
  | .emitkey => Sys2Proof.Machine.execEmitkey s
  | .deckey => Sys2Proof.Machine.execDeckey s
  | .mest ch => Sys2Proof.Machine.execMest ch s
  | .mcomp ch => Sys2Proof.Machine.execMcomp ch s
  | .resid ch => Sys2Proof.Machine.execResid ch s
  | .xfp => Sys2Proof.Machine.execXfp s
  | .emitp => Sys2Proof.Machine.execEmitp s
  | .decp => Sys2Proof.Machine.execDecp s
  | .chrst => Sys2Proof.Machine.execChrst s
  | .chapp => Sys2Proof.Machine.execChapp s
  | .chemit => Sys2Proof.Machine.execChemit s
  | .chopen => Sys2Proof.Machine.execChopen s
  | .chnext => Sys2Proof.Machine.execChnext s

end Sys2Proof.Machine
end

