-- ==== Sys2Proof/Machine/HostPort.lean ====
section
/-! DEFINITION. The host port (spec R61): register map (R30), windows (R64), buffers (R62, R63), starting a command
(R31), and pseudo-commands (R97). -/

namespace Sys2Proof.Machine

/-! ### Registers (R30) -/

/-- `HostRead(n)` (spec R30): `CMD` and numbers 16 and up read 0. -/
def State.readReg (s : State) (n : Nat) : Word :=
  match n with
  | 1 => s.statusWord
  | 2 => s.frmW
  | 3 => s.frmH
  | 4 => s.radius.setWidth 32
  | 5 => s.inLen
  | 6 => s.outLen
  | 7 => s.arg0
  | 8 => s.arg1
  | 9 => s.px
  | 10 => s.yc.setWidth 32
  | 11 => s.cheCount
  | 12 => s.chdCount
  | 13 => s.chdIdx
  | 14 => s.chdOff
  | 15 => Config.idValue
  | _ => 0

/-- `HostWrite(n, v)` for every register but `CMD` (spec R30, R34, R35): the read-only registers and numbers 16 and up
ignore it. -/
def State.writeReg (s : State) (n : Nat) (v : Word) : State :=
  match n with
  | 2 => { s.setDims v s.frmH with chopen := false }
  | 3 => { s.setDims s.frmW v with chopen := false }
  | 4 => { s with radius := v.setWidth 7 }
  | 5 => { s with inLen := v }
  | 7 => { s with arg0 := v }
  | 8 => { s with arg1 := v }
  | 9 => { s with px := v }
  | 10 => { s with yc := v.setWidth 24 }
  | _ => s

/-! ### Windows (R64) -/

/-- `WinRead(w, i)` (spec R64): `SB` as a two's-complement word, `TB` as its pattern, `QB` sign-extended, `ZB`
zero-extended; an index of 64 or more reads 0. -/
def State.winRead (s : State) (w : Window) (i : Nat) : Word :=
  match w with
  | .sbw => blockAt s.sb i 0
  | .tbw => blockAt s.tb i 0
  | .qbw => (blockAt s.qb i 0).signExtend 32
  | .zbw => (blockAt s.zb i 0).setWidth 32

/-- `WinWrite(w, i, v)` (spec R64): `QB` and `ZB` keep the low byte; an index of 64 or more is ignored. -/
def State.winWrite (s : State) (w : Window) (i : Nat) (v : Word) : State :=
  match w with
  | .sbw => { s with sb := s.sb.setIfInBounds i v }
  | .tbw => { s with tb := s.tb.setIfInBounds i v }
  | .qbw => { s with qb := s.qb.setIfInBounds i (v.setWidth 8) }
  | .zbw => { s with zb := s.zb.setIfInBounds i (v.setWidth 8) }

/-! ### Buffers (R62, R63) -/

/-- `BufWrite(a, b)`: ignored beyond `IN_CAP` (spec R61, R62). -/
def State.bufWrite (s : State) (a : Nat) (b : Byte) : State :=
  if a < s.cfg.inCap then { s with inbuf := Memory.write s.inbuf a b } else s

/-- `BufReadIn(a)`: 0 beyond `IN_CAP` (spec R61, R62). -/
def State.bufReadIn (s : State) (a : Nat) : Byte := if a < s.cfg.inCap then s.inByte a else 0

/-- `BufRead(a)`: 0 beyond `OUT_CAP` (spec R61, R63). -/
def State.bufRead (s : State) (a : Nat) : Byte := if a < s.cfg.outCap then s.outByte a else 0

/-! ### Commands and host primitives -/

/-- `HostWrite(0, w)`: execute the command `w` encodes; an illegal word aborts with `IllegalCommand` before anything
else is examined (spec R31, R94). -/
def runWord (w : Word) (s : State) : Result :=
  match decode w with
  | .ok i => exec i s
  | .error _ => .next (s.abort .illegalCommand)

/-- One host primitive (spec R61). A read changes nothing but the host's own record of what it returned (R68). -/
def perform (a : HostAction) (s : State) : Result :=
  match a with
  | .regWrite 0 w => runWord w s
  | .regWrite n v => .next (s.writeReg n v)
  | .regRead n => .next { s with seen := s.readReg n :: s.seen }
  | .winWrite w i v => .next (s.winWrite w i v)
  | .winRead w i => .next { s with seen := s.winRead w i :: s.seen }
  | .bufWrite a b => .next (s.bufWrite a b)
  | .bufReadIn a => .next { s with seen := (s.bufReadIn a).setWidth 32 :: s.seen }
  | .bufRead a => .next { s with seen := (s.bufRead a).setWidth 32 :: s.seen }
  | .reset => .next s.warmReset

/-- The next host primitive, performed on the state with it taken off the list; with none pending the engine is idle
(spec R21, R72, R400). -/
def hostStep (s : State) : Result :=
  match s.host with
  | [] => .next s
  | a :: rest => perform a { s with host := rest }

/-- The state in which the host's next primitive is `HostWrite(0, w)`, the word being the low `nbits` bits of `w`. -/
def State.pushWord (s : State) (nbits w : Nat) : State :=
  { s with host := .regWrite 0 (BitVec.ofNat 32 (w % 2 ^ nbits)) :: s.host }

/-- The commands of a list in order, stopping at the first that leaves `ERR` ≠ 0 (spec R97). -/
def runSequence : List Instr → State → Result
  | [], s => .next s
  | i :: rest, s =>
    match exec i s with
    | .next t => if t.err = .ok then runSequence rest t else .next t
    | .fault f => .fault f
    | .refused r => .refused r

/-- A pseudo-command (spec R97). -/
def runPseudo (p : Pseudo) (s : State) : Result := runSequence p.expand s

end Sys2Proof.Machine
end

