-- ==== Sys2Proof/Machine/Step.lean ====
section
/-! DEFINITION. One step of the core: one host primitive (spec R61, R72, R75). -/

namespace Sys2Proof.Machine

/-- One step: the host's next primitive, to completion; idle when the host has none pending. -/
def step (s : State) : Host.Outcome State Fault Refusal := hostStep s

/-- `s` with the host about to write the command word `w` to `CMD`: where this machine takes its next instruction from
(spec R31; log 1). -/
def State.withFetchWord (s : State) (nbits w : Nat) : State := s.pushWord nbits w

end Sys2Proof.Machine
end

