-- ==== Sys2Proof/Safety.lean ====
section
/-! DEFINITION. The terms claims use: the checks of every command in the order of spec R364, the invariant of the state,
the mathematics the numerics are measured against (R10, R13, R170, R171, R175). -/

namespace Sys2Proof.Machine

/-! ### The checks of every command, in order (R364) -/

/-- The decoder's checks of a predicted payload, from "p = mrle_dec(...)" on (spec R312, R364): an escape cut short, too
few bytes, too many bytes, a vector outside the radius or the plane. -/
def predictedChecks (s : State) (z : List Byte) : List (Bool × Err) :=
  let p := (mrleDec z).getD []
  let n := lenCoef s.W s.H + lenVec s.W s.H
  [((mrleDec z).isNone, .truncatedStream),
   (decide (p.length < n), .truncatedStream),
   (decide (n < p.length), .malformedHeader),
   (decide (∃ c ∈ [Ch.y, Ch.cb, Ch.cr], ∃ m ∈ List.range (mbCount c (planeW s.W c) (planeH s.H c)),
      ¬ vectorOk (planeW s.W c) (planeH s.H c) s.R (macroblock c (planeW s.W c) (planeH s.H c) m)
        (vectorAt ((fieldsOf s.W s.H p).get c) m)), .invalidVector)]

/-- The decoder's checks of a still-frame payload for a `w × h` frame (spec R254, R364). -/
def keyChecks (w h : Nat) (z : List Byte) : List (Bool × Err) :=
  [((mrleDec z).isNone, .truncatedStream),
   (decide (((mrleDec z).getD []).length ≠ lenCoef w h), .malformedHeader)]

/-- `PSValid(ps, need)` as a check (spec R158). -/
def planeSetCheck (s : State) (ps : PlaneSet) (need : List Ch) : Bool × Err :=
  match ps with
  | .cur => (decide (s.fstage = .empty), .badRequest)
  | .ref => (! s.refv, .missingReference)
  | .pred => (need.any fun c => ! s.predv.get c, .badRequest)
  | .res => (need.any fun c => ! s.resv.get c, .badRequest)

/-- The row of a command in the table of spec R364: each check and the error it raises, in order. `(true, e)` says the
check fails. -/
def commandChecks (i : Instr) (s : State) : List (Bool × Err) :=
  let inTooLong : Bool × Err := (decide (s.cfg.inCap < s.inLen.toNat), .badRequest)
  match i with
  | .nop | .srst | .rgb2ycc | .ycc2rgb | .dequant _ | .zz | .unzz | .chrst => []
  | .ldpix =>
    [(decide (¬ s.dimsOK), .badRequest), inTooLong, (decide (s.inLen.toNat ≠ 4 * s.W * s.H), .badRequest)]
  | .ldpln =>
    [(decide (¬ s.dimsOK), .badRequest), inTooLong, (decide (s.inLen.toNat ≠ 3 * s.W * s.H), .badRequest)]
  | .strgba ps => [planeSetCheck s ps [.y, .cb, .cr], (decide (s.cfg.outCap < 4 * s.W * s.H), .overflow)]
  | .stpln ps =>
    [planeSetCheck s ps [.y, .cb, .cr],
     (decide (s.cfg.outCap < s.W * s.H + 2 * (s.W / 2) * (s.H / 2)), .overflow)]
  | .getblk ps ch =>
    [planeSetCheck s ps [ch],
     (decide (ceil8 (planeW s.W ch) ≤ s.arg0.toNat ∨ ceil8 (planeH s.H ch) ≤ s.arg1.toNat), .badRequest)]
  | .fdct b => [(decide (∃ n : Fin 64, 2 ^ 23 < (s.sb[n].toInt - if b then 128 else 0).natAbs), .badRequest)]
  | .idct _ =>
    [(decide (∃ n : Fin 64, f32IsFinite s.tb[n] = false ∨ 2 ^ 23 * 2 ^ 149 < (F32.ofBits s.tb[n]).mag), .badRequest)]
  | .quant _ => [(decide (∃ n : Fin 64, f32IsFinite s.tb[n] = false), .badRequest)]
  | .rleenc => [inTooLong, (decide (s.cfg.outCap < (mrleEnc s.input).length), .overflow)]
  | .rledec =>
    [inTooLong, ((mrleDec s.input).isNone, .truncatedStream),
     (decide (s.cfg.outCap < ((mrleDec s.input).getD []).length), .overflow)]
  | .xfkey => [(decide (s.fstage ≠ .raw), .badRequest)]
  | .emitkey =>
    [(! s.fstage.isTransformed, .precompressState), (decide (s.fkind ≠ .key), .badRequest),
     (decide (s.cfg.outCap < (keyStream s.W s.H s.coef).length), .overflow)]
  | .deckey =>
    [inTooLong, (decide (s.inLen.toNat < 8), .truncatedStream),
     (decide (¬ legalDims s.cfg (rd32 s.input 0) (rd32 s.input 4)), .malformedHeader)] ++
      keyChecks (rd32 s.input 0) (rd32 s.input 4) (s.input.drop 8)
  | .mest _ => [(decide (s.fstage ≠ .raw), .badRequest), (! s.refv, .missingReference)]
  | .mcomp ch => [(! s.refv, .missingReference), (! s.mvv.get ch, .badRequest)]
  | .resid ch => [(decide (s.fstage = .empty), .badRequest), (! s.predv.get ch, .badRequest)]
  | .xfp => [(decide (s.fstage ≠ .raw), .badRequest), (! s.refv, .missingReference)]
  | .emitp =>
    [(! s.fstage.isTransformed, .precompressState), (decide (s.fkind ≠ .predicted), .badRequest),
     (decide (s.cfg.outCap < (predStream s.coef s.mv).length), .overflow)]
  | .decp => [inTooLong, (! s.refv, .missingReference)] ++ predictedChecks s s.input
  | .chapp =>
    [(! s.fstage.isTransformed, .precompressState),
     (decide (s.cheCount = 0 ∧ s.fkind ≠ .key ∨ s.cheCount ≠ 0 ∧ s.fkind ≠ .predicted), .badRequest),
     (decide (s.cheCount ≠ 0 ∧ (s.frmW ≠ s.cheW ∨ s.frmH ≠ s.cheH)), .badRequest),
     (decide (s.cfg.chMax ≤ s.cheCount.toNat), .overflow),
     (decide (2 ^ 32 ≤ s.frameStream.length), .overflow)]
  | .chemit =>
    [(decide (s.cheCount = 0), .badRequest), (decide (s.cfg.outCap < containerSize s.chs), .overflow)]
  | .chopen =>
    let n := rd32 s.input 0
    let t := 12 + 4 * n + (lengthTable s.input n).sum
    [inTooLong, (decide (s.inLen.toNat < 4), .truncatedStream), (decide (n = 0), .malformedHeader),
     (decide (s.inLen.toNat < 12 + 4 * n), .truncatedStream), (decide (s.cfg.chMax < n), .overflow),
     (decide (¬ legalDims s.cfg (rd32 s.input (4 + 4 * n)) (rd32 s.input (8 + 4 * n))), .malformedHeader),
     (decide (s.inLen.toNat < t), .truncatedStream), (decide (t < s.inLen.toNat), .malformedHeader)]
  | .chnext =>
    let z := s.inBytes s.chdOff.toNat s.nextLen
    [(! s.chopen, .badRequest), inTooLong, (decide (s.chdCount.toNat ≤ s.chdIdx.toNat), .badRequest),
     (decide (s.inLen.toNat < s.chdOff.toNat + s.nextLen), .truncatedStream)] ++
      if s.chdIdx = 0 then
        [(decide (s.nextLen < 8), .truncatedStream),
         (decide (rd32 z 0 ≠ s.W ∨ rd32 z 4 ≠ s.H), .malformedHeader)] ++ keyChecks s.W s.H (z.drop 8)
      else (! s.refv, .missingReference) :: predictedChecks s z

/-- The error of the first check of a list that fails, if any (spec R364). -/
def firstFailure (l : List (Bool × Err)) : Option Err := (l.find? fun c => c.1).map fun c => c.2

/-! ### What a command may read and has written -/

/-- `PSValid(ps, need)` holds (spec R158). -/
def PlaneSetValid (s : State) (ps : PlaneSet) (need : List Ch) : Prop :=
  match ps with
  | .cur => s.fstage ≠ .empty
  | .ref => s.refv = true
  | .pred => ∀ c ∈ need, s.predv.get c = true
  | .res => ∀ c ∈ need, s.resv.get c = true

/-- The host finds exactly `out` in `OUTBUF[0 .. OUT_LEN)` (spec R37, R63). -/
def Wrote (t : State) (out : List Byte) : Prop :=
  t.outLen.toNat = out.length ∧ ∀ a < out.length, out[a]? = some (t.outByte a)

/-- The operand `INBUF[0 .. IN_LEN)` of `d` is the output of `t`: what a host does that copies `OUTBUF[0 .. OUT_LEN)` to
`INBUF` and `OUT_LEN` to `IN_LEN` (spec R407). -/
def FedWith (d t : State) : Prop :=
  d.inLen = t.outLen ∧ d.inLen.toNat ≤ d.cfg.inCap ∧ ∀ a < t.outLen.toNat, d.inByte a = t.outByte a

/-- `base(c)`: how many blocks of a coefficient region stand before those of channel `c` (spec R242). -/
def blockBase (w h : Nat) : Ch → Nat
  | .y => 0
  | .cb => nY w h
  | .cr => nY w h + nC w h

/-- Sample `(x, y)` of channel `c` in the planes a coefficient region `z` of a `w × h` frame decodes to: entry
`8*(y mod 8) + x mod 8` of its decoded block, the block at raster position `(x div 8, y div 8)` of the channel (spec
R148, R241, R242). -/
def decodedAt (num : NumSel) (w h : Nat) (z : List Byte) (c : Ch) (x y : Nat) : Int :=
  blockAt (decBlock num (tableOfChannel c)
    (blockOfBytes z (blockBase w h c + (y / 8 * ceil8 (planeW w c) + x / 8)))) (8 * (y % 8) + x % 8) 0

/-- Where the vectors of a channel stand in the vector region of a `w × h` frame: Y, then Cb, then Cr (spec R304). -/
def vectorBase (w h : Nat) : Ch → Nat
  | .y => 0
  | .cb => 2 * mY w h
  | .cr => 2 * mY w h + 2 * mC w h

/-- Vector `m` of channel `c` in a decoded payload: two bytes, dx then dy (spec R292, R304). -/
def payloadVector (w h : Nat) (p : List Byte) (c : Ch) (m : Nat) : MVec :=
  ⟨byteAt p (lenCoef w h + vectorBase w h c + 2 * m), byteAt p (lenCoef w h + vectorBase w h c + 2 * m + 1)⟩

/-- The state with every store whose validity condition is false made empty: what a command may depend on (spec R51,
U2). -/
def State.hideInvalid (s : State) : State :=
  { s with
    cur := if s.fstage = .empty then ⟨[], [], []⟩ else s.cur
    ref := if s.refv then s.ref else ⟨[], [], []⟩
    pred := PerCh.of fun c => if s.predv.get c then s.pred.get c else []
    res := PerCh.of fun c => if s.resv.get c then s.res.get c else []
    mv := PerCh.of fun c => if s.mvv.get c then s.mv.get c else []
    coef := if s.fstage.isTransformed then s.coef else [] }

/-! ### The invariant -/

/-- Every plane of a set has the size of its channel in a `w × h` frame (spec R142). -/
def PlanesFit {α : Type} (w h : Nat) (p : PerCh (List α)) : Prop :=
  ∀ c : Ch, (p.get c).length = planeW w c * planeH h c

/-- A vector field of channel `c` has one vector a macroblock, each admissible (spec R42, R296). -/
def FieldFits (w h : Nat) (c : Ch) (mv : List MVec) : Prop :=
  mv.length = mbCount c (planeW w c) (planeH h c) ∧
    ∀ m < mv.length, adm (planeW w c) (planeH h c) (macroblock c (planeW w c) (planeH h c) m)
      (vectorAt mv m).dx.toInt (vectorAt mv m).dy.toInt

/-- What every reachable state satisfies: the validity bits mean what spec R36 to R45 say they mean. -/
structure State.Inv (s : State) : Prop where
  /-- The build is one R8 allows. -/
  cfgLegal : s.cfg.Legal
  /-- `INBUF` is in canonical form and below `IN_CAP` (R62). -/
  inbufOk : s.inbuf.wf = true ∧ s.inbuf.below s.cfg.inCap = true
  /-- `OUTBUF` is in canonical form and below `OUT_CAP` (R63). -/
  outbufOk : s.outbuf.wf = true ∧ s.outbuf.below s.cfg.outCap = true
  /-- Every byte below `OUT_LEN` is one the last command wrote (R37, R416). -/
  outLenOk : ∀ a < s.outLen.toNat, (s.outbuf.read a).isSome = true
  /-- An error recorded in `ERR` is recorded in `FIRSTERR` too, first or not (R47). -/
  firstErrOk : s.err ≠ .ok → s.firstErr ≠ .ok
  /-- `CUR` is valid exactly when `FSTAGE` is not Empty, and then the dimensions are legal (R39, R158). -/
  curOk : s.fstage ≠ .empty → s.dimsOK ∧ PlanesFit s.W s.H s.cur
  /-- `COEF` is valid exactly when `FSTAGE` ≥ Transformed (R43). -/
  coefOk : s.fstage.isTransformed = true → s.coef.length = lenCoef s.W s.H
  /-- `FKIND` is 1 only for a transformed predicted frame, whose three fields are valid (R32, R308). -/
  kindOk : s.fkind = .predicted → s.fstage.isTransformed = true ∧ ∀ c : Ch, s.mvv.get c = true
  /-- `REF` when `REFV` = 1 (R38, R158). -/
  refOk : s.refv = true → s.dimsOK ∧ PlanesFit s.W s.H s.ref
  /-- `MV.c` when `MVV[c]` = 1: made against a reference, admissible (R42, R296). -/
  mvOk : ∀ c : Ch, s.mvv.get c = true → s.refv = true ∧ FieldFits s.W s.H c (s.mv.get c)
  /-- `PRED` plane c when `PREDV[c]` = 1 (R40). -/
  predOk : ∀ c : Ch, s.predv.get c = true →
    s.refv = true ∧ (s.pred.get c).length = planeW s.W c * planeH s.H c
  /-- `RES` plane c when `RESV[c]` = 1: integers in -255..255 (R41). -/
  resOk : ∀ c : Ch, s.resv.get c = true →
    s.predv.get c = true ∧ (s.res.get c).length = planeW s.W c * planeH s.H c ∧
      ∀ v ∈ s.res.get c, -255 ≤ v ∧ v ≤ 255
  /-- `CHE_COUNT` = `|CHS|` ≤ `CH_MAX`, and every stream fits a 32-bit length (R44, R338). -/
  chsOk : s.cheCount.toNat = s.chs.length ∧ s.chs.length ≤ s.cfg.chMax ∧ ∀ z ∈ s.chs, z.length < 2 ^ 32
  /-- The dimensions recorded at the first append are legal (R44). -/
  cheOk : s.cheCount ≠ 0 → legalDims s.cfg s.cheW.toNat s.cheH.toNat
  /-- `CHLEN` has `CHD_COUNT` lengths and `CHD_IDX` is in 0..`CHD_COUNT` (R45). -/
  chdOk : s.chlen.length = s.chdCount.toNat ∧ s.chdIdx.toNat ≤ s.chdCount.toNat
  /-- While a chain is open: legal dimensions, at least one frame, `CHD_OFF` is where frame `CHD_IDX` starts, and a
  reference exists once frame 0 is decoded (R45, R342, R344). -/
  openOk : s.chopen = true → s.dimsOK ∧ 1 ≤ s.chdCount.toNat ∧ s.chdCount.toNat ≤ s.cfg.chMax ∧
    12 + 4 * s.chdCount.toNat + (s.chlen.map BitVec.toNat).sum < 2 ^ 32 ∧
    s.chdOff.toNat = 12 + 4 * s.chdCount.toNat + ((s.chlen.take s.chdIdx.toNat).map BitVec.toNat).sum ∧
    (s.chdIdx ≠ 0 → s.refv = true)

/-! ### The mathematics -/

/-- `rnd(q)` of spec R10, on a rational. -/
def rndRat (q : Rat) : Int := if 0 ≤ q then ⌊q + 1 / 2⌋ else -⌊-q + 1 / 2⌋

/-- The rational value of a finite binary32 value (spec R13). -/
def F32.toRat (f : F32) : Rat := (f.units : Rat) / 2 ^ 149

/-- The rational value of a finite pattern (spec R13). -/
def patternRat (w : Word) : Rat := (F32.ofBits w).toRat

/-- A magnitude in units of 2^-149 that binary32 can hold, of any exponent: at most 24 significant bits (spec R13). -/
def RepresentableMag (m : Nat) : Prop := ∃ f e : Nat, f < 2 ^ 24 ∧ m = f * 2 ^ e

/-- `F` is the exact forward transform of `h` (spec R170); index `n = 8*v + u`, `m = 8*y + x`. -/
def IsForwardDct (h F : Fin 64 → ℝ) : Prop :=
  ∀ n : Fin 64, F n =
    (if n.val % 8 = 0 then 1 / Real.sqrt 2 else 1) * (if n.val / 8 = 0 then 1 / Real.sqrt 2 else 1) * (1 / 4) *
      ∑ m : Fin 64, h m * Real.cos ((n.val % 8 : ℕ) * Real.pi * (2 * (m.val % 8 : ℕ) + 1) / 16) *
        Real.cos ((n.val / 8 : ℕ) * Real.pi * (2 * (m.val / 8 : ℕ) + 1) / 16)

/-- `h` is the exact inverse transform of `F` (spec R171). -/
def IsInverseDct (F h : Fin 64 → ℝ) : Prop :=
  ∀ m : Fin 64, h m =
    (1 / 4) * ∑ n : Fin 64,
      (if n.val % 8 = 0 then 1 / Real.sqrt 2 else 1) * (if n.val / 8 = 0 then 1 / Real.sqrt 2 else 1) * F n *
        Real.cos ((n.val % 8 : ℕ) * Real.pi * (2 * (m.val % 8 : ℕ) + 1) / 16) *
        Real.cos ((n.val / 8 : ℕ) * Real.pi * (2 * (m.val / 8 : ℕ) + 1) / 16)

/-- `ACC` of spec R175 at one operand of `NUM.fdct`. -/
def FdctAcc (num : NumSel) (a : Block Int) : Prop :=
  ∀ F : Fin 64 → ℝ, IsForwardDct (fun m => (a[m] : ℝ)) F →
    ∀ n : Fin 64, |((patternRat (numFdct num a)[n] : ℚ) : ℝ) - F n| ≤ 1 / 2 ^ 18 * ∑ m : Fin 64, |(a[m] : ℝ)|

/-- `ACC` of spec R175 at one operand of `NUM.idct`. -/
def IdctAcc (num : NumSel) (f : Block Word) : Prop :=
  ∀ h : Fin 64 → ℝ, IsInverseDct (fun m => ((patternRat f[m] : ℚ) : ℝ)) h →
    ∀ n : Fin 64, |((patternRat (numIdct num f)[n] : ℚ) : ℝ) - h n| ≤
      1 / 2 ^ 18 * ∑ m : Fin 64, |((patternRat f[m] : ℚ) : ℝ)|

/-- The named property `ACC` of numerics (spec R175): its bound at every operand of the domain (R174). The model assumes
it nowhere; a statement that needs it names it, at the operands it needs (log 19). -/
def Acc (num : NumSel) : Prop :=
  (∀ a : Block Int, (∀ n : Fin 64, a[n].natAbs ≤ 2 ^ 23) → FdctAcc num a) ∧
    ∀ f : Block Word, (∀ n : Fin 64, inIdctDomain f[n] = true) → IdctAcc num f

end Sys2Proof.Machine
end

