-- ==== Sys2Proof/Certificates/Slice0/Obligations.lean ====
section
/-! DEFINITION. The statements for the provers. In a statement about a command, `t = { s with … }` says that every field
not named is unchanged; a field written as `f := t.f` is described in the lines after it. `OUTBUF` beyond the output
of the last command holds no specified byte (spec R51, R63, U1; log 8), so `outbuf` and `outGen` stand in that list
for every command, and what the host reads below `OUT_LEN` is said with `Wrote`. -/

open Sys2Proof Sys2Proof.Machine

/-! ### Encoding and host port -/

/-- Every 32-bit word is the word of exactly the command the decoder reads, or of none (R92 to R94, R99). -/
def Obligations.DecodeIffEncode : Prop :=
  ∀ (w : Word) (i : Instr), decode w = .ok i ↔ i.WellFormed ∧ encode i = w

/-- The worked words of R98 and of 95_test_vectors.md. -/
def Obligations.SampleCommandWords : Prop :=
  decode 0x00001124#32 = .ok (.getblk .ref .cb) ∧ decode 0x00000430#32 = .ok (.fdct true) ∧
    decode 0x00000840#32 = .ok (.quant .chr) ∧ decode 0x00000280#32 = .ok (.mest .cr) ∧
    decode 0x00001022#32 = .ok (.strgba .ref) ∧ decode 0x00001023#32 = .ok (.stpln .ref) ∧
    decode 0x00003024#32 = .ok (.getblk .res .y) ∧ decode 0x000000A4#32 = .ok .chnext

/-- A host write of a word to `CMD` executes the command it encodes, before the host's next action; `CMD` holds no value
(R31). A step performs the host's next action, whichever it is, on the state with it taken off the list (R61, R72), and
changes nothing when there is none (R400). That the host's actions stand in a list, and `withFetchWord`, which puts such a
write in front of it, are the model's own choice (log 1). -/
def Obligations.StepRunsCommand : Prop :=
  (∀ (s : State) (w : Word) (i : Instr) (rest : List HostAction),
    s.host = .regWrite 0 w :: rest → decode w = .ok i → step s = exec i { s with host := rest }) ∧
  (∀ (s : State) (w : Word) (i : Instr), decode w = .ok i → step (s.withFetchWord 32 w.toNat) = exec i s) ∧
  (∀ (s : State) (a : HostAction) (rest : List HostAction),
    s.host = a :: rest → step s = perform a { s with host := rest }) ∧
  (∀ s : State, s.host = [] → step s = .next s) ∧
  ∀ s : State, s.readReg 0 = 0

/-- What each register reads as and what a write to it does (R30, R34, R35, R48); a read changes nothing (R68) but the
model's record `seen` of what the host has read (log 2). That `SetDims` keeps the contents of the stores it makes
invalid is the model's own choice (log 9): the spec leaves them any value (U2). -/
def Obligations.HostRegisters : Prop :=
  ∀ s : State,
    ((∀ n : Nat, perform (.regRead n) s = .next { s with seen := s.readReg n :: s.seen }) ∧
      [s.readReg 0, s.readReg 1, s.readReg 2, s.readReg 3, s.readReg 5, s.readReg 6, s.readReg 7, s.readReg 8] =
        [0, s.statusWord, s.frmW, s.frmH, s.inLen, s.outLen, s.arg0, s.arg1] ∧
      [s.readReg 9, s.readReg 11, s.readReg 12, s.readReg 13, s.readReg 14, s.readReg 15] =
        [s.px, s.cheCount, s.chdCount, s.chdIdx, s.chdOff, 0x4D504301#32] ∧
      (s.readReg 4).toNat = s.radius.toNat ∧ (s.readReg 10).toNat = s.yc.toNat ∧
      ∀ n : Nat, 16 ≤ n → s.readReg n = 0) ∧
    ∀ v : Word,
      perform (.regWrite 2 v) s =
        .next { s with
          frmW := v, fstage := .empty, fkind := .key, refv := false, mvv := ⟨false, false, false⟩
          predv := ⟨false, false, false⟩, resv := ⟨false, false, false⟩, chopen := false } ∧
      perform (.regWrite 3 v) s =
        .next { s with
          frmH := v, fstage := .empty, fkind := .key, refv := false, mvv := ⟨false, false, false⟩
          predv := ⟨false, false, false⟩, resv := ⟨false, false, false⟩, chopen := false } ∧
      perform (.regWrite 4 v) s = .next { s with radius := BitVec.ofNat 7 (v.toNat % 128) } ∧
      perform (.regWrite 5 v) s = .next { s with inLen := v } ∧
      perform (.regWrite 7 v) s = .next { s with arg0 := v } ∧
      perform (.regWrite 8 v) s = .next { s with arg1 := v } ∧
      perform (.regWrite 9 v) s = .next { s with px := v } ∧
      perform (.regWrite 10 v) s = .next { s with yc := BitVec.ofNat 24 (v.toNat % 2 ^ 24) } ∧
      (∀ n ∈ [1, 6, 11, 12, 13, 14, 15], perform (.regWrite n v) s = .next s) ∧
      ∀ n : Nat, 16 ≤ n → perform (.regWrite n v) s = .next s

/-- Where each field stands in `STATUS` (R32), and the numbers of the error codes and stages (R36, R360). -/
def Obligations.StatusFields : Prop :=
  (∀ s : State,
    s.statusWord.toNat =
      s.err.code.toNat + 2 ^ 4 * s.firstErr.code.toNat + 2 ^ 8 * s.fstage.code.toNat + 2 ^ 10 * s.fkind.code.toNat +
        2 ^ 11 * s.refv.toNat + 2 ^ 12 * s.mvv.y.toNat + 2 ^ 13 * s.mvv.cb.toNat + 2 ^ 14 * s.mvv.cr.toNat +
        2 ^ 15 * s.predv.y.toNat + 2 ^ 16 * s.predv.cb.toNat + 2 ^ 17 * s.predv.cr.toNat +
        2 ^ 18 * s.resv.y.toNat + 2 ^ 19 * s.resv.cb.toNat + 2 ^ 20 * s.resv.cr.toNat + 2 ^ 21 * s.chopen.toNat) ∧
  [Err.ok, .malformedHeader, .truncatedStream, .missingReference, .invalidVector, .precompressState, .badRequest,
      .overflow, .illegalCommand].map (fun e => e.code.toNat) = [0, 1, 2, 3, 4, 5, 6, 7, 8] ∧
  [Stage.empty, .raw, .transformed, .serialized].map (fun f => f.code.toNat) = [0, 1, 2, 3] ∧
  [Kind.key, .predicted].map (fun k => k.code.toNat) = [0, 1]

/-- A window entry reads back as what was written to it, `QB` and `ZB` keeping eight bits; `INBUF` reads back what was
written to it; `OUTBUF` reads as the byte a command left there; nothing beyond an index limit or a capacity exists (R61 to
R64). -/
def Obligations.WindowsAndBuffers : Prop :=
  (∀ (s : State) (w : Window) (i : Nat) (v : Word), i < 64 →
    ∃ t, perform (.winWrite w i v) s = .next t ∧
      t = { s with sb := t.sb, tb := t.tb, qb := t.qb, zb := t.zb } ∧
      (t.winRead w i =
        match w with
        | .sbw | .tbw => v
        | .qbw => (v.setWidth 8).signExtend 32
        | .zbw => (v.setWidth 8).setWidth 32) ∧
      ∀ (w' : Window) (j : Nat), w' ≠ w ∨ j ≠ i → t.winRead w' j = s.winRead w' j) ∧
  (∀ (s : State) (w : Window) (i : Nat) (v : Word), 64 ≤ i →
    perform (.winWrite w i v) s = .next s ∧ s.winRead w i = 0) ∧
  (∀ (s : State) (a : Nat) (b : Byte), s.inbuf.wf = true → a < s.cfg.inCap →
    ∃ t, perform (.bufWrite a b) s = .next t ∧ t = { s with inbuf := t.inbuf } ∧ t.inbuf.wf = true ∧
      t.bufReadIn a = b ∧ ∀ a' : Nat, a' ≠ a → t.bufReadIn a' = s.bufReadIn a') ∧
  (∀ (s : State) (a : Nat) (b : Byte), s.cfg.inCap ≤ a →
    perform (.bufWrite a b) s = .next s ∧ s.bufReadIn a = 0) ∧
  ∀ (s : State) (a : Nat),
    (a < s.cfg.outCap → s.bufRead a = s.outByte a) ∧ (s.cfg.outCap ≤ a → s.bufRead a = 0) ∧
    ∀ (w : Window),
      perform (.winRead w a) s = .next { s with seen := s.winRead w a :: s.seen } ∧
      perform (.bufReadIn a) s = .next { s with seen := (s.bufReadIn a).setWidth 32 :: s.seen } ∧
      perform (.bufRead a) s = .next { s with seen := (s.bufRead a).setWidth 32 :: s.seen }

/-- The values hardware reset gives, as a warm reset of any state and as the state after power-on, where the engine
stays idle; the stores and the buffers are not cleared (R400). That the stores, invalid then, keep their very contents is
the model's own choice (log 9). -/
def Obligations.HardwareReset : Prop :=
  (∀ s : State,
    perform .reset s =
      .next { s with
        err := .ok, firstErr := .ok, fstage := .empty, fkind := .key, refv := false, mvv := ⟨false, false, false⟩
        predv := ⟨false, false, false⟩, resv := ⟨false, false, false⟩, chopen := false, frmW := 0, frmH := 0
        inLen := 0, outLen := 0, arg0 := 0, arg1 := 0, px := 0, yc := 0, radius := 8, sb := Vector.replicate 64 0
        qb := Vector.replicate 64 0, zb := Vector.replicate 64 0, tb := Vector.replicate 64 0, chs := []
        cheCount := 0, cheW := 0, cheH := 0, chlen := [], chdCount := 0, chdIdx := 0, chdOff := 0 }) ∧
  perform .reset State.reset = .next State.reset ∧ State.reset.radius = 8 ∧ State.reset.statusWord = 0 ∧
  State.reset.readReg 15 = 0x4D504301#32 ∧ step State.reset = .next State.reset

/-! ### The invariant -/

/-- The invariant holds of the state after power-on. -/
def Obligations.ResetSatisfiesInv : Prop := State.reset.Inv

/-- Every step, whatever the host does, keeps the invariant: the validity bits of `STATUS` mean what R36 to R45 say they
mean, stores have the sizes of the frame, vectors are admissible, buffers are canonical, the chain offsets are
consistent. -/
def Obligations.StepKeepsInv : Prop := ∀ s t : State, s.Inv → step s = .next t → t.Inv

/-! ### What each command does -/

/-- `NOP` writes `ERR` and `OUT_LEN` and nothing else (R404). -/
def Obligations.NopClearsErrAndOutLen : Prop :=
  decode 0x00000000#32 = .ok .nop ∧ ∀ s : State, ∃ t, exec .nop s = .next t ∧
    t = { s with err := .ok, outLen := 0, outbuf := t.outbuf, outGen := t.outGen }

/-- `SRST` gives the reset values; no byte of `INBUF` or `OUTBUF` changes (R403). That the stores, invalid then, keep their
contents is the model's own choice (log 9). -/
def Obligations.SrstResets : Prop :=
  decode 0x00000001#32 = .ok .srst ∧ ∀ s : State, ∃ t, exec .srst s = .next t ∧
    t = { s with
      err := .ok, firstErr := .ok, fstage := .empty, fkind := .key, refv := false, mvv := ⟨false, false, false⟩
      predv := ⟨false, false, false⟩, resv := ⟨false, false, false⟩, chopen := false, frmW := 0, frmH := 0
      inLen := 0, outLen := 0, arg0 := 0, arg1 := 0, px := 0, yc := 0, radius := 8, sb := Vector.replicate 64 0
      qb := Vector.replicate 64 0, zb := Vector.replicate 64 0, tb := Vector.replicate 64 0, chs := []
      cheCount := 0, cheW := 0, cheH := 0, chlen := [], chdCount := 0, chdIdx := 0, chdOff := 0 } ∧
    t.readReg 1 = 0 ∧ t.readReg 4 = 8 ∧ ∀ a : Nat, t.inByte a = s.inByte a ∧ t.outByte a = s.outByte a

/-- `RGB2YCC` (R121, R122), in millionths. -/
def Obligations.Rgb2yccConverts : Prop :=
  decode 0x00000010#32 = .ok .rgb2ycc ∧
  ∀ (s : State) (r g b : Int), r = s.px.toNat % 256 → g = s.px.toNat / 2 ^ 8 % 256 → b = s.px.toNat / 2 ^ 16 % 256 →
    ∃ t, exec .rgb2ycc s = .next t ∧
      t = { s with yc := t.yc, err := .ok, outLen := 0, outbuf := t.outbuf, outGen := t.outGen } ∧
      ((t.yc.toNat % 256 : Nat) : Int) =
        max 0 (min 255 ((299000 * r + 587000 * g + 114000 * b + 500000) / 1000000)) ∧
      ((t.yc.toNat / 2 ^ 8 % 256 : Nat) : Int) =
        max 0 (min 255 ((128000000 - 168736 * r - 331264 * g + 500000 * b + 500000) / 1000000)) ∧
      ((t.yc.toNat / 2 ^ 16 : Nat) : Int) =
        max 0 (min 255 ((128000000 + 500000 * r - 418688 * g - 81312 * b + 500000) / 1000000))

/-- `YCC2RGB` (R123 to R125), in millionths; alpha 255. -/
def Obligations.Ycc2rgbConverts : Prop :=
  decode 0x00000011#32 = .ok .ycc2rgb ∧
  ∀ (s : State) (y cb cr : Int), y = s.yc.toNat % 256 → cb = s.yc.toNat / 2 ^ 8 % 256 → cr = s.yc.toNat / 2 ^ 16 →
    ∃ t, exec .ycc2rgb s = .next t ∧
      t = { s with px := t.px, err := .ok, outLen := 0, outbuf := t.outbuf, outGen := t.outGen } ∧
      ((t.px.toNat % 256 : Nat) : Int) =
        max 0 (min 255 ((1000000 * y + 1402000 * (cr - 128) + 500000) / 1000000)) ∧
      ((t.px.toNat / 2 ^ 8 % 256 : Nat) : Int) =
        max 0 (min 255 ((1000000 * y - 344136 * (cb - 128) - 714136 * (cr - 128) + 500000) / 1000000)) ∧
      ((t.px.toNat / 2 ^ 16 % 256 : Nat) : Int) =
        max 0 (min 255 ((1000000 * y + 1772000 * (cb - 128) + 500000) / 1000000)) ∧
      t.px.toNat / 2 ^ 24 = 255

/-- `LDPIX` (R143, R150): luma from every pixel, chroma from pixel `(2x, 2y)`. That `COEF`, invalid at stage Raw (R43), keeps
its contents is the model's own choice (log 9). -/
def Obligations.LdpixLoadsPixels : Prop :=
  ∀ s : State, legalDims s.cfg s.frmW.toNat s.frmH.toNat → s.inLen.toNat ≤ s.cfg.inCap →
    s.inLen.toNat = 4 * s.frmW.toNat * s.frmH.toNat →
    ∃ t, exec .ldpix s = .next t ∧
      t = { s with
        cur := t.cur, fstage := .raw, fkind := .key, err := .ok, outLen := 0, outbuf := t.outbuf, outGen := t.outGen } ∧
      PlanesFit s.W s.H t.cur ∧
      (∀ x y : Nat, x < s.W → y < s.H →
        sampleAt t.cur.y s.W x y =
          (rgb2ycc (s.inByte (4 * (y * s.W + x))) (s.inByte (4 * (y * s.W + x) + 1))
            (s.inByte (4 * (y * s.W + x) + 2))).y) ∧
      ∀ x y : Nat, x < s.W / 2 → y < s.H / 2 →
        let p := rgb2ycc (s.inByte (4 * (2 * y * s.W + 2 * x))) (s.inByte (4 * (2 * y * s.W + 2 * x) + 1))
          (s.inByte (4 * (2 * y * s.W + 2 * x) + 2))
        sampleAt t.cur.cb (s.W / 2) x y = p.cb ∧ sampleAt t.cur.cr (s.W / 2) x y = p.cr

/-- `LDPLN` (R144, R152): three full-resolution planes, the chroma planes subsampled. That `COEF`, invalid at stage Raw
(R43), keeps its contents is the model's own choice (log 9). -/
def Obligations.LdplnLoadsPlanes : Prop :=
  ∀ s : State, legalDims s.cfg s.frmW.toNat s.frmH.toNat → s.inLen.toNat ≤ s.cfg.inCap →
    s.inLen.toNat = 3 * (s.frmW.toNat * s.frmH.toNat) →
    ∃ t, exec .ldpln s = .next t ∧
      t = { s with
        cur := t.cur, fstage := .raw, fkind := .key, err := .ok, outLen := 0, outbuf := t.outbuf, outGen := t.outGen } ∧
      PlanesFit s.W s.H t.cur ∧
      (∀ x y : Nat, x < s.W → y < s.H → sampleAt t.cur.y s.W x y = s.inByte (y * s.W + x)) ∧
      ∀ x y : Nat, x < s.W / 2 → y < s.H / 2 →
        sampleAt t.cur.cb (s.W / 2) x y = s.inByte (s.W * s.H + (2 * y * s.W + 2 * x)) ∧
        sampleAt t.cur.cr (s.W / 2) x y = s.inByte (2 * (s.W * s.H) + (2 * y * s.W + 2 * x))

/-- `STRGBA` (R146, R154): four bytes a pixel, R, G, B and 255, chroma expanded to its nearest neighbour. -/
def Obligations.StrgbaStoresPixels : Prop :=
  ∀ (s : State) (ps : PlaneSet), s.cfg.Legal → ps ≠ .res → PlaneSetValid s ps [.y, .cb, .cr] →
    4 * s.W * s.H ≤ s.cfg.outCap →
    ∃ t, exec (.strgba ps) s = .next t ∧
      t = { s with err := .ok, outLen := t.outLen, outbuf := t.outbuf, outGen := t.outGen } ∧
      t.outLen.toNat = 4 * s.W * s.H ∧
      ∀ x y : Nat, x < s.W → y < s.H →
        let p := s.planesOf ps
        let cx := min (x / 2) (s.W / 2 - 1)
        let cy := min (y / 2) (s.H / 2 - 1)
        let c := ycc2rgb (sampleAt p.y s.W x y) (sampleAt p.cb (s.W / 2) cx cy) (sampleAt p.cr (s.W / 2) cx cy)
        let o := 4 * (y * s.W + x)
        t.outByte o = c.1 ∧ t.outByte (o + 1) = c.2.1 ∧ t.outByte (o + 2) = c.2.2 ∧ t.outByte (o + 3) = 255#8

/-- `STPLN` (R156): the three planes row-major, each at its own resolution. -/
def Obligations.StplnStoresPlanes : Prop :=
  ∀ (s : State) (ps : PlaneSet), s.cfg.Legal → ps ≠ .res → PlaneSetValid s ps [.y, .cb, .cr] →
    PlanesFit s.W s.H (s.planesOf ps) → s.W * s.H + 2 * (s.W / 2) * (s.H / 2) ≤ s.cfg.outCap →
    ∃ t, exec (.stpln ps) s = .next t ∧
      t = { s with err := .ok, outLen := t.outLen, outbuf := t.outbuf, outGen := t.outGen } ∧
      t.outLen.toNat = s.W * s.H + 2 * (s.W / 2) * (s.H / 2) ∧
      (∀ x y : Nat, x < s.W → y < s.H → t.outByte (y * s.W + x) = sampleAt (s.planesOf ps).y s.W x y) ∧
      ∀ x y : Nat, x < s.W / 2 → y < s.H / 2 →
        t.outByte (s.W * s.H + (y * (s.W / 2) + x)) = sampleAt (s.planesOf ps).cb (s.W / 2) x y ∧
        t.outByte (s.W * s.H + s.W / 2 * (s.H / 2) + (y * (s.W / 2) + x)) =
          sampleAt (s.planesOf ps).cr (s.W / 2) x y

/-- `GETBLK` (R147, R160): block `(ARG0, ARG1)` of a plane, zero beyond the plane. -/
def Obligations.GetblkExtractsBlock : Prop :=
  ∀ (s : State) (ps : PlaneSet) (ch : Ch), PlaneSetValid s ps [ch] →
    8 * s.arg0.toNat < planeW s.W ch → 8 * s.arg1.toNat < planeH s.H ch →
    ∃ t, exec (.getblk ps ch) s = .next t ∧
      t = { s with sb := t.sb, err := .ok, outLen := 0, outbuf := t.outbuf, outGen := t.outGen } ∧
      ∀ n : Fin 64,
        let x := 8 * s.arg0.toNat + n.val % 8
        let y := 8 * s.arg1.toNat + n.val / 8
        t.sb[n] = if x < planeW s.W ch ∧ y < planeH s.H ch then BitVec.ofInt 32 (s.planeInt ps ch x y) else 0

/-- `FDCT` (R179) applies the build's `NUM.fdct` to the centred block. -/
def Obligations.FdctTransforms : Prop :=
  ∀ (s : State) (b : Bool), (∀ n : Fin 64, (s.sb[n].toInt - if b then 128 else 0).natAbs ≤ 2 ^ 23) →
    ∃ t, exec (.fdct b) s = .next t ∧
      t = { s with
        tb := numFdct s.cfg.num (mkBlock fun n => s.sb[n].toInt - if b then 128 else 0)
        err := .ok, outLen := 0, outbuf := t.outbuf, outGen := t.outGen }

/-- `IDCT` (R180): each exact output value rounded half away from zero, then the bias; no clamp. For numerics outside
`ACC`, whose results may not fit, the low 32 bits are the model's own choice (log 6). -/
def Obligations.IdctTransforms : Prop :=
  ∀ (s : State) (b : Bool), (∀ n : Fin 64, f32IsFinite s.tb[n] = true ∧ |patternRat s.tb[n]| ≤ 2 ^ 23) →
    ∃ t, exec (.idct b) s = .next t ∧
      t = { s with sb := t.sb, err := .ok, outLen := 0, outbuf := t.outbuf, outGen := t.outGen } ∧
      ∀ n : Fin 64,
        t.sb[n] = BitVec.ofInt 32 (rndRat (patternRat (numIdct s.cfg.num s.tb)[n]) + if b then 128 else 0)

/-- `QUANT` (R193, R194): the exact rational quotient rounded half away from zero and saturated. -/
def Obligations.QuantQuantises : Prop :=
  ∀ (s : State) (q : Table), (∀ n : Fin 64, f32IsFinite s.tb[n] = true) →
    ∃ t, exec (.quant q) s = .next t ∧
      t = { s with qb := t.qb, err := .ok, outLen := 0, outbuf := t.outbuf, outGen := t.outGen } ∧
      ∀ n : Fin 64, t.qb[n].toInt = max (-128) (min 127 (rndRat (patternRat s.tb[n] / ((tableOf q)[n] : Rat))))

/-- `DEQUANT` (R195, R196): the exact product, as a finite binary32 value; a zero coefficient gives +0.0. -/
def Obligations.DequantRestores : Prop :=
  decode 0x00000041#32 = .ok (.dequant .lum) ∧ decode 0x00000841#32 = .ok (.dequant .chr) ∧
  ∀ (s : State) (q : Table),
    ∃ t, exec (.dequant q) s = .next t ∧
      t = { s with tb := t.tb, err := .ok, outLen := 0, outbuf := t.outbuf, outGen := t.outGen } ∧
      ∀ n : Fin 64, f32IsFinite t.tb[n] = true ∧ patternRat t.tb[n] = (s.qb[n].toInt * (tableOf q)[n] : Int) ∧
        (s.qb[n] = 0 → t.tb[n] = 0)

/-- `ZZ` and `UNZZ` (R212, R213) move entry `ZZ[k]` to place `k` and back. -/
def Obligations.ZigzagCommands : Prop :=
  decode 0x00000050#32 = .ok .zz ∧ decode 0x00000051#32 = .ok .unzz ∧
  ∀ s : State,
    (∃ t, exec .zz s = .next t ∧
      t = { s with zb := t.zb, err := .ok, outLen := 0, outbuf := t.outbuf, outGen := t.outGen } ∧
      ∀ k : Fin 64, t.zb[k] = s.qb[zigzagIndex[k]]) ∧
    ∃ t, exec .unzz s = .next t ∧
      t = { s with qb := t.qb, err := .ok, outLen := 0, outbuf := t.outbuf, outGen := t.outGen } ∧
      ∀ k : Fin 64, t.qb[zigzagIndex[k]] = s.zb[k]

/-- `RLEENC` (R226). -/
def Obligations.RleencWritesCode : Prop :=
  ∀ s : State, s.cfg.Legal → s.inLen.toNat ≤ s.cfg.inCap → (mrleEnc s.input).length ≤ s.cfg.outCap →
    ∃ t, exec .rleenc s = .next t ∧
      t = { s with err := .ok, outLen := t.outLen, outbuf := t.outbuf, outGen := t.outGen } ∧ Wrote t (mrleEnc s.input)

/-- `RLEDEC` (R227). -/
def Obligations.RledecWritesBytes : Prop :=
  ∀ (s : State) (d : List Byte), s.cfg.Legal → s.inLen.toNat ≤ s.cfg.inCap → mrleDec s.input = some d →
    d.length ≤ s.cfg.outCap →
    ∃ t, exec .rledec s = .next t ∧
      t = { s with err := .ok, outLen := t.outLen, outbuf := t.outbuf, outGen := t.outGen } ∧ Wrote t d

/-- `XFKEY` (R240 to R250): `COEF` holds every block coded, Y then Cb then Cr in raster order, and `REF` the planes decoded
from it, re-biased and clamped. The coding of one block is `BLKENC`, its decoding `BLKDEC` (R97, R240, R241): what the
leaf commands `FDCT`, `QUANT`, `ZZ` leave in `ZB`, and `UNZZ`, `DEQUANT`, `IDCT` in `SB`. That `SB` takes the low 32 bits
of a result outside 32 bits, which only numerics outside `ACC` give (R180), is the model's own choice (log 6). -/
def Obligations.XfkeyCodesAndReconstructs : Prop :=
  (∀ s : State, s.fstage = .raw →
    ∃ t, exec .xfkey s = .next t ∧
      t = { s with
        coef := t.coef, ref := t.ref, refv := true, fstage := .transformed, fkind := .key, err := .ok, outLen := 0
        outbuf := t.outbuf, outGen := t.outGen } ∧
      t.coef.length = lenCoef s.W s.H ∧ PlanesFit s.W s.H t.ref ∧
      ∀ c : Ch,
        (∀ (bx bY : Nat) (j : Fin 64), bx < ceil8 (planeW s.W c) → bY < ceil8 (planeH s.H c) →
          t.coef[64 * (blockBase s.W s.H c + (bY * ceil8 (planeW s.W c) + bx)) + j.val]? =
            some (encBlock s.cfg.num (tableOfChannel c) true
              (getblk (fun x y => ((sampleAt (s.cur.get c) (planeW s.W c) x y).toNat : Int)) (planeW s.W c)
                (planeH s.H c) bx bY))[j]) ∧
        ∀ x y : Nat, x < planeW s.W c → y < planeH s.H c →
          sampleAt (t.ref.get c) (planeW s.W c) x y = clampByte (decodedAt s.cfg.num s.W s.H t.coef c x y + 128)) ∧
  (∀ (s : State) (q : Table) (b : Bool), (∀ n : Fin 64, (s.sb[n].toInt - if b then 128 else 0).natAbs ≤ 2 ^ 23) →
    ∃ t u v, exec (.fdct b) s = .next t ∧ exec (.quant q) t = .next u ∧ exec .zz u = .next v ∧
      runPseudo (.blkenc q b) s = .next v ∧
      v = { s with
        tb := t.tb, qb := u.qb, zb := v.zb, err := .ok, outLen := 0, outbuf := v.outbuf, outGen := v.outGen } ∧
      v.zb = encBlock s.cfg.num (tableOf q) b (mkBlock fun n => s.sb[n].toInt)) ∧
  ∀ (s : State) (q : Table) (b : Bool),
    ∃ t u v, exec .unzz s = .next t ∧ exec (.dequant q) t = .next u ∧ exec (.idct b) u = .next v ∧
      runPseudo (.blkdec q b) s = .next v ∧
      v = { s with
        qb := t.qb, tb := u.tb, sb := v.sb, err := .ok, outLen := 0, outbuf := v.outbuf, outGen := v.outGen } ∧
      ∀ n : Fin 64, v.sb[n] = BitVec.ofInt 32 ((decBlock s.cfg.num (tableOf q) s.zb)[n] + if b then 128 else 0)

/-- `EMITKEY` (R246, R252): the header outside the run-length code, then the coded coefficients. -/
def Obligations.EmitkeyWritesStream : Prop :=
  ∀ s : State, s.cfg.Legal → s.fstage = .transformed ∨ s.fstage = .serialized → s.fkind = .key →
    8 + (mrleEnc s.coef).length ≤ s.cfg.outCap →
    ∃ t, exec .emitkey s = .next t ∧
      t = { s with fstage := .serialized, err := .ok, outLen := t.outLen, outbuf := t.outbuf, outGen := t.outGen } ∧
      Wrote t (le32 s.frmW.toNat ++ le32 s.frmH.toNat ++ mrleEnc s.coef)

/-- `DECKEY` (R254): the dimensions from the header, `REF` from the payload, every sample decoded, re-biased and clamped
(R248), every other validity bit cleared. That `CUR`, `PRED`, `RES`, `MV` and `COEF`, made invalid by `SetDims` (R48), keep
their contents is the model's own choice (log 9): the spec leaves them unspecified (R39, U2). -/
def Obligations.DeckeyDecodes : Prop :=
  ∀ (s : State) (p : List Byte), s.inLen.toNat ≤ s.cfg.inCap → 8 ≤ s.inLen.toNat →
    legalDims s.cfg (rd32 s.input 0) (rd32 s.input 4) → mrleDec (s.input.drop 8) = some p →
    p.length = lenCoef (rd32 s.input 0) (rd32 s.input 4) →
    ∃ t, exec .deckey s = .next t ∧
      t = { s with
        frmW := t.frmW, frmH := t.frmH, fstage := .empty, fkind := .key, mvv := ⟨false, false, false⟩
        predv := ⟨false, false, false⟩, resv := ⟨false, false, false⟩, chopen := false
        ref := keyPlanes s.cfg.num (rd32 s.input 0) (rd32 s.input 4) p, refv := true
        err := .ok, outLen := 0, outbuf := t.outbuf, outGen := t.outGen } ∧
      t.frmW.toNat = rd32 s.input 0 ∧ t.frmH.toNat = rd32 s.input 4 ∧ PlanesFit t.W t.H t.ref ∧
      ∀ (c : Ch) (x y : Nat), x < planeW t.W c → y < planeH t.H c →
        sampleAt (t.ref.get c) (planeW t.W c) x y = clampByte (decodedAt s.cfg.num t.W t.H p c x y + 128)

/-- `MEST` (R276, R278): the best vector of every macroblock, in raster order; no other channel's field changes. -/
def Obligations.MestEstimates : Prop :=
  ∀ (s : State) (ch : Ch), s.fstage = .raw → s.refv = true →
    ∃ t, exec (.mest ch) s = .next t ∧
      t = { s with mv := t.mv, mvv := t.mvv, err := .ok, outLen := 0, outbuf := t.outbuf, outGen := t.outGen } ∧
      t.mvv.get ch = true ∧ (∀ c : Ch, c ≠ ch → t.mv.get c = s.mv.get c ∧ t.mvv.get c = s.mvv.get c) ∧
      (t.mv.get ch).length = mbCount ch (planeW s.W ch) (planeH s.H ch) ∧
      ∀ m < mbCount ch (planeW s.W ch) (planeH s.H ch),
        let best := (bestOffset (s.cur.get ch) (s.ref.get ch) (planeW s.W ch) (planeH s.H ch) s.R
          (macroblock ch (planeW s.W ch) (planeH s.H ch) m)).1
        (vectorAt (t.mv.get ch) m).dx.toInt = best.1 ∧ (vectorAt (t.mv.get ch) m).dy.toInt = best.2

/-- `MCOMP` (R290, R296): every sample of the prediction is the reference sample its macroblock's vector points at. -/
def Obligations.McompPredicts : Prop :=
  ∀ (s : State) (ch : Ch), s.refv = true → s.mvv.get ch = true →
    ∃ t, exec (.mcomp ch) s = .next t ∧
      t = { s with pred := t.pred, predv := t.predv, err := .ok, outLen := 0, outbuf := t.outbuf, outGen := t.outGen } ∧
      t.predv.get ch = true ∧ (∀ c : Ch, c ≠ ch → t.pred.get c = s.pred.get c ∧ t.predv.get c = s.predv.get c) ∧
      (t.pred.get ch).length = planeW s.W ch * planeH s.H ch ∧
      ∀ m i j : Nat, m < mbCount ch (planeW s.W ch) (planeH s.H ch) →
        let b := macroblock ch (planeW s.W ch) (planeH s.H ch) m
        let v := vectorAt (s.mv.get ch) m
        i < b.w → j < b.h →
          sampleAt (t.pred.get ch) (planeW s.W ch) (b.x + i) (b.y + j) =
            sampleZ (s.ref.get ch) (planeW s.W ch) (b.x + v.dx.toInt + i) (b.y + v.dy.toInt + j)

/-- `RESID` (R291, R298): current minus predicted, sample by sample, signed. -/
def Obligations.ResidSubtracts : Prop :=
  ∀ (s : State) (ch : Ch), s.fstage ≠ .empty → s.predv.get ch = true →
    (s.cur.get ch).length = planeW s.W ch * planeH s.H ch →
    (s.pred.get ch).length = planeW s.W ch * planeH s.H ch →
    ∃ t, exec (.resid ch) s = .next t ∧
      t = { s with res := t.res, resv := t.resv, err := .ok, outLen := 0, outbuf := t.outbuf, outGen := t.outGen } ∧
      t.resv.get ch = true ∧ (∀ c : Ch, c ≠ ch → t.res.get c = s.res.get c ∧ t.resv.get c = s.resv.get c) ∧
      (t.res.get ch).length = planeW s.W ch * planeH s.H ch ∧
      ∀ x y : Nat, x < planeW s.W ch → y < planeH s.H ch →
        resAt (t.res.get ch) (planeW s.W ch) x y =
          ((sampleAt (s.cur.get ch) (planeW s.W ch) x y).toNat : Int) -
            ((sampleAt (s.pred.get ch) (planeW s.W ch) x y).toNat : Int)

/-- `XFP` (R306): vectors, prediction and residual of every channel, every residual block coded without bias at its place
in `COEF` (R242), and `REF` rebuilt from the coded residual: at every sample predicted plus decoded residual, clamped
(R302). -/
def Obligations.XfpCodesAndReconstructs : Prop :=
  ∀ s : State, s.fstage = .raw → s.refv = true →
    ∃ t, exec .xfp s = .next t ∧
      t = { s with
        mv := t.mv, pred := t.pred, res := t.res, coef := t.coef, ref := t.ref
        mvv := ⟨true, true, true⟩, predv := ⟨true, true, true⟩, resv := ⟨true, true, true⟩
        fstage := .transformed, fkind := .predicted, err := .ok, outLen := 0
        outbuf := t.outbuf, outGen := t.outGen } ∧
      t.coef = coefOf s.cfg.num s.W s.H (fun c => resAt (t.res.get c) (planeW s.W c)) false ∧
      ∀ c : Ch,
        t.mv.get c = field c (s.cur.get c) (s.ref.get c) (planeW s.W c) (planeH s.H c) s.R ∧
        t.pred.get c = predict c (s.ref.get c) (t.mv.get c) (planeW s.W c) (planeH s.H c) ∧
        t.res.get c = residual (s.cur.get c) (t.pred.get c) ∧
        t.ref.get c = reconP (t.pred.get c) ((planesOfCoef s.cfg.num s.W s.H t.coef).get c) ∧
        (∀ (bx bY : Nat) (j : Fin 64), bx < ceil8 (planeW s.W c) → bY < ceil8 (planeH s.H c) →
          t.coef[64 * (blockBase s.W s.H c + (bY * ceil8 (planeW s.W c) + bx)) + j.val]? =
            some (encBlock s.cfg.num (tableOfChannel c) false
              (getblk (resAt (t.res.get c) (planeW s.W c)) (planeW s.W c) (planeH s.H c) bx bY))[j]) ∧
        ∀ x y : Nat, x < planeW s.W c → y < planeH s.H c →
          sampleAt (t.ref.get c) (planeW s.W c) x y =
            clampByte ((sampleAt (t.pred.get c) (planeW s.W c) x y).toNat + decodedAt s.cfg.num s.W s.H t.coef c x y)

/-- `EMITP` (R304, R308): coefficients, then the Y, Cb and Cr vectors, dx then dy (R292), run-length coded as one. -/
def Obligations.EmitpWritesPayload : Prop :=
  ∀ (s : State) (z : List Byte), s.cfg.Legal → s.fstage = .transformed ∨ s.fstage = .serialized → s.fkind = .predicted →
    z = mrleEnc (s.coef ++ (s.mv.y ++ s.mv.cb ++ s.mv.cr).flatMap fun v => [v.dx, v.dy]) → z.length ≤ s.cfg.outCap →
    ∃ t, exec .emitp s = .next t ∧
      t = { s with fstage := .serialized, err := .ok, outLen := t.outLen, outbuf := t.outbuf, outGen := t.outGen } ∧
      Wrote t z

/-- `DECP` (R312): every vector inside the radius and the plane; `REF` becomes prediction plus decoded residual, at every
sample the reference sample its macroblock's vector points at (R290) plus the entry of the decoded block, clamped
(R302). -/
def Obligations.DecpDecodes : Prop :=
  ∀ (s : State) (p : List Byte), s.inLen.toNat ≤ s.cfg.inCap → s.refv = true → mrleDec s.input = some p →
    p.length = lenCoef s.W s.H + lenVec s.W s.H →
    (∀ c : Ch, ∀ m < mbCount c (planeW s.W c) (planeH s.H c),
      vectorOk (planeW s.W c) (planeH s.H c) s.R (macroblock c (planeW s.W c) (planeH s.H c) m)
        (payloadVector s.W s.H p c m)) →
    ∃ t, exec .decp s = .next t ∧
      t = { s with ref := t.ref, err := .ok, outLen := 0, outbuf := t.outbuf, outGen := t.outGen } ∧
      PlanesFit s.W s.H t.ref ∧
      ∀ c : Ch,
        t.ref.get c =
          reconP (predict c (s.ref.get c) ((fieldsOf s.W s.H p).get c) (planeW s.W c) (planeH s.H c))
            ((planesOfCoef s.cfg.num s.W s.H (slice p 0 (lenCoef s.W s.H))).get c) ∧
        ∀ x y : Nat, x < planeW s.W c → y < planeH s.H c →
          let v := payloadVector s.W s.H p c (mbIndexAt c (planeW s.W c) x y)
          sampleAt (t.ref.get c) (planeW s.W c) x y =
            clampByte ((sampleZ (s.ref.get c) (planeW s.W c) (x + v.dx.toInt) (y + v.dy.toInt)).toNat +
              decodedAt s.cfg.num s.W s.H p c x y)

/-- `CHRST` (R336) empties the chain-encode store and touches nothing else. -/
def Obligations.ChrstEmptiesChain : Prop :=
  decode 0x000000A0#32 = .ok .chrst ∧ ∀ s : State, ∃ t, exec .chrst s = .next t ∧
    t = { s with
      chs := [], cheCount := 0, cheW := 0, cheH := 0, err := .ok, outLen := 0
      outbuf := t.outbuf, outGen := t.outGen }

/-- `CHAPP` (R338) appends what `EMITKEY` or `EMITP` would write. -/
def Obligations.ChappAppends : Prop :=
  ∀ (s : State) (z : List Byte), s.cfg.Legal → s.fstage = .transformed ∨ s.fstage = .serialized →
    (s.cheCount = 0 ∧ s.fkind = .key ∧ z = le32 s.frmW.toNat ++ le32 s.frmH.toNat ++ mrleEnc s.coef) ∨
      (s.cheCount ≠ 0 ∧ s.fkind = .predicted ∧ s.frmW = s.cheW ∧ s.frmH = s.cheH ∧
        z = mrleEnc (s.coef ++ vecBytes s.mv.y ++ vecBytes s.mv.cb ++ vecBytes s.mv.cr)) →
    s.cheCount.toNat < s.cfg.chMax → z.length ≤ 2 ^ 32 - 1 →
    ∃ t, exec .chapp s = .next t ∧
      t = { s with
        chs := s.chs ++ [z], cheCount := t.cheCount, cheW := s.frmW, cheH := s.frmH, fstage := .serialized, err := .ok
        outLen := 0, outbuf := t.outbuf, outGen := t.outGen } ∧
      t.cheCount.toNat = s.cheCount.toNat + 1

/-- `CHEMIT` (R334, R340) writes the container; the store stays. -/
def Obligations.ChemitWritesContainer : Prop :=
  ∀ s : State, s.cfg.Legal → s.cheCount ≠ 0 → s.cheCount.toNat = s.chs.length →
    12 + 4 * s.chs.length + (s.chs.map List.length).sum ≤ s.cfg.outCap →
    ∃ t, exec .chemit s = .next t ∧
      t = { s with err := .ok, outLen := t.outLen, outbuf := t.outbuf, outGen := t.outGen } ∧
      Wrote t (le32 s.cheCount.toNat ++ (s.chs.map fun z => le32 z.length).flatten ++ le32 s.cheW.toNat ++
        le32 s.cheH.toNat ++ s.chs.flatten)

/-- `CHOPEN` (R342) takes the dimensions, the count and the lengths from the container; no frame is decoded yet. That
`CUR`, `REF`, `PRED`, `RES`, `MV` and `COEF`, made invalid by `SetDims` (R48), keep their contents is the model's own choice
(log 9): the spec leaves them unspecified (R38, R39, U2). -/
def Obligations.ChopenOpensChain : Prop :=
  ∀ (s : State) (n w h : Nat) (l : List Nat), s.inLen.toNat ≤ s.cfg.inCap → 4 ≤ s.inLen.toNat →
    n = rd32 s.input 0 → 1 ≤ n → n ≤ s.cfg.chMax → l = (List.range n).map (fun i => rd32 s.input (4 + 4 * i)) →
    w = rd32 s.input (4 + 4 * n) → h = rd32 s.input (8 + 4 * n) → legalDims s.cfg w h →
    s.inLen.toNat = 12 + 4 * n + l.sum →
    ∃ t, exec .chopen s = .next t ∧
      t = { s with
        frmW := t.frmW, frmH := t.frmH, fstage := .empty, fkind := .key, refv := false
        mvv := ⟨false, false, false⟩, predv := ⟨false, false, false⟩, resv := ⟨false, false, false⟩
        chopen := true, chdCount := t.chdCount, chlen := t.chlen, chdIdx := 0, chdOff := t.chdOff
        err := .ok, outLen := 0, outbuf := t.outbuf, outGen := t.outGen } ∧
      t.frmW.toNat = w ∧ t.frmH.toNat = h ∧ t.chdCount.toNat = n ∧ t.chlen.map BitVec.toNat = l ∧
      t.chdOff.toNat = 12 + 4 * n

/-- `CHNEXT` (R344): frame 0 is a still stream whose header equals the outer one, a later frame a predicted payload, each
restored sample by sample (R248, R302); the index and the offset move on. -/
def Obligations.ChnextDecodesNextFrame : Prop :=
  ∀ (s : State) (len : Nat) (z p : List Byte), s.chopen = true → s.inLen.toNat ≤ s.cfg.inCap →
    s.chdIdx.toNat < s.chdCount.toNat → s.chlen[s.chdIdx.toNat]?.map BitVec.toNat = some len →
    s.chdOff.toNat + len ≤ s.inLen.toNat → z = (List.range len).map (fun i => s.inByte (s.chdOff.toNat + i)) →
    (s.chdIdx = 0 → 8 ≤ len → rd32 z 0 = s.W → rd32 z 4 = s.H → mrleDec (z.drop 8) = some p →
      p.length = lenCoef s.W s.H →
      ∃ t, exec .chnext s = .next t ∧
        t = { s with
          ref := keyPlanes s.cfg.num s.W s.H p, refv := true, chdIdx := 1, chdOff := t.chdOff
          err := .ok, outLen := 0, outbuf := t.outbuf, outGen := t.outGen } ∧
        t.chdOff.toNat = s.chdOff.toNat + len ∧ PlanesFit s.W s.H t.ref ∧
        ∀ (c : Ch) (x y : Nat), x < planeW s.W c → y < planeH s.H c →
          sampleAt (t.ref.get c) (planeW s.W c) x y = clampByte (decodedAt s.cfg.num s.W s.H p c x y + 128)) ∧
    (s.chdIdx ≠ 0 → s.refv = true → mrleDec z = some p → p.length = lenCoef s.W s.H + lenVec s.W s.H →
      (∀ c : Ch, ∀ m < mbCount c (planeW s.W c) (planeH s.H c),
        vectorOk (planeW s.W c) (planeH s.H c) s.R (macroblock c (planeW s.W c) (planeH s.H c) m)
          (payloadVector s.W s.H p c m)) →
      ∃ t, exec .chnext s = .next t ∧
        t = { s with
          ref := t.ref, chdIdx := t.chdIdx, chdOff := t.chdOff
          err := .ok, outLen := 0, outbuf := t.outbuf, outGen := t.outGen } ∧
        t.chdIdx.toNat = s.chdIdx.toNat + 1 ∧ t.chdOff.toNat = s.chdOff.toNat + len ∧
        PlanesFit s.W s.H t.ref ∧
        ∀ c : Ch,
          t.ref.get c =
            reconP (predict c (s.ref.get c) ((fieldsOf s.W s.H p).get c) (planeW s.W c) (planeH s.H c))
              ((planesOfCoef s.cfg.num s.W s.H (slice p 0 (lenCoef s.W s.H))).get c) ∧
          ∀ x y : Nat, x < planeW s.W c → y < planeH s.H c →
            let v := payloadVector s.W s.H p c (mbIndexAt c (planeW s.W c) x y)
            sampleAt (t.ref.get c) (planeW s.W c) x y =
              clampByte ((sampleZ (s.ref.get c) (planeW s.W c) (x + v.dx.toInt) (y + v.dy.toInt)).toNat +
                decodedAt s.cfg.num s.W s.H p c x y))

/-! ### Rules of the whole machine -/

/-- The table of R364: an illegal word aborts before anything else is examined; a command reports the first check of its
row that fails, and completes when none does. -/
def Obligations.ChecksInOrder : Prop :=
  ∀ (w : Word) (s : State), ∃ t, perform (.regWrite 0 w) s = .next t ∧
    t.err =
      match decode w with
      | .error _ => .illegalCommand
      | .ok i => (firstFailure (commandChecks i s)).getD .ok

/-- Abort (R366): `ERR`, `FIRSTERR` if it was 0, `OUT_LEN`, and nothing else. -/
def Obligations.AbortChangesNothing : Prop :=
  ∀ (w : Word) (s t : State), perform (.regWrite 0 w) s = .next t → t.err ≠ .ok →
    t = { s with
      err := t.err, firstErr := if s.firstErr = .ok then t.err else s.firstErr, outLen := 0
      outbuf := t.outbuf, outGen := t.outGen }

/-- `FIRSTERR` (R47) takes the first error and keeps it; only reset and `SRST` clear it. -/
def Obligations.FirstErrIsSticky : Prop :=
  ∀ (a : HostAction) (s t : State), perform a s = .next t → a ≠ .reset → a ≠ .regWrite 0 (encode .srst) →
    (s.firstErr ≠ .ok → t.firstErr = s.firstErr) ∧
    (s.firstErr = .ok → t.firstErr ≠ .ok → ∃ w, a = .regWrite 0 w ∧ t.firstErr = t.err) ∧
    ∀ w, a = .regWrite 0 w → s.firstErr = .ok → t.firstErr = t.err

/-- Which commands write each component (R20, R22), and which set and clear each validity bit (R38, R40 to R42, R45; the
stage and the kind have Obligations.StageTransitions); none writes `INBUF` (R80), a parameter of the build or what the
host still has to do, and none reads the host's list or record. Where a command makes a store invalid, that the store keeps
its contents is the model's own choice (log 9). -/
def Obligations.OnlyNamedWriters : Prop :=
  ∀ (i : Instr) (s t : State), exec i s = .next t →
    t.cfg = s.cfg ∧ t.host = s.host ∧ t.seen = s.seen ∧ t.inbuf = s.inbuf ∧ (∀ a : Nat, t.inByte a = s.inByte a) ∧
    (t.inLen ≠ s.inLen ∨ t.radius ≠ s.radius ∨ t.arg0 ≠ s.arg0 ∨ t.arg1 ≠ s.arg1 → i = .srst) ∧
    (t.px ≠ s.px → i ∈ [.srst, .ycc2rgb]) ∧ (t.yc ≠ s.yc → i ∈ [.srst, .rgb2ycc]) ∧
    (t.sb ≠ s.sb → i = .srst ∨ (∃ ps ch, i = .getblk ps ch) ∨ ∃ b, i = .idct b) ∧
    (t.tb ≠ s.tb → i = .srst ∨ (∃ b, i = .fdct b) ∨ ∃ q, i = .dequant q) ∧
    (t.qb ≠ s.qb → i = .srst ∨ (∃ q, i = .quant q) ∨ i = .unzz) ∧ (t.zb ≠ s.zb → i ∈ [.srst, .zz]) ∧
    (t.frmW ≠ s.frmW ∨ t.frmH ≠ s.frmH → i ∈ [.srst, .deckey, .chopen]) ∧
    (t.cur ≠ s.cur → i ∈ [.ldpix, .ldpln]) ∧ (t.ref ≠ s.ref → i ∈ [.xfkey, .xfp, .deckey, .decp, .chnext]) ∧
    (∀ c : Ch, t.pred.get c ≠ s.pred.get c → i ∈ [.mcomp c, .xfp]) ∧
    (∀ c : Ch, t.res.get c ≠ s.res.get c → i ∈ [.resid c, .xfp]) ∧
    (∀ c : Ch, t.mv.get c ≠ s.mv.get c → i ∈ [.mest c, .xfp]) ∧ (t.coef ≠ s.coef → i ∈ [.xfkey, .xfp]) ∧
    (t.chs ≠ s.chs ∨ t.cheCount ≠ s.cheCount ∨ t.cheW ≠ s.cheW ∨ t.cheH ≠ s.cheH → i ∈ [.srst, .chrst, .chapp]) ∧
    (t.chlen ≠ s.chlen ∨ t.chdCount ≠ s.chdCount → i ∈ [.srst, .chopen]) ∧
    (t.chdIdx ≠ s.chdIdx ∨ t.chdOff ≠ s.chdOff → i ∈ [.srst, .chopen, .chnext]) ∧
    (s.refv = false → t.refv = true → i ∈ [.xfkey, .deckey, .chnext]) ∧
    (s.refv = true → t.refv = false → i ∈ [.srst, .chopen]) ∧
    (∀ c : Ch, s.mvv.get c = false → t.mvv.get c = true → i ∈ [.mest c, .xfp]) ∧
    (∀ c : Ch, s.predv.get c = false → t.predv.get c = true → i ∈ [.mcomp c, .xfp]) ∧
    (∀ c : Ch, s.resv.get c = false → t.resv.get c = true → i ∈ [.resid c, .xfp]) ∧
    (∀ c : Ch, (s.mvv.get c = true ∧ t.mvv.get c = false) ∨ (s.predv.get c = true ∧ t.predv.get c = false) ∨
      (s.resv.get c = true ∧ t.resv.get c = false) → i ∈ [.srst, .deckey, .chopen]) ∧
    (s.chopen = false → t.chopen = true → i = .chopen) ∧ (s.chopen = true → t.chopen = false → i ∈ [.srst, .deckey]) ∧
    ∀ (h : List HostAction) (v : List Word), exec i { s with host := h, seen := v } = .next { t with host := h, seen := v }

/-- The stage table of R36: what a completed command leaves in `FSTAGE` and `FKIND`, and the stage it needs. -/
def Obligations.StageTransitions : Prop :=
  ∀ (i : Instr) (s t : State), exec i s = .next t → t.err = .ok →
    match i with
    | .srst | .deckey | .chopen => t.fstage = .empty ∧ t.fkind = .key
    | .ldpix | .ldpln => t.fstage = .raw ∧ t.fkind = .key
    | .xfkey => s.fstage = .raw ∧ t.fstage = .transformed ∧ t.fkind = .key
    | .xfp => s.fstage = .raw ∧ t.fstage = .transformed ∧ t.fkind = .predicted
    | .emitkey =>
      (s.fstage = .transformed ∨ s.fstage = .serialized) ∧ s.fkind = .key ∧ t.fstage = .serialized ∧ t.fkind = .key
    | .emitp =>
      (s.fstage = .transformed ∨ s.fstage = .serialized) ∧ s.fkind = .predicted ∧ t.fstage = .serialized ∧
        t.fkind = .predicted
    | .chapp =>
      (s.fstage = .transformed ∨ s.fstage = .serialized) ∧ t.fstage = .serialized ∧ t.fkind = s.fkind
    | _ => t.fstage = s.fstage ∧ t.fkind = s.fkind

/-- `ERR` and `FIRSTERR` are never read: an earlier error never changes what a later command does (R52, R367). -/
def Obligations.EarlierErrorsNeverMatter : Prop :=
  ∀ (i : Instr) (s : State) (e f : Err), ∃ t u, exec i s = .next t ∧
    exec i { s with err := e, firstErr := f } = .next u ∧ u = { t with firstErr := u.firstErr }

/-- No command reads a store while its validity condition is false (R51): two states that differ only in such stores
stay so. -/
def Obligations.InvalidStoresNeverRead : Prop :=
  ∀ (i : Instr) (s s' : State), s.Inv → s'.Inv → s.hideInvalid = s'.hideInvalid →
    ∃ t t', exec i s = .next t ∧ exec i s' = .next t' ∧ t.hideInvalid = t'.hideInvalid

/-! ### The codec's functions -/

/-- `toZigzag` and `fromZigzag` are exact inverses, both ways (R214). -/
def Obligations.ZigzagInverse : Prop :=
  (∀ (q : Block Byte) (k : Fin 64), (toZigzag q)[k].toNat = (q[zigzagIndex[k]].toInt % 256).toNat) ∧
  (∀ (z : Block Byte) (k : Fin 64), (fromZigzag z)[zigzagIndex[k]].toInt =
    if z[k].toNat < 128 then (z[k].toNat : Int) else (z[k].toNat : Int) - 256) ∧
  (∀ q : Block Byte, fromZigzag (toZigzag q) = q) ∧ ∀ z : Block Byte, toZigzag (fromZigzag z) = z

/-- The encoder of R221: from the left, the longest run capped at 255, a triple for a run of two or more or for the
escape byte, else the literal; at most three bytes for one. -/
def Obligations.MrleEncodesLongestRuns : Prop :=
  mrleEnc [] = [] ∧
  (∀ (v : Byte) (r : Nat) (rest : List Byte), 1 ≤ r → r ≤ 255 → r = 255 ∨ rest.head? ≠ some v →
    mrleEnc (List.replicate r v ++ rest) =
      (if 2 ≤ r ∨ v = 0 then [0, BitVec.ofNat 8 r, v] else [v]) ++ mrleEnc rest) ∧
  ∀ x : List Byte, (mrleEnc x).length ≤ 3 * x.length

/-- Round trip of the run-length code (R222), and the decoder on every stream (R224): a literal, a triple of any length,
zero among them, and an escape cut short. -/
def Obligations.MrleRoundTrip : Prop :=
  (∀ x : List Byte, mrleDec (mrleEnc x) = some x) ∧ mrleEnc [] = [] ∧ mrleDec [] = some [] ∧
  (∀ (v : Byte) (rest : List Byte), v ≠ 0 → mrleDec (v :: rest) = (mrleDec rest).map fun d => v :: d) ∧
  (∀ (n v : Byte) (rest : List Byte),
    mrleDec (0 :: n :: v :: rest) = (mrleDec rest).map fun d => List.replicate n.toNat v ++ d) ∧
  mrleDec [0] = none ∧ (∀ n : Byte, mrleDec [0, n] = none) ∧
  ∀ z d : List Byte, mrleDec z = some d → d.length ≤ 85 * z.length

/-- `fl` (R13, R111) answers a nearest binary32 value, and of two equally near ones that with the even fraction. -/
def Obligations.FlRoundsToNearestEven : Prop :=
  ∀ p j : Nat, RepresentableMag (flMag p j) ∧
    ∀ k : Nat, RepresentableMag k →
      ((p : Int) - flMag p j * 2 ^ j).natAbs ≤ ((p : Int) - k * 2 ^ j).natAbs ∧
      (k ≠ flMag p j → ((p : Int) - flMag p j * 2 ^ j).natAbs = ((p : Int) - k * 2 ^ j).natAbs →
        flMag p j < 2 ^ 277 → (F32.toBits ⟨false, flMag p j⟩).getLsbD 0 = false)

/-- `quant` then `dequant` moves an unsaturated coefficient by at most half a table step (R199). -/
def Obligations.QuantDequantError : Prop :=
  ∀ (f : Block Word) (q : Table) (n : Fin 64), f32IsFinite f[n] = true →
    -128 ≤ rndRat (patternRat f[n] / ((tableOf q)[n] : Rat)) → rndRat (patternRat f[n] / ((tableOf q)[n] : Rat)) ≤ 127 →
    |patternRat (dequant (quant f (tableOf q)) (tableOf q))[n] - patternRat f[n]| ≤ ((tableOf q)[n] : Rat) / 2

/-- The ranges of the colour transforms (R128). -/
def Obligations.ColorRanges : Prop :=
  (∀ r g b : Byte, 1 ≤ (rgb2ycc r g b).cb.toNat ∧ 1 ≤ (rgb2ycc r g b).cr.toNat) ∧
  (∀ g : Byte, (rgb2ycc g g g).cb = 128 ∧ (rgb2ycc g g g).cr = 128) ∧
  ∀ v : Byte, (∃ y cb cr, (ycc2rgb y cb cr).1 = v) ∧ (∃ y cb cr, (ycc2rgb y cb cr).2.1 = v) ∧
    ∃ y cb cr, (ycc2rgb y cb cr).2.2 = v

/-- The search (R274, R275): no admissible offset in the range costs less; the zero offset wins every tie, and of the
others the one scanned first. -/
def Obligations.SearchFindsFirstBest : Prop :=
  ∀ (cu rf : Plane) (pw ph r : Nat) (b : Macroblock),
    let best := bestOffset cu rf pw ph r b
    best.2 = sad cu rf pw b best.1.1 best.1.2 ∧ best.2 ≤ sad cu rf pw b 0 0 ∧
    (∀ u v : Int, -(r : Int) ≤ u → u < r → -(r : Int) ≤ v → v < r → adm pw ph b u v → best.2 ≤ sad cu rf pw b u v) ∧
    (best.1 ≠ (0, 0) →
      best.2 < sad cu rf pw b 0 0 ∧ adm pw ph b best.1.1 best.1.2 ∧
      -(r : Int) ≤ best.1.1 ∧ best.1.1 < r ∧ -(r : Int) ≤ best.1.2 ∧ best.1.2 < r ∧
      ∀ u v : Int, -(r : Int) ≤ u → u < r → -(r : Int) ≤ v → v < r → adm pw ph b u v →
        u < best.1.1 ∨ (u = best.1.1 ∧ v < best.1.2) → best.2 < sad cu rf pw b u v)

/-- A shift inside the range is recovered with cost 0, and itself unless the zero offset or one scanned earlier also has
cost 0 (R280). -/
def Obligations.ShiftIsRecovered : Prop :=
  ∀ (cu rf : Plane) (pw ph r : Nat) (b : Macroblock) (dx dy : Int),
    (∀ i j : Nat, i < b.w → j < b.h →
      sampleAt cu pw (b.x + i) (b.y + j) = sampleZ rf pw (b.x + i + dx) (b.y + j + dy)) →
    adm pw ph b dx dy → -(r : Int) ≤ dx → dx ≤ r - 1 → -(r : Int) ≤ dy → dy ≤ r - 1 →
    sad cu rf pw b (bestOffset cu rf pw ph r b).1.1 (bestOffset cu rf pw ph r b).1.2 = 0 ∧
    (sad cu rf pw b 0 0 ≠ 0 →
      (∀ u v : Int, -(r : Int) ≤ u → -(r : Int) ≤ v → v < r → u < dx ∨ (u = dx ∧ v < dy) → adm pw ph b u v →
        sad cu rf pw b u v ≠ 0) →
      (bestOffset cu rf pw ph r b).1 = (dx, dy))

/-- `FDCT 1` then `IDCT 1` gives a block of samples back, for numerics that keep the bound of `ACC` at the two operands
that occur (R175, R181). -/
def Obligations.SampleBlockRoundTrip : Prop :=
  ∀ s : State, (∀ n : Fin 64, 0 ≤ s.sb[n].toInt ∧ s.sb[n].toInt ≤ 255) →
    FdctAcc s.cfg.num (mkBlock fun n => s.sb[n].toInt - 128) →
    IdctAcc s.cfg.num (numFdct s.cfg.num (mkBlock fun n => s.sb[n].toInt - 128)) →
    ∃ t u, exec (.fdct true) s = .next t ∧ t.err = .ok ∧ exec (.idct true) t = .next u ∧ u.err = .ok ∧ u.sb = s.sb

/-- `REF32` (R177) at operands whose values R177 and the vectors V-DCT-1, V-DCT-3 and V-DCT-4 print, and at
`TB[0]` = 2^-149, zeros elsewhere: every product with 2^-149 rounds to zero, so every output is +0.0, where the exact
inverse is 2^-152. There the bound of `ACC` fails, against the derived remark of R177 (the model follows the computation,
log 19). -/
def Obligations.Ref32MissesAccOnSubnormals : Prop :=
  (numFdct .ref32 (Vector.replicate 64 (-128)))[(0 : Fin 64)] = 0xC47FFFFF#32 ∧
  (numFdct .ref32 ((Vector.replicate 64 0).set 0 64)).toList.take 8 =
    [0x40FFFFFF#32, 0x41318A85#32, 0x41273D74#32, 0x41168317#32, 0x40FFFFFF#32, 0x40C9234E#32, 0x408A8BD4#32,
      0x400D42AF#32] ∧
  (∀ n ∈ [(0 : Fin 64), 63], (numIdct .ref32 ((Vector.replicate 64 0).set 0 0xC4800000#32))[n] = 0xC2FFFFFF#32) ∧
  (rndBlock (numIdct .ref32 ((Vector.replicate 64 0).set 1 0x42C80000#32))).toList.take 8 =
    [17, 15, 10, 3, -3, -10, -15, -17] ∧
  let f : Block Word := (Vector.replicate 64 0).set 0 0x00000001#32
  (∀ n : Fin 64, inIdctDomain f[n] = true) ∧ numIdct .ref32 f = Vector.replicate 64 0 ∧
  (∀ h : Fin 64 → ℝ, IsInverseDct (fun m => ((patternRat f[m] : ℚ) : ℝ)) h → ∀ n : Fin 64, h n = 1 / 2 ^ 152) ∧
  ¬ IdctAcc .ref32 f ∧ ¬ Acc .ref32

/-- Closed loop of key frames (R250): an engine fed with what `EMITKEY` writes after `XFKEY` holds the encoder's own
reference. -/
def Obligations.KeyClosedLoop : Prop :=
  ∀ s t u d : State, s.cfg.Legal → s.fstage = .raw → exec .xfkey s = .next t → exec .emitkey t = .next u →
    u.err = .ok → d.cfg.num = s.cfg.num → legalDims d.cfg s.W s.H → FedWith d u →
    ∃ v, exec .deckey d = .next v ∧ v.err = .ok ∧ v.refv = true ∧ v.frmW = s.frmW ∧ v.frmH = s.frmH ∧ v.ref = t.ref

/-- Closed loop of predicted frames (R314). -/
def Obligations.PredictedClosedLoop : Prop :=
  ∀ s t u d : State, s.cfg.Legal → s.fstage = .raw → s.refv = true → exec .xfp s = .next t →
    exec .emitp t = .next u → u.err = .ok → d.frmW = s.frmW → d.frmH = s.frmH → d.cfg.num = s.cfg.num →
    s.R ≤ d.R → d.refv = true → d.ref = s.ref → FedWith d u →
    ∃ v, exec .decp d = .next v ∧ v.err = .ok ∧ v.ref = t.ref

/-- `XFP` does to `MV`, `PRED` and `RES` what the nine leaf commands do (R306). A sequence of commands stops at the first
that leaves `ERR` ≠ 0, and the four pseudo-commands are such sequences (R97). -/
def Obligations.XfpEqualsLeafCommands : Prop :=
  (∀ s : State, runSequence [] s = .next s ∧
    ∀ (i : Instr) (rest : List Instr) (t : State), exec i s = .next t →
      runSequence (i :: rest) s = if t.err = .ok then runSequence rest t else .next t) ∧
  (∀ s : State,
    runPseudo .enckey s = runSequence [.ldpix, .xfkey, .emitkey] s ∧
    runPseudo .encp s = runSequence [.ldpix, .xfp, .emitp] s ∧
    ∀ (q : Table) (b : Bool),
      runPseudo (.blkenc q b) s = runSequence [.fdct b, .quant q, .zz] s ∧
      runPseudo (.blkdec q b) s = runSequence [.unzz, .dequant q, .idct b] s) ∧
  ∀ s : State, s.fstage = .raw → s.refv = true →
    ∃ t u, exec .xfp s = .next t ∧
      runSequence [.mest .y, .mest .cb, .mest .cr, .mcomp .y, .mcomp .cb, .mcomp .cr, .resid .y, .resid .cb,
        .resid .cr] s = .next u ∧
      u.err = .ok ∧ u.mv = t.mv ∧ u.pred = t.pred ∧ u.res = t.res ∧ u.mvv = t.mvv ∧ u.predv = t.predv ∧ u.resv = t.resv

/-- A container `CHEMIT` writes is one `CHOPEN` accepts, and every frame's slice is the stream appended (R334, R340,
R342). -/
def Obligations.ContainerRoundTrip : Prop :=
  ∀ s t d : State, s.cfg.Legal → s.cheCount.toNat = s.chs.length → (∀ z ∈ s.chs, z.length < 2 ^ 32) →
    exec .chemit s = .next t → t.err = .ok → s.cheCount.toNat ≤ d.cfg.chMax →
    legalDims d.cfg s.cheW.toNat s.cheH.toNat → FedWith d t →
    ∃ u, exec .chopen d = .next u ∧ u.err = .ok ∧ u.frmW = s.cheW ∧ u.frmH = s.cheH ∧ u.chdCount = s.cheCount ∧
      u.chlen.map BitVec.toNat = s.chs.map List.length ∧
      ∀ (i : Nat) (z : List Byte), s.chs[i]? = some z →
        u.inBytes (12 + 4 * s.chs.length + ((s.chs.take i).map List.length).sum) z.length = z
end

