-- ==== Sys2Proof/Laws/Blocks.lean ====
section
/-! SUPPORT. Blocks, channels and planes: what their operations hold, entry by entry. -/

namespace Sys2Proof.Machine

/-! ### Blocks -/

@[simp] theorem mkBlock_getElem {α : Type} (f : Fin 64 → α) (n : Nat) (h : n < 64) : (mkBlock f)[n] = f ⟨n, h⟩ :=
  List.getElem_ofFn (f := f) (i := n) (by simpa using h)

@[simp] theorem mkBlock_get {α : Type} (f : Fin 64 → α) (n : Fin 64) : (mkBlock f)[n] = f n :=
  mkBlock_getElem f n.val n.isLt

@[simp] theorem mapBlock_get {α β : Type} (f : α → β) (b : Block α) (n : Fin 64) : (mapBlock f b)[n] = f b[n] := by
  simp [mapBlock]

/-- Two blocks with the same entries are the same block. -/
theorem block_ext {α : Type} {a b : Block α} (h : ∀ n : Fin 64, a[n] = b[n]) : a = b :=
  Vector.ext fun i hi => h ⟨i, hi⟩

@[simp] theorem mkBlock_eta {α : Type} (b : Block α) : mkBlock (fun n => b[n]) = b := block_ext fun n => by simp

@[simp] theorem block_toList_length {α : Type} (b : Block α) : b.toList.length = 64 := by simp

theorem block_toList_all {α : Type} (b : Block α) (p : α → Bool) :
    b.toList.all p = true ↔ ∀ n : Fin 64, p b[n] = true := by
  simp only [List.all_eq_true, Vector.mem_toList_iff, Vector.mem_iff_getElem]
  constructor
  · intro h n; exact h _ ⟨n.val, n.isLt, rfl⟩
  · rintro h x ⟨i, hi, rfl⟩; exact h ⟨i, hi⟩

theorem blockAt_lt {α : Type} (b : Block α) (n : Nat) (d : α) (h : n < 64) : blockAt b n d = b[n] := by
  simp [blockAt, h]

theorem blockAt_ge {α : Type} (b : Block α) (n : Nat) (d : α) (h : 64 ≤ n) : blockAt b n d = d := by
  simp [blockAt, Nat.not_lt.mpr h]

theorem setIfInBounds_get {α : Type} (b : Block α) (i : Nat) (v : α) (n : Fin 64) :
    (b.setIfInBounds i v)[n] = if i = n.val then v else b[n] := by
  simp [Vector.getElem_setIfInBounds]

/-! ### Channels -/

@[simp] theorem PerCh.of_get {α : Type} (f : Ch → α) (c : Ch) : (PerCh.of f).get c = f c := by cases c <;> rfl

@[simp] theorem PerCh.set_get {α : Type} (p : PerCh α) (c d : Ch) (v : α) :
    (p.set c v).get d = if d = c then v else p.get d := by cases c <;> cases d <;> rfl

@[ext] theorem PerCh.ext_get {α : Type} {p q : PerCh α} (h : ∀ c, p.get c = q.get c) : p = q := by
  cases p; cases q
  have hy := h .y
  have hb := h .cb
  have hr := h .cr
  simp only [PerCh.get] at hy hb hr
  simp [hy, hb, hr]

/-! ### Planes -/

@[simp] theorem planeOf_length {α : Type} (w h : Nat) (f : Nat → Nat → α) : (planeOf w h f).length = w * h := by
  simp [planeOf, List.length_flatMap, Nat.mul_comm]

theorem planeOf_succ {α : Type} (w h : Nat) (f : Nat → Nat → α) :
    planeOf w (h + 1) f = planeOf w h f ++ (List.range w).map fun x => f x h := by
  simp [planeOf, List.range_succ, List.flatMap_append]

/-- Sample `(x, y)` of a plane stands at index `y * w + x` (spec R140). -/
theorem planeOf_getElem? {α : Type} (w h : Nat) (f : Nat → Nat → α) (x y : Nat) (hx : x < w) (hy : y < h) :
    (planeOf w h f)[y * w + x]? = some (f x y) := by
  induction h with
  | zero => omega
  | succ h ih =>
    rw [planeOf_succ]
    by_cases hyh : y < h
    · have : y * w + x < (planeOf w h f).length := by
        rw [planeOf_length]
        calc y * w + x < y * w + w := by omega
          _ = (y + 1) * w := by ring
          _ ≤ h * w := Nat.mul_le_mul_right w hyh
          _ = w * h := Nat.mul_comm _ _
      rw [List.getElem?_append_left this]
      exact ih hyh
    · have hyh' : y = h := by omega
      subst hyh'
      rw [List.getElem?_append_right (by rw [planeOf_length, Nat.mul_comm]; omega), planeOf_length]
      have : y * w + x - w * y = x := by rw [Nat.mul_comm w y]; omega
      simp [this, hx]

theorem sampleAt_planeOf (w h : Nat) (f : Nat → Nat → Byte) (x y : Nat) (hx : x < w) (hy : y < h) :
    sampleAt (planeOf w h f) w x y = f x y := by
  simp [sampleAt, List.getD, planeOf_getElem? w h f x y hx hy]

theorem resAt_planeOf (w h : Nat) (f : Nat → Nat → Int) (x y : Nat) (hx : x < w) (hy : y < h) :
    resAt (planeOf w h f) w x y = f x y := by
  simp [resAt, List.getD, planeOf_getElem? w h f x y hx hy]

/-- Every index of a plane is that of a sample. -/
theorem plane_index (w h k : Nat) (hk : k < w * h) : k % w < w ∧ k / w < h ∧ k / w * w + k % w = k := by
  have hw : 0 < w := by
    rcases Nat.eq_zero_or_pos w with h0 | h0
    · simp [h0] at hk
    · exact h0
  exact ⟨Nat.mod_lt _ hw, Nat.div_lt_of_lt_mul hk, Nat.div_add_mod' k w⟩

/-- Two planes of one size with the same samples are equal. -/
theorem plane_ext {α : Type} {w h : Nat} {p q : List α} (hp : p.length = w * h) (hq : q.length = w * h)
    (hs : ∀ x y, x < w → y < h → p[y * w + x]? = q[y * w + x]?) : p = q := by
  apply List.ext_getElem?
  intro k
  by_cases hk : k < w * h
  · obtain ⟨h1, h2, h3⟩ := plane_index w h k hk
    have := hs (k % w) (k / w) h1 h2
    rwa [h3] at this
  · rw [List.getElem?_eq_none (by omega), List.getElem?_eq_none (by omega)]

/-! ### Slices -/

@[simp] theorem slice_length {α : Type} (l : List α) (i j : Nat) : (slice l i j).length = min (j - i) (l.length - i) := by
  simp [slice]

theorem slice_getElem? {α : Type} (l : List α) (i j k : Nat) (h : k < j - i) : (slice l i j)[k]? = l[i + k]? := by
  simp [slice, h]

/-! ### Sizes of coded planes -/

@[simp] theorem encPlane_length (num : NumSel) (p : Nat → Nat → Int) (pw ph : Nat) (q : Block Nat) (b : Bool) :
    (encPlane num p pw ph q b).length = 64 * blockCount pw ph := by
  simp [encPlane, List.length_flatMap, blockCount]
  ring

@[simp] theorem coefOf_length (num : NumSel) (w h : Nat) (p : Ch → Nat → Nat → Int) (b : Bool) :
    (coefOf num w h p b).length = lenCoef w h := by
  simp [coefOf, lenCoef, nY, nC, planeW, planeH]
  ring

@[simp] theorem assemble_length (bs : List (Block Int)) (pw ph : Nat) : (assemble bs pw ph).length = pw * ph := by
  simp [assemble]

@[simp] theorem decPlane_length (num : NumSel) (z : List Byte) (pw ph : Nat) (q : Block Nat) :
    (decPlane num z pw ph q).length = pw * ph := by
  simp [decPlane]

@[simp] theorem keyPlanes_length (num : NumSel) (w h : Nat) (z : List Byte) (c : Ch) :
    ((keyPlanes num w h z).get c).length = planeW w c * planeH h c := by
  simp [keyPlanes, restoreKey, planesOfCoef]

end Sys2Proof.Machine
end

