-- ==== Sys2Proof/Laws/Memory.lean ====
section
/-! SUPPORT. Byte stores: read after write, canonical form, the store of a byte list, and reads of a range. -/

namespace Sys2Proof.Machine

@[simp] theorem Memory.read_nil (a : Nat) : Memory.read [] a = none := rfl

/-- A store whose addresses all lie above `a` lists nothing at `a`. -/
theorem Memory.read_eq_none_of_lt {m : Memory} {n a : Nat} (h : m.wfFrom n = true) (ha : a < n) : m.read a = none := by
  cases m with
  | nil => rfl
  | cons c m =>
    obtain ⟨b, v⟩ := c
    simp only [Memory.wfFrom, Bool.and_eq_true, decide_eq_true_eq] at h
    have h1 : a ≠ b := by omega
    have h2 : a < b := by omega
    simp [Memory.read, h1, h2]

/-- Reading after a write to a store in canonical form: the byte written there, every other address as before. -/
theorem Memory.read_writeFrom {m : Memory} {n : Nat} (h : m.wfFrom n = true) (a b : Nat) (v : Byte) :
    (m.write a v).read b = if b = a then some v else m.read b := by
  induction m generalizing n with
  | nil =>
    by_cases hb : b = a
    · simp [Memory.write, Memory.read, hb]
    · simp [Memory.write, Memory.read, hb]
  | cons c m ih =>
    obtain ⟨d, u⟩ := c
    simp only [Memory.wfFrom, Bool.and_eq_true, decide_eq_true_eq] at h
    by_cases had : a < d
    · by_cases hb : b = a
      · subst hb; simp [Memory.write, had, Memory.read]
      · by_cases hlt : b < a
        · have h1 : b ≠ d := by omega
          have h2 : b < d := by omega
          simp [Memory.write, had, Memory.read, hb, hlt, h1, h2]
        · simp [Memory.write, had, Memory.read, hb, hlt]
    · by_cases hae : a = d
      · subst hae
        by_cases hb : b = a
        · simp [Memory.write, Memory.read, hb]
        · simp [Memory.write, Memory.read, hb]
      · by_cases hbd : b = d
        · have : b ≠ a := by omega
          simp [Memory.write, had, hae, Memory.read, hbd, Ne.symm hae]
        · by_cases hlt : b < d
          · have : b ≠ a := by omega
            simp [Memory.write, had, hae, Memory.read, hbd, hlt, this]
          · simp [Memory.write, had, hae, Memory.read, hbd, hlt, ih h.2]

/-- Read after write on a canonical store. -/
theorem Memory.read_write {m : Memory} (h : m.wf = true) (a b : Nat) (v : Byte) :
    (m.write a v).read b = if b = a then some v else m.read b :=
  Memory.read_writeFrom h a b v

theorem Memory.wfFrom_mono {m : Memory} {n k : Nat} (h : m.wfFrom n = true) (hk : k ≤ n) : m.wfFrom k = true := by
  cases m with
  | nil => rfl
  | cons c m =>
    simp only [Memory.wfFrom, Bool.and_eq_true, decide_eq_true_eq] at h ⊢
    exact ⟨by omega, h.2⟩

theorem Memory.wfFrom_write {m : Memory} {n a : Nat} (v : Byte) (h : m.wfFrom n = true) (ha : n ≤ a) :
    (m.write a v).wfFrom n = true := by
  induction m generalizing n with
  | nil => simp [Memory.write, Memory.wfFrom, ha]
  | cons c m ih =>
    obtain ⟨d, u⟩ := c
    simp only [Memory.wfFrom, Bool.and_eq_true, decide_eq_true_eq] at h
    by_cases had : a < d
    · have : a + 1 ≤ d := by omega
      simp [Memory.write, had, Memory.wfFrom, ha, h.2, this]
    · by_cases hae : a = d
      · subst hae; simp [Memory.write, Memory.wfFrom, ha, h.2]
      · have := ih (n := d + 1) h.2 (by omega)
        simp [Memory.write, had, hae, Memory.wfFrom, h.1, this]

/-- A write keeps the canonical form. -/
theorem Memory.wf_write {m : Memory} (a : Nat) (v : Byte) (h : m.wf = true) : (m.write a v).wf = true :=
  Memory.wfFrom_write v h (Nat.zero_le _)

theorem Memory.below_write {m : Memory} {n a : Nat} (v : Byte) (h : m.below n = true) (ha : a < n) :
    (m.write a v).below n = true := by
  induction m with
  | nil => simp [Memory.write, Memory.below, ha]
  | cons c m ih =>
    obtain ⟨d, u⟩ := c
    simp only [Memory.below, List.all_cons, Bool.and_eq_true, decide_eq_true_eq] at h ih
    by_cases had : a < d
    · simp only [Memory.write, had, if_true, Memory.below, List.all_cons, Bool.and_eq_true, decide_eq_true_eq]
      exact ⟨ha, h.1, h.2⟩
    · by_cases hae : a = d
      · simp only [Memory.write, hae, if_true, if_false, Memory.below, List.all_cons, Bool.and_eq_true,
          decide_eq_true_eq, lt_irrefl]
        exact ⟨by omega, h.2⟩
      · simp only [Memory.write, had, hae, if_false, Memory.below, List.all_cons, Bool.and_eq_true,
          decide_eq_true_eq]
        exact ⟨h.1, ih h.2⟩

theorem Memory.wfFrom_ofBytes (l : List Byte) (a : Nat) : (Memory.ofBytes l a).wfFrom a = true := by
  induction l generalizing a with
  | nil => rfl
  | cons v l ih => simp [Memory.ofBytes, Memory.wfFrom, ih]

/-- The store of a byte list is in canonical form. -/
theorem Memory.wf_ofBytes (l : List Byte) (a : Nat) : (Memory.ofBytes l a).wf = true :=
  Memory.wfFrom_mono (Memory.wfFrom_ofBytes l a) (Nat.zero_le _)

/-- The store of a byte list lists exactly its bytes. -/
theorem Memory.read_ofBytes (l : List Byte) (a b : Nat) :
    (Memory.ofBytes l a).read b = if a ≤ b then l[b - a]? else none := by
  induction l generalizing a with
  | nil => simp [Memory.ofBytes]
  | cons v l ih =>
    by_cases hb : b = a
    · simp [Memory.ofBytes, Memory.read, hb]
    · by_cases hlt : b < a
      · have : ¬ a ≤ b := by omega
        simp [Memory.ofBytes, Memory.read, hb, hlt, this]
      · have h1 : a ≤ b := by omega
        have h2 : a + 1 ≤ b := by omega
        have h3 : b - a = (b - (a + 1)) + 1 := by omega
        simp [Memory.ofBytes, Memory.read, hb, hlt, ih, h1, h2, h3]

theorem Memory.below_ofBytes (l : List Byte) (a n : Nat) (h : a + l.length ≤ n) :
    (Memory.ofBytes l a).below n = true := by
  induction l generalizing a with
  | nil => rfl
  | cons v l ih =>
    simp only [List.length_cons] at h
    simp only [Memory.ofBytes, Memory.below, List.all_cons, Bool.and_eq_true, decide_eq_true_eq]
    exact ⟨by omega, ih (a + 1) (by omega)⟩

/-- The state after power-on has both buffers in canonical form. -/
theorem State.reset_wf : State.reset.inbuf.wf = true ∧ State.reset.outbuf.wf = true := ⟨rfl, rfl⟩

/-- A completed command leaves `OUTBUF` in canonical form. -/
theorem State.done_wf (s : State) (out : List Byte) : (s.done out).outbuf.wf = true := Memory.wf_ofBytes out 0

/-- An aborted command leaves `OUTBUF` in canonical form. -/
theorem State.abort_wf (s : State) (e : Err) : (s.abort e).outbuf.wf = true := rfl

/-- What the host reads of the output of a completed command (spec R63). -/
theorem State.done_outByte (s : State) (out : List Byte) (a : Nat) (h : a < out.length) :
    (s.done out).outByte a = out[a] := by
  simp [State.outByte, State.done, Memory.read_ofBytes, h]

@[simp] theorem State.inBytes_length (s : State) (o n : Nat) : (s.inBytes o n).length = n := by
  simp [State.inBytes]

/-- Byte `i` of a range of `INBUF` (spec R11, R62). -/
theorem State.inBytes_getElem? (s : State) (o n i : Nat) (h : i < n) :
    (s.inBytes o n)[i]? = some (s.inByte (o + i)) := by
  simp [State.inBytes, h]

theorem State.byteAt_inBytes (s : State) (o n i : Nat) (h : i < n) :
    byteAt (s.inBytes o n) i = s.inByte (o + i) := by
  simp [byteAt, List.getD, State.inBytes_getElem? s o n i h]

end Sys2Proof.Machine
end

