-- ==== Sys2Proof/Laws/State.lean ====
section
/-! SUPPORT. One lemma per field per update of the state, each by `rfl`. A lemma `X_f` says what field `f` is after the
update `X`. -/

namespace Sys2Proof.Machine

/-! ### `State.done` -/

@[simp] theorem State.done_cfg (s : State) (out : List Byte) : (s.done out).cfg = s.cfg := rfl
@[simp] theorem State.done_host (s : State) (out : List Byte) : (s.done out).host = s.host := rfl
@[simp] theorem State.done_seen (s : State) (out : List Byte) : (s.done out).seen = s.seen := rfl
@[simp] theorem State.done_outGen (s : State) (out : List Byte) : (s.done out).outGen = s.outGen + 1 := rfl
@[simp] theorem State.done_err (s : State) (out : List Byte) : (s.done out).err = .ok := rfl
@[simp] theorem State.done_firstErr (s : State) (out : List Byte) : (s.done out).firstErr = s.firstErr := rfl
@[simp] theorem State.done_fstage (s : State) (out : List Byte) : (s.done out).fstage = s.fstage := rfl
@[simp] theorem State.done_fkind (s : State) (out : List Byte) : (s.done out).fkind = s.fkind := rfl
@[simp] theorem State.done_refv (s : State) (out : List Byte) : (s.done out).refv = s.refv := rfl
@[simp] theorem State.done_mvv (s : State) (out : List Byte) : (s.done out).mvv = s.mvv := rfl
@[simp] theorem State.done_predv (s : State) (out : List Byte) : (s.done out).predv = s.predv := rfl
@[simp] theorem State.done_resv (s : State) (out : List Byte) : (s.done out).resv = s.resv := rfl
@[simp] theorem State.done_chopen (s : State) (out : List Byte) : (s.done out).chopen = s.chopen := rfl
@[simp] theorem State.done_frmW (s : State) (out : List Byte) : (s.done out).frmW = s.frmW := rfl
@[simp] theorem State.done_frmH (s : State) (out : List Byte) : (s.done out).frmH = s.frmH := rfl
@[simp] theorem State.done_radius (s : State) (out : List Byte) : (s.done out).radius = s.radius := rfl
@[simp] theorem State.done_inLen (s : State) (out : List Byte) : (s.done out).inLen = s.inLen := rfl
@[simp] theorem State.done_outLen (s : State) (out : List Byte) : (s.done out).outLen = BitVec.ofNat 32 out.length := rfl
@[simp] theorem State.done_arg0 (s : State) (out : List Byte) : (s.done out).arg0 = s.arg0 := rfl
@[simp] theorem State.done_arg1 (s : State) (out : List Byte) : (s.done out).arg1 = s.arg1 := rfl
@[simp] theorem State.done_px (s : State) (out : List Byte) : (s.done out).px = s.px := rfl
@[simp] theorem State.done_yc (s : State) (out : List Byte) : (s.done out).yc = s.yc := rfl
@[simp] theorem State.done_sb (s : State) (out : List Byte) : (s.done out).sb = s.sb := rfl
@[simp] theorem State.done_tb (s : State) (out : List Byte) : (s.done out).tb = s.tb := rfl
@[simp] theorem State.done_qb (s : State) (out : List Byte) : (s.done out).qb = s.qb := rfl
@[simp] theorem State.done_zb (s : State) (out : List Byte) : (s.done out).zb = s.zb := rfl
@[simp] theorem State.done_inbuf (s : State) (out : List Byte) : (s.done out).inbuf = s.inbuf := rfl
@[simp] theorem State.done_outbuf (s : State) (out : List Byte) : (s.done out).outbuf = Memory.ofBytes out 0 := rfl
@[simp] theorem State.done_cur (s : State) (out : List Byte) : (s.done out).cur = s.cur := rfl
@[simp] theorem State.done_ref (s : State) (out : List Byte) : (s.done out).ref = s.ref := rfl
@[simp] theorem State.done_pred (s : State) (out : List Byte) : (s.done out).pred = s.pred := rfl
@[simp] theorem State.done_res (s : State) (out : List Byte) : (s.done out).res = s.res := rfl
@[simp] theorem State.done_mv (s : State) (out : List Byte) : (s.done out).mv = s.mv := rfl
@[simp] theorem State.done_coef (s : State) (out : List Byte) : (s.done out).coef = s.coef := rfl
@[simp] theorem State.done_chs (s : State) (out : List Byte) : (s.done out).chs = s.chs := rfl
@[simp] theorem State.done_cheCount (s : State) (out : List Byte) : (s.done out).cheCount = s.cheCount := rfl
@[simp] theorem State.done_cheW (s : State) (out : List Byte) : (s.done out).cheW = s.cheW := rfl
@[simp] theorem State.done_cheH (s : State) (out : List Byte) : (s.done out).cheH = s.cheH := rfl
@[simp] theorem State.done_chlen (s : State) (out : List Byte) : (s.done out).chlen = s.chlen := rfl
@[simp] theorem State.done_chdCount (s : State) (out : List Byte) : (s.done out).chdCount = s.chdCount := rfl
@[simp] theorem State.done_chdIdx (s : State) (out : List Byte) : (s.done out).chdIdx = s.chdIdx := rfl
@[simp] theorem State.done_chdOff (s : State) (out : List Byte) : (s.done out).chdOff = s.chdOff := rfl

/-! ### `State.abort` -/

@[simp] theorem State.abort_cfg (s : State) (e : Err) : (s.abort e).cfg = s.cfg := rfl
@[simp] theorem State.abort_host (s : State) (e : Err) : (s.abort e).host = s.host := rfl
@[simp] theorem State.abort_seen (s : State) (e : Err) : (s.abort e).seen = s.seen := rfl
@[simp] theorem State.abort_outGen (s : State) (e : Err) : (s.abort e).outGen = s.outGen + 1 := rfl
@[simp] theorem State.abort_err (s : State) (e : Err) : (s.abort e).err = e := rfl
@[simp] theorem State.abort_firstErr (s : State) (e : Err) : (s.abort e).firstErr = if s.firstErr = .ok then e else s.firstErr := rfl
@[simp] theorem State.abort_fstage (s : State) (e : Err) : (s.abort e).fstage = s.fstage := rfl
@[simp] theorem State.abort_fkind (s : State) (e : Err) : (s.abort e).fkind = s.fkind := rfl
@[simp] theorem State.abort_refv (s : State) (e : Err) : (s.abort e).refv = s.refv := rfl
@[simp] theorem State.abort_mvv (s : State) (e : Err) : (s.abort e).mvv = s.mvv := rfl
@[simp] theorem State.abort_predv (s : State) (e : Err) : (s.abort e).predv = s.predv := rfl
@[simp] theorem State.abort_resv (s : State) (e : Err) : (s.abort e).resv = s.resv := rfl
@[simp] theorem State.abort_chopen (s : State) (e : Err) : (s.abort e).chopen = s.chopen := rfl
@[simp] theorem State.abort_frmW (s : State) (e : Err) : (s.abort e).frmW = s.frmW := rfl
@[simp] theorem State.abort_frmH (s : State) (e : Err) : (s.abort e).frmH = s.frmH := rfl
@[simp] theorem State.abort_radius (s : State) (e : Err) : (s.abort e).radius = s.radius := rfl
@[simp] theorem State.abort_inLen (s : State) (e : Err) : (s.abort e).inLen = s.inLen := rfl
@[simp] theorem State.abort_outLen (s : State) (e : Err) : (s.abort e).outLen = 0 := rfl
@[simp] theorem State.abort_arg0 (s : State) (e : Err) : (s.abort e).arg0 = s.arg0 := rfl
@[simp] theorem State.abort_arg1 (s : State) (e : Err) : (s.abort e).arg1 = s.arg1 := rfl
@[simp] theorem State.abort_px (s : State) (e : Err) : (s.abort e).px = s.px := rfl
@[simp] theorem State.abort_yc (s : State) (e : Err) : (s.abort e).yc = s.yc := rfl
@[simp] theorem State.abort_sb (s : State) (e : Err) : (s.abort e).sb = s.sb := rfl
@[simp] theorem State.abort_tb (s : State) (e : Err) : (s.abort e).tb = s.tb := rfl
@[simp] theorem State.abort_qb (s : State) (e : Err) : (s.abort e).qb = s.qb := rfl
@[simp] theorem State.abort_zb (s : State) (e : Err) : (s.abort e).zb = s.zb := rfl
@[simp] theorem State.abort_inbuf (s : State) (e : Err) : (s.abort e).inbuf = s.inbuf := rfl
@[simp] theorem State.abort_outbuf (s : State) (e : Err) : (s.abort e).outbuf = [] := rfl
@[simp] theorem State.abort_cur (s : State) (e : Err) : (s.abort e).cur = s.cur := rfl
@[simp] theorem State.abort_ref (s : State) (e : Err) : (s.abort e).ref = s.ref := rfl
@[simp] theorem State.abort_pred (s : State) (e : Err) : (s.abort e).pred = s.pred := rfl
@[simp] theorem State.abort_res (s : State) (e : Err) : (s.abort e).res = s.res := rfl
@[simp] theorem State.abort_mv (s : State) (e : Err) : (s.abort e).mv = s.mv := rfl
@[simp] theorem State.abort_coef (s : State) (e : Err) : (s.abort e).coef = s.coef := rfl
@[simp] theorem State.abort_chs (s : State) (e : Err) : (s.abort e).chs = s.chs := rfl
@[simp] theorem State.abort_cheCount (s : State) (e : Err) : (s.abort e).cheCount = s.cheCount := rfl
@[simp] theorem State.abort_cheW (s : State) (e : Err) : (s.abort e).cheW = s.cheW := rfl
@[simp] theorem State.abort_cheH (s : State) (e : Err) : (s.abort e).cheH = s.cheH := rfl
@[simp] theorem State.abort_chlen (s : State) (e : Err) : (s.abort e).chlen = s.chlen := rfl
@[simp] theorem State.abort_chdCount (s : State) (e : Err) : (s.abort e).chdCount = s.chdCount := rfl
@[simp] theorem State.abort_chdIdx (s : State) (e : Err) : (s.abort e).chdIdx = s.chdIdx := rfl
@[simp] theorem State.abort_chdOff (s : State) (e : Err) : (s.abort e).chdOff = s.chdOff := rfl

/-! ### `State.setDims` -/

@[simp] theorem State.setDims_cfg (s : State) (w h : Word) : (s.setDims w h).cfg = s.cfg := rfl
@[simp] theorem State.setDims_host (s : State) (w h : Word) : (s.setDims w h).host = s.host := rfl
@[simp] theorem State.setDims_seen (s : State) (w h : Word) : (s.setDims w h).seen = s.seen := rfl
@[simp] theorem State.setDims_outGen (s : State) (w h : Word) : (s.setDims w h).outGen = s.outGen := rfl
@[simp] theorem State.setDims_err (s : State) (w h : Word) : (s.setDims w h).err = s.err := rfl
@[simp] theorem State.setDims_firstErr (s : State) (w h : Word) : (s.setDims w h).firstErr = s.firstErr := rfl
@[simp] theorem State.setDims_fstage (s : State) (w h : Word) : (s.setDims w h).fstage = .empty := rfl
@[simp] theorem State.setDims_fkind (s : State) (w h : Word) : (s.setDims w h).fkind = .key := rfl
@[simp] theorem State.setDims_refv (s : State) (w h : Word) : (s.setDims w h).refv = false := rfl
@[simp] theorem State.setDims_mvv (s : State) (w h : Word) : (s.setDims w h).mvv = ⟨false, false, false⟩ := rfl
@[simp] theorem State.setDims_predv (s : State) (w h : Word) : (s.setDims w h).predv = ⟨false, false, false⟩ := rfl
@[simp] theorem State.setDims_resv (s : State) (w h : Word) : (s.setDims w h).resv = ⟨false, false, false⟩ := rfl
@[simp] theorem State.setDims_chopen (s : State) (w h : Word) : (s.setDims w h).chopen = s.chopen := rfl
@[simp] theorem State.setDims_frmW (s : State) (w h : Word) : (s.setDims w h).frmW = w := rfl
@[simp] theorem State.setDims_frmH (s : State) (w h : Word) : (s.setDims w h).frmH = h := rfl
@[simp] theorem State.setDims_radius (s : State) (w h : Word) : (s.setDims w h).radius = s.radius := rfl
@[simp] theorem State.setDims_inLen (s : State) (w h : Word) : (s.setDims w h).inLen = s.inLen := rfl
@[simp] theorem State.setDims_outLen (s : State) (w h : Word) : (s.setDims w h).outLen = s.outLen := rfl
@[simp] theorem State.setDims_arg0 (s : State) (w h : Word) : (s.setDims w h).arg0 = s.arg0 := rfl
@[simp] theorem State.setDims_arg1 (s : State) (w h : Word) : (s.setDims w h).arg1 = s.arg1 := rfl
@[simp] theorem State.setDims_px (s : State) (w h : Word) : (s.setDims w h).px = s.px := rfl
@[simp] theorem State.setDims_yc (s : State) (w h : Word) : (s.setDims w h).yc = s.yc := rfl
@[simp] theorem State.setDims_sb (s : State) (w h : Word) : (s.setDims w h).sb = s.sb := rfl
@[simp] theorem State.setDims_tb (s : State) (w h : Word) : (s.setDims w h).tb = s.tb := rfl
@[simp] theorem State.setDims_qb (s : State) (w h : Word) : (s.setDims w h).qb = s.qb := rfl
@[simp] theorem State.setDims_zb (s : State) (w h : Word) : (s.setDims w h).zb = s.zb := rfl
@[simp] theorem State.setDims_inbuf (s : State) (w h : Word) : (s.setDims w h).inbuf = s.inbuf := rfl
@[simp] theorem State.setDims_outbuf (s : State) (w h : Word) : (s.setDims w h).outbuf = s.outbuf := rfl
@[simp] theorem State.setDims_cur (s : State) (w h : Word) : (s.setDims w h).cur = s.cur := rfl
@[simp] theorem State.setDims_ref (s : State) (w h : Word) : (s.setDims w h).ref = s.ref := rfl
@[simp] theorem State.setDims_pred (s : State) (w h : Word) : (s.setDims w h).pred = s.pred := rfl
@[simp] theorem State.setDims_res (s : State) (w h : Word) : (s.setDims w h).res = s.res := rfl
@[simp] theorem State.setDims_mv (s : State) (w h : Word) : (s.setDims w h).mv = s.mv := rfl
@[simp] theorem State.setDims_coef (s : State) (w h : Word) : (s.setDims w h).coef = s.coef := rfl
@[simp] theorem State.setDims_chs (s : State) (w h : Word) : (s.setDims w h).chs = s.chs := rfl
@[simp] theorem State.setDims_cheCount (s : State) (w h : Word) : (s.setDims w h).cheCount = s.cheCount := rfl
@[simp] theorem State.setDims_cheW (s : State) (w h : Word) : (s.setDims w h).cheW = s.cheW := rfl
@[simp] theorem State.setDims_cheH (s : State) (w h : Word) : (s.setDims w h).cheH = s.cheH := rfl
@[simp] theorem State.setDims_chlen (s : State) (w h : Word) : (s.setDims w h).chlen = s.chlen := rfl
@[simp] theorem State.setDims_chdCount (s : State) (w h : Word) : (s.setDims w h).chdCount = s.chdCount := rfl
@[simp] theorem State.setDims_chdIdx (s : State) (w h : Word) : (s.setDims w h).chdIdx = s.chdIdx := rfl
@[simp] theorem State.setDims_chdOff (s : State) (w h : Word) : (s.setDims w h).chdOff = s.chdOff := rfl

/-! ### `State.warmReset` -/

@[simp] theorem State.warmReset_cfg (s : State) : (s.warmReset).cfg = s.cfg := rfl
@[simp] theorem State.warmReset_host (s : State) : (s.warmReset).host = s.host := rfl
@[simp] theorem State.warmReset_seen (s : State) : (s.warmReset).seen = s.seen := rfl
@[simp] theorem State.warmReset_outGen (s : State) : (s.warmReset).outGen = s.outGen := rfl
@[simp] theorem State.warmReset_err (s : State) : (s.warmReset).err = State.reset.err := rfl
@[simp] theorem State.warmReset_firstErr (s : State) : (s.warmReset).firstErr = State.reset.firstErr := rfl
@[simp] theorem State.warmReset_fstage (s : State) : (s.warmReset).fstage = State.reset.fstage := rfl
@[simp] theorem State.warmReset_fkind (s : State) : (s.warmReset).fkind = State.reset.fkind := rfl
@[simp] theorem State.warmReset_refv (s : State) : (s.warmReset).refv = State.reset.refv := rfl
@[simp] theorem State.warmReset_mvv (s : State) : (s.warmReset).mvv = State.reset.mvv := rfl
@[simp] theorem State.warmReset_predv (s : State) : (s.warmReset).predv = State.reset.predv := rfl
@[simp] theorem State.warmReset_resv (s : State) : (s.warmReset).resv = State.reset.resv := rfl
@[simp] theorem State.warmReset_chopen (s : State) : (s.warmReset).chopen = State.reset.chopen := rfl
@[simp] theorem State.warmReset_frmW (s : State) : (s.warmReset).frmW = State.reset.frmW := rfl
@[simp] theorem State.warmReset_frmH (s : State) : (s.warmReset).frmH = State.reset.frmH := rfl
@[simp] theorem State.warmReset_radius (s : State) : (s.warmReset).radius = State.reset.radius := rfl
@[simp] theorem State.warmReset_inLen (s : State) : (s.warmReset).inLen = State.reset.inLen := rfl
@[simp] theorem State.warmReset_outLen (s : State) : (s.warmReset).outLen = State.reset.outLen := rfl
@[simp] theorem State.warmReset_arg0 (s : State) : (s.warmReset).arg0 = State.reset.arg0 := rfl
@[simp] theorem State.warmReset_arg1 (s : State) : (s.warmReset).arg1 = State.reset.arg1 := rfl
@[simp] theorem State.warmReset_px (s : State) : (s.warmReset).px = State.reset.px := rfl
@[simp] theorem State.warmReset_yc (s : State) : (s.warmReset).yc = State.reset.yc := rfl
@[simp] theorem State.warmReset_sb (s : State) : (s.warmReset).sb = State.reset.sb := rfl
@[simp] theorem State.warmReset_tb (s : State) : (s.warmReset).tb = State.reset.tb := rfl
@[simp] theorem State.warmReset_qb (s : State) : (s.warmReset).qb = State.reset.qb := rfl
@[simp] theorem State.warmReset_zb (s : State) : (s.warmReset).zb = State.reset.zb := rfl
@[simp] theorem State.warmReset_inbuf (s : State) : (s.warmReset).inbuf = s.inbuf := rfl
@[simp] theorem State.warmReset_outbuf (s : State) : (s.warmReset).outbuf = s.outbuf := rfl
@[simp] theorem State.warmReset_cur (s : State) : (s.warmReset).cur = s.cur := rfl
@[simp] theorem State.warmReset_ref (s : State) : (s.warmReset).ref = s.ref := rfl
@[simp] theorem State.warmReset_pred (s : State) : (s.warmReset).pred = s.pred := rfl
@[simp] theorem State.warmReset_res (s : State) : (s.warmReset).res = s.res := rfl
@[simp] theorem State.warmReset_mv (s : State) : (s.warmReset).mv = s.mv := rfl
@[simp] theorem State.warmReset_coef (s : State) : (s.warmReset).coef = s.coef := rfl
@[simp] theorem State.warmReset_chs (s : State) : (s.warmReset).chs = State.reset.chs := rfl
@[simp] theorem State.warmReset_cheCount (s : State) : (s.warmReset).cheCount = State.reset.cheCount := rfl
@[simp] theorem State.warmReset_cheW (s : State) : (s.warmReset).cheW = State.reset.cheW := rfl
@[simp] theorem State.warmReset_cheH (s : State) : (s.warmReset).cheH = State.reset.cheH := rfl
@[simp] theorem State.warmReset_chlen (s : State) : (s.warmReset).chlen = State.reset.chlen := rfl
@[simp] theorem State.warmReset_chdCount (s : State) : (s.warmReset).chdCount = State.reset.chdCount := rfl
@[simp] theorem State.warmReset_chdIdx (s : State) : (s.warmReset).chdIdx = State.reset.chdIdx := rfl
@[simp] theorem State.warmReset_chdOff (s : State) : (s.warmReset).chdOff = State.reset.chdOff := rfl

/-! ### Geometry reads only the dimensions -/

@[simp] theorem State.done_W (s : State) (out : List Byte) : (s.done out).W = s.W := rfl
@[simp] theorem State.done_H (s : State) (out : List Byte) : (s.done out).H = s.H := rfl
@[simp] theorem State.done_R (s : State) (out : List Byte) : (s.done out).R = s.R := rfl
@[simp] theorem State.abort_W (s : State) (e : Err) : (s.abort e).W = s.W := rfl
@[simp] theorem State.abort_H (s : State) (e : Err) : (s.abort e).H = s.H := rfl
@[simp] theorem State.abort_R (s : State) (e : Err) : (s.abort e).R = s.R := rfl
@[simp] theorem State.setDims_W (s : State) (w h : Word) : (s.setDims w h).W = w.toNat := rfl
@[simp] theorem State.setDims_H (s : State) (w h : Word) : (s.setDims w h).H = h.toNat := rfl
@[simp] theorem State.done_inByte (s : State) (out : List Byte) (a : Nat) : (s.done out).inByte a = s.inByte a := rfl
@[simp] theorem State.abort_inByte (s : State) (e : Err) (a : Nat) : (s.abort e).inByte a = s.inByte a := rfl
@[simp] theorem State.warmReset_inByte (s : State) (a : Nat) : s.warmReset.inByte a = s.inByte a := rfl
@[simp] theorem State.warmReset_outByte (s : State) (a : Nat) : s.warmReset.outByte a = s.outByte a := rfl

/-- Completing is exactly this update (spec R37, R47, R51). -/
theorem State.done_eq (s : State) (out : List Byte) : s.done out =
    { s with
      err := .ok, outLen := BitVec.ofNat 32 out.length, outbuf := Memory.ofBytes out 0,
      outGen := s.outGen + 1 } := rfl

/-- Aborting is exactly this update (spec R366). -/
theorem State.abort_eq (s : State) (e : Err) : s.abort e =
    { s with
      err := e, firstErr := if s.firstErr = .ok then e else s.firstErr, outLen := 0, outbuf := [],
      outGen := s.outGen + 1 } := rfl

end Sys2Proof.Machine
end

