-- ==== Sys2Proof/Laws/Ops.lean ====
section
/-! SUPPORT. One lemma per shared operation of the commands: what it answers, said once. -/

namespace Sys2Proof.Machine

/-! ### PSValid (R158) -/

theorem State.planeSetError_cur (s : State) (need : Ch → Bool) :
    s.planeSetError .cur need = if s.fstage = .empty then some .badRequest else none := rfl

theorem State.planeSetError_ref (s : State) (need : Ch → Bool) :
    s.planeSetError .ref need = if s.refv = true then none else some .missingReference := rfl

/-- `PSValid` answers no error exactly when the plane set is valid for the channels needed (spec R158). -/
theorem State.planeSetError_eq_none (s : State) (ps : PlaneSet) (need : Ch → Bool) :
    s.planeSetError ps need = none ↔
      match ps with
      | .cur => s.fstage ≠ .empty
      | .ref => s.refv = true
      | .pred => ∀ c : Ch, need c = true → s.predv.get c = true
      | .res => ∀ c : Ch, need c = true → s.resv.get c = true := by
  have all : ∀ P : Ch → Prop, (∀ c ∈ [Ch.y, Ch.cb, Ch.cr], P c) ↔ ∀ c, P c := fun P =>
    ⟨fun h c => h c (by cases c <;> simp), fun h c _ => h c⟩
  cases ps
  · simp [State.planeSetError]
  · simp [State.planeSetError]
  · simp only [State.planeSetError, ite_eq_left_iff, reduceCtorEq, imp_false, not_not]
    exact all fun c => need c = true → s.predv.get c = true
  · simp only [State.planeSetError, ite_eq_left_iff, reduceCtorEq, imp_false, not_not]
    exact all fun c => need c = true → s.resv.get c = true

/-- An error `PSValid` raises is `MissingReference` for `REF` and `BadRequest` for the others (spec R158). -/
theorem State.planeSetError_eq_some {s : State} {ps : PlaneSet} {need : Ch → Bool} {e : Err}
    (h : s.planeSetError ps need = some e) : e = if ps = .ref then .missingReference else .badRequest := by
  cases ps <;> simp only [State.planeSetError] at h <;> split at h <;> simp_all

/-! ### Streams -/

/-- A still-frame payload is accepted exactly when it decodes to `LC` bytes (spec R254). -/
theorem keyPayload_ok {w h : Nat} {z p : List Byte} :
    keyPayload w h z = .ok p ↔ mrleDec z = some p ∧ p.length = lenCoef w h := by
  unfold keyPayload
  cases hz : mrleDec z with
  | none => simp
  | some q =>
    by_cases hq : q.length = lenCoef w h
    · simp only [hq, ne_eq, not_true_eq_false, if_false, Except.ok.injEq, Option.some.injEq]
      constructor
      · rintro rfl; exact ⟨rfl, hq⟩
      · exact fun hp => hp.1
    · simp only [ne_eq, hq, not_false_eq_true, if_true, reduceCtorEq, Option.some.injEq, false_iff, not_and]
      rintro rfl; exact hq

/-- A check that fails names an error. -/
theorem keyPayload_error {w h : Nat} {z : List Byte} {e : Err} (he : keyPayload w h z = .error e) : e ≠ .ok := by
  unfold keyPayload at he
  split at he
  · cases he; decide
  · split at he
    · cases he; decide
    · cases he

/-- A check that fails names an error. -/
theorem State.decodePredicted_error {s : State} {z : List Byte} {e : Err} (he : s.decodePredicted z = .error e) :
    e ≠ .ok := by
  unfold State.decodePredicted at he
  split at he
  · cases he; decide
  · dsimp only at he
    split_ifs at he <;> cases he <;> decide

/-- A check that fails names an error. -/
theorem parseContainer_error {p : Params} {b : List Byte} {e : Err} (he : parseContainer p b = .error e) : e ≠ .ok := by
  unfold parseContainer at he
  dsimp only at he
  split_ifs at he <;> cases he <;> decide

/-- A check that fails names an error. -/
theorem State.decodeNext_error {s : State} {z : List Byte} {e : Err} (he : s.decodeNext z = .error e) : e ≠ .ok := by
  unfold State.decodeNext at he
  split at he
  · split at he
    · cases he; decide
    · split at he
      · cases he; decide
      · split at he
        · rename_i h
          cases he; exact keyPayload_error h
        · cases he
  · split at he
    · cases he; decide
    · exact State.decodePredicted_error he

/-- What a predicted payload that is accepted holds, and the planes it gives (spec R312). -/
theorem State.decodePredicted_ok {s : State} {z : List Byte} {r : PerCh Plane} :
    s.decodePredicted z = .ok r ↔
      ∃ p, mrleDec z = some p ∧ p.length = lenCoef s.W s.H + lenVec s.W s.H ∧
        (∀ c : Ch, fieldOk c (planeW s.W c) (planeH s.H c) s.R ((fieldsOf s.W s.H p).get c) = true) ∧
        r = reconPlanes s.cfg.num s.W s.H
          (PerCh.of fun c =>
            predict c (s.ref.get c) ((fieldsOf s.W s.H p).get c) (planeW s.W c) (planeH s.H c))
          (slice p 0 (lenCoef s.W s.H)) := by
  unfold State.decodePredicted
  cases hz : mrleDec z with
  | none => simp
  | some q =>
    simp only [Option.some.injEq, exists_eq_left']
    split_ifs with h1 h2 h3
    · simp; omega
    · simp; omega
    · have hl : q.length = lenCoef s.W s.H + lenVec s.W s.H := by omega
      have h3' : ∀ c : Ch, fieldOk c (planeW s.W c) (planeH s.H c) s.R ((fieldsOf s.W s.H q).get c) = true := by
        intro c
        rw [List.all_eq_true] at h3
        exact h3 c (by cases c <;> simp)
      simp only [Except.ok.injEq, hl, h3', implies_true, true_and]
      exact eq_comm
    · simp only [false_iff, not_and]
      intro _ h4
      exact absurd (List.all_eq_true.mpr fun c _ => h4 c) h3

/-- What a container header that is accepted holds (spec R342). -/
theorem parseContainer_ok {p : Params} {b : List Byte} {c : ContainerHead} :
    parseContainer p b = .ok c ↔
      c = ⟨rd32 b 0, lengthTable b (rd32 b 0), rd32 b (4 + 4 * rd32 b 0), rd32 b (8 + 4 * rd32 b 0)⟩ ∧
        1 ≤ c.count ∧ c.count ≤ p.chMax ∧ legalDims p c.w c.h ∧ b.length = 12 + 4 * c.count + c.lens.sum := by
  unfold parseContainer
  constructor
  · intro h
    dsimp only at h
    split_ifs at h with h1 h2 h3 h4 h5 h6 h7
    cases h
    exact ⟨rfl, by dsimp only; omega, by dsimp only; omega, h5, by dsimp only; omega⟩
  · rintro ⟨rfl, h1, h2, h3, h4⟩
    dsimp only at h1 h2 h3 h4 ⊢
    rw [if_neg (by omega), if_neg (by omega), if_neg (by omega), if_neg (by omega), if_neg (not_not.mpr h3),
      if_neg (by omega), if_neg (by omega)]

/-- What the next frame of a chain gives when it is accepted (spec R344). -/
theorem State.decodeNext_ok {s : State} {z : List Byte} {r : PerCh Plane} :
    s.decodeNext z = .ok r ↔
      (s.chdIdx = 0 ∧ 8 ≤ z.length ∧ rd32 z 0 = s.W ∧ rd32 z 4 = s.H ∧
        ∃ p, mrleDec (z.drop 8) = some p ∧ p.length = lenCoef s.W s.H ∧ r = keyPlanes s.cfg.num s.W s.H p) ∨
      (s.chdIdx ≠ 0 ∧ s.refv = true ∧ s.decodePredicted z = .ok r) := by
  unfold State.decodeNext
  by_cases h0 : s.chdIdx = 0
  · simp only [h0, if_true, true_and, ne_eq, not_true_eq_false, false_and, or_false]
    split_ifs with h1 h2
    · simp; omega
    · simp only [false_iff, not_and, not_exists]
      intro _ hw hh
      rcases h2 with h | h
      · exact absurd hw h
      · exact absurd hh h
    · rw [not_or, not_ne_iff, not_ne_iff] at h2
      cases hp : keyPayload s.W s.H (z.drop 8) with
      | error e =>
        simp only [reduceCtorEq, false_iff, not_and, not_exists]
        intro _ _ _ p hp1 hp2
        rw [keyPayload_ok.mpr ⟨hp1, hp2⟩] at hp
        cases hp
      | ok q =>
        obtain ⟨hq1, hq2⟩ := keyPayload_ok.mp hp
        simp only [Except.ok.injEq, hq1, Option.some.injEq, exists_eq_left', hq2, true_and, h2]
        constructor
        · rintro rfl; exact ⟨by omega, rfl⟩
        · exact fun h => h.2.symm
  · simp only [h0, if_false, false_and, ne_eq, not_false_eq_true, true_and, false_or]
    by_cases hr : s.refv = true <;> simp [hr]

/-! ### Prediction (R290 to R302) -/

@[simp] theorem predict_length (c : Ch) (rf : Plane) (mv : List MVec) (pw ph : Nat) :
    (predict c rf mv pw ph).length = pw * ph := by simp [predict]

/-- A predicted sample is the reference sample displaced by the vector of its macroblock (spec R290). -/
theorem predict_getElem? (c : Ch) (rf : Plane) (mv : List MVec) (pw ph x y : Nat) (hx : x < pw) (hy : y < ph) :
    (predict c rf mv pw ph)[y * pw + x]? =
      some (sampleZ rf pw (x + (vectorAt mv (mbIndexAt c pw x y)).dx.toInt)
        (y + (vectorAt mv (mbIndexAt c pw x y)).dy.toInt)) :=
  planeOf_getElem? pw ph _ x y hx hy

@[simp] theorem residual_length (a b : Plane) : (residual a b).length = min a.length b.length := by simp [residual]

theorem residual_getElem? (a b : Plane) (k : Nat) (ha : k < a.length) (hb : k < b.length) :
    (residual a b)[k]? = some ((a[k].toNat : Int) - (b[k].toNat : Int)) := by
  simp [residual, ha, hb]

@[simp] theorem reconP_length (p : Plane) (d : List Int) : (reconP p d).length = min p.length d.length := by
  simp [reconP]

theorem reconPlanes_length (num : NumSel) (w h : Nat) (pr : PerCh Plane) (z : List Byte) (c : Ch)
    (hp : (pr.get c).length = planeW w c * planeH h c) :
    ((reconPlanes num w h pr z).get c).length = planeW w c * planeH h c := by
  simp [reconPlanes, planesOfCoef, hp]

@[simp] theorem vecBytes_length (mv : List MVec) : (vecBytes mv).length = 2 * mv.length := by
  simp [vecBytes, List.length_flatMap, Nat.mul_comm]

/-- The vector bytes of a field read back as the field (spec R292). -/
theorem vecsOfBytes_vecBytes (mv : List MVec) : vecsOfBytes (vecBytes mv) = mv := by
  induction mv with
  | nil => rfl
  | cons v mv ih =>
    have : vecBytes (v :: mv) = v.dx :: v.dy :: vecBytes mv := by simp [vecBytes]
    rw [this, vecsOfBytes, ih]

@[simp] theorem field_length (c : Ch) (cu rf : Plane) (pw ph r : Nat) :
    (field c cu rf pw ph r).length = mbCount c pw ph := by simp [field]

/-! ### Byte order (R65) -/

@[simp] theorem le32_length (n : Nat) : (le32 n).length = 4 := rfl

/-- Reading back a little-endian word below 2^32 (spec R10, R65). -/
theorem rd32_le32 (n : Nat) (h : n < 2 ^ 32) (l : List Byte) : rd32 (le32 n ++ l) 0 = n := by
  have h1 : (2 : Nat) ^ 8 = 256 := rfl
  simp [rd32, byteAt, le32]
  omega

/-! ### MRLE items (R220) -/

@[simp] theorem mrleDec_nil : mrleDec [] = some [] := by simp [mrleDec]

/-- A literal stands for itself (spec R220, R224). -/
theorem mrleDec_literal (b : Byte) (l : List Byte) (h : b ≠ 0) : mrleDec (b :: l) = (mrleDec l).map (b :: ·) := by
  rw [mrleDec.eq_def]; exact if_pos h

/-- A triple stands for its value repeated (spec R220, R224). -/
theorem mrleDec_triple (n v : Byte) (l : List Byte) :
    mrleDec (0 :: n :: v :: l) = (mrleDec l).map (List.replicate n.toNat v ++ ·) := by
  rw [mrleDec.eq_def]; simp

theorem mrleItem_length (v : Byte) (r : Nat) : (mrleItem v r).length ≤ 3 := by
  unfold mrleItem
  split <;> simp

theorem mrleRun_length (l : List Byte) (v : Byte) (r : Nat) : (mrleRun v r l).length ≤ 3 * l.length + 3 := by
  induction l generalizing v r with
  | nil => simpa [mrleRun] using mrleItem_length v r
  | cons b l ih =>
    unfold mrleRun
    split
    · have := ih v (r + 1)
      simp only [List.length_cons]
      omega
    · have h1 := ih b 1
      have h2 := mrleItem_length v r
      simp only [List.length_append, List.length_cons]
      omega

/-- The code of `n` bytes has at most `3 * n` bytes (spec R221). -/
theorem mrleEnc_length (x : List Byte) : (mrleEnc x).length ≤ 3 * x.length := by
  cases x with
  | nil => simp [mrleEnc]
  | cons b l =>
    have := mrleRun_length l b 1
    simp only [mrleEnc, List.length_cons]
    omega

end Sys2Proof.Machine
end

