-- ==== Sys2Proof/Laws/Codec.lean ====
section
/-! SUPPORT. Coded planes sample by sample: what a coefficient region decodes to, and what the two restorations make of it. -/

namespace Sys2Proof.Machine

/-- The raster position of the block of a sample of a plane. -/
theorem block_index_lt {pw ph x y : Nat} (hx : x < pw) (hy : y < ph) : y / 8 * ceil8 pw + x / 8 < blockCount pw ph := by
  have h1 : x / 8 < ceil8 pw := by unfold ceil8; omega
  have h2 : y / 8 < ceil8 ph := by unfold ceil8; omega
  calc y / 8 * ceil8 pw + x / 8 < y / 8 * ceil8 pw + ceil8 pw := by omega
    _ = (y / 8 + 1) * ceil8 pw := by ring
    _ ≤ ceil8 ph * ceil8 pw := Nat.mul_le_mul_right _ h2
    _ = blockCount pw ph := Nat.mul_comm _ _

/-- A sample of a decoded plane is an entry of its decoded block (spec R241). -/
theorem decPlane_getElem? (num : NumSel) (z : List Byte) (pw ph : Nat) (q : Block Nat) (x y : Nat) (hx : x < pw)
    (hy : y < ph) :
    (decPlane num z pw ph q)[y * pw + x]? =
      some (blockAt (decBlock num q (blockOfBytes z (y / 8 * ceil8 pw + x / 8))) (8 * (y % 8) + x % 8) 0) := by
  rw [decPlane, assemble, planeOf_getElem? _ _ _ _ _ hx hy]
  simp [List.getD, block_index_lt hx hy]

/-- Bytes that lie inside a slice read the same through it. -/
theorem byteAt_slice (z : List Byte) (i j k : Nat) (h : k < j - i) : byteAt (slice z i j) k = byteAt z (i + k) := by
  simp [byteAt, List.getD, slice_getElem? z i j k h]

/-- Block `k` of channel `c` stands at block `base(c) + k` of the region (spec R242). -/
theorem blockOfBytes_coefPart (w h : Nat) (z : List Byte) (c : Ch) (k : Nat)
    (hk : k < blockCount (planeW w c) (planeH h c)) :
    blockOfBytes (coefPart w h z c) k = blockOfBytes z (blockBase w h c + k) := by
  apply block_ext
  intro n
  have hn := n.isLt
  have hi : ∀ i j b : Nat, i = 64 * b → 64 * (b + blockCount (planeW w c) (planeH h c)) ≤ j →
      byteAt (slice z i j) (64 * k + n.val) = byteAt z (64 * (b + k) + n.val) := by
    intro i j b h1 h2
    rw [byteAt_slice _ _ _ _ (by omega)]
    exact congrArg _ (by omega)
  simp only [blockOfBytes, mkBlock_get]
  cases c
  · exact hi _ _ _ (by simp [blockBase]) (by simp [blockBase, nY, planeW, planeH])
  · exact hi _ _ _ rfl (by simp [blockBase, nC, planeW, planeH])
  · exact hi _ _ _ rfl (by simp [blockBase, lenCoef, nC, planeW, planeH]; omega)

/-- A sample of the planes a coefficient region decodes to (spec R242). -/
theorem planesOfCoef_getElem? (num : NumSel) (w h : Nat) (z : List Byte) (c : Ch) (x y : Nat) (hx : x < planeW w c)
    (hy : y < planeH h c) :
    ((planesOfCoef num w h z).get c)[y * planeW w c + x]? = some (decodedAt num w h z c x y) := by
  rw [planesOfCoef, PerCh.of_get, decPlane_getElem? _ _ _ _ _ _ _ hx hy,
    blockOfBytes_coefPart _ _ _ _ _ (block_index_lt hx hy), decodedAt]

/-- Only the first `LC` bytes of a payload count as coefficients (spec R304, R312). -/
theorem decodedAt_slice (num : NumSel) (w h : Nat) (p : List Byte) (c : Ch) (x y : Nat) (hx : x < planeW w c)
    (hy : y < planeH h c) : decodedAt num w h (slice p 0 (lenCoef w h)) c x y = decodedAt num w h p c x y := by
  have hk := block_index_lt hx hy
  have hb : blockOfBytes (slice p 0 (lenCoef w h)) (blockBase w h c + (y / 8 * ceil8 (planeW w c) + x / 8)) =
      blockOfBytes p (blockBase w h c + (y / 8 * ceil8 (planeW w c) + x / 8)) := by
    apply block_ext
    intro n
    have hn := n.isLt
    simp only [blockOfBytes, mkBlock_get]
    rw [byteAt_slice]
    · rw [Nat.zero_add]
    · cases c <;> simp only [lenCoef, blockBase, nY, nC, planeW, planeH] at hk ⊢ <;> omega
  rw [decodedAt, hb, decodedAt]

/-- A sample of a key frame's reference: re-biased and clamped (spec R248). -/
theorem keyPlanes_sampleAt (num : NumSel) (w h : Nat) (z : List Byte) (c : Ch) (x y : Nat) (hx : x < planeW w c)
    (hy : y < planeH h c) :
    sampleAt ((keyPlanes num w h z).get c) (planeW w c) x y = clampByte (decodedAt num w h z c x y + 128) := by
  simp [sampleAt, List.getD, keyPlanes, restoreKey, planesOfCoef_getElem? num w h z c x y hx hy]

/-- A sample of a predicted frame's reference: predicted plus decoded residual, clamped (spec R302). -/
theorem reconPlanes_sampleAt (num : NumSel) (w h : Nat) (pr : PerCh Plane) (z : List Byte) (c : Ch) (x y : Nat)
    (hp : (pr.get c).length = planeW w c * planeH h c) (hx : x < planeW w c) (hy : y < planeH h c) :
    sampleAt ((reconPlanes num w h pr z).get c) (planeW w c) x y =
      clampByte (sampleInt (pr.get c) (planeW w c) x y + decodedAt num w h z c x y) := by
  have hi : y * planeW w c + x < (pr.get c).length := by
    rw [hp]
    calc y * planeW w c + x < y * planeW w c + planeW w c := by omega
      _ = planeW w c * (y + 1) := by ring
      _ ≤ planeW w c * planeH h c := Nat.mul_le_mul_left _ hy
  simp only [sampleAt, sampleInt, List.getD, reconPlanes, reconP, PerCh.of_get, List.getElem?_zipWith,
    planesOfCoef_getElem? num w h z c x y hx hy, List.getElem?_eq_getElem hi, Option.getD_some]

/-! ### Where a block stands in the coefficient region -/

/-- An entry of equally long pieces laid one after another. -/
theorem flatMap_getElem? {α β : Type} (l : List α) (f : α → List β) (m i j : Nat) (hf : ∀ a, (f a).length = m)
    (hj : j < m) : (l.flatMap f)[m * i + j]? = l[i]?.bind fun a => (f a)[j]? := by
  induction l generalizing i with
  | nil => simp
  | cons a l ih =>
    rw [List.flatMap_cons]
    cases i with
    | zero => rw [List.getElem?_append_left (by rw [hf]; omega)]; simp
    | succ i =>
      have hi : m * (i + 1) + j = m + (m * i + j) := by ring
      rw [hi, List.getElem?_append_right (by rw [hf]; omega), hf, Nat.add_sub_cancel_left, ih]
      simp

/-- Byte `j` of the block at `(bx, bY)` of a coded plane (spec R149, R240). -/
theorem encPlane_getElem? (num : NumSel) (p : Nat → Nat → Int) (pw ph : Nat) (q : Block Nat) (b : Bool) (bx bY : Nat)
    (j : Fin 64) (hx : bx < ceil8 pw) (hy : bY < ceil8 ph) :
    (encPlane num p pw ph q b)[64 * (bY * ceil8 pw + bx) + j.val]? =
      some (encBlock num q b (getblk p pw ph bx bY))[j] := by
  have hi : 64 * (bY * ceil8 pw + bx) + j.val = ceil8 pw * 64 * bY + (64 * bx + j.val) := by ring
  have hj := j.isLt
  rw [encPlane, hi, flatMap_getElem? _ _ (ceil8 pw * 64) _ _ (by intro a; simp [List.length_flatMap]) (by nlinarith)]
  simp only [List.getElem?_range hy, Option.bind_some]
  rw [flatMap_getElem? _ _ 64 _ _ (by intro a; simp) hj]
  simp [List.getElem?_range hx]

/-- Byte `j` of the block at `(bx, bY)` of channel `c` in a coefficient region (spec R242). -/
theorem coefOf_getElem? (num : NumSel) (w h : Nat) (p : Ch → Nat → Nat → Int) (b : Bool) (c : Ch) (bx bY : Nat)
    (j : Fin 64) (hx : bx < ceil8 (planeW w c)) (hy : bY < ceil8 (planeH h c)) :
    (coefOf num w h p b)[64 * (blockBase w h c + (bY * ceil8 (planeW w c) + bx)) + j.val]? =
      some (encBlock num (tableOfChannel c) b (getblk (p c) (planeW w c) (planeH h c) bx bY))[j] := by
  have hk : bY * ceil8 (planeW w c) + bx < blockCount (planeW w c) (planeH h c) := by
    calc bY * ceil8 (planeW w c) + bx < (bY + 1) * ceil8 (planeW w c) := by rw [Nat.succ_mul]; omega
      _ ≤ ceil8 (planeH h c) * ceil8 (planeW w c) := Nat.mul_le_mul_right _ hy
      _ = blockCount (planeW w c) (planeH h c) := Nat.mul_comm _ _
  have hj := j.isLt
  rw [← encPlane_getElem? num (p c) (planeW w c) (planeH h c) (tableOfChannel c) b bx bY j hx hy, coefOf]
  cases c
  · rw [List.append_assoc, List.getElem?_append_left (by simp only [encPlane_length, blockBase]; omega)]
    simp only [blockBase, Nat.zero_add]
  · rw [List.getElem?_append_left (by
        simp only [List.length_append, encPlane_length, blockBase, nY, planeW, planeH] at hk ⊢; omega),
      List.getElem?_append_right (by simp only [encPlane_length, blockBase, nY, planeW, planeH]; omega)]
    congr 1
    simp only [encPlane_length, blockBase, nY, planeW, planeH]; omega
  · rw [List.getElem?_append_right (by
        simp only [List.length_append, encPlane_length, blockBase, nY, nC, planeW, planeH]; omega)]
    congr 1
    simp only [List.length_append, encPlane_length, blockBase, nY, nC, planeW, planeH]; omega

/-! ### Vectors of a payload -/

/-- A sample of a plane lies in one of its macroblocks (spec R270). -/
theorem mbIndexAt_lt (c : Ch) (pw ph x y : Nat) (hx : x < pw) (hy : y < ph) : mbIndexAt c pw x y < mbCount c pw ph := by
  have h1 : x / mbSide c < nmx c pw := by cases c <;> simp only [nmx, mbSide] <;> omega
  have h2 : y / mbSide c < nmy c ph := by cases c <;> simp only [nmy, mbSide] <;> omega
  calc mbIndexAt c pw x y < (y / mbSide c + 1) * nmx c pw := by rw [mbIndexAt, Nat.succ_mul]; omega
    _ ≤ nmy c ph * nmx c pw := Nat.mul_le_mul_right _ h2
    _ = mbCount c pw ph := Nat.mul_comm _ _

/-- A vector read from bytes is the two bytes at its place (spec R292). -/
theorem vecsOfBytes_getD (b : List Byte) (m : Nat) (h : 2 * m + 1 < b.length) :
    (vecsOfBytes b).getD m ⟨0, 0⟩ = ⟨byteAt b (2 * m), byteAt b (2 * m + 1)⟩ := by
  induction m generalizing b with
  | zero =>
    match b, h with
    | dx :: dy :: rest, _ => rfl
  | succ m ih =>
    match b, h with
    | dx :: dy :: rest, h =>
      have := ih rest (by simp only [List.length_cons] at h; omega)
      simpa [vecsOfBytes, byteAt, Nat.mul_succ] using this

/-- Vector `m` of a channel of a payload of the right length (spec R304). -/
theorem vectorAt_fieldsOf (w h : Nat) (p : List Byte) (c : Ch) (m : Nat) (hp : p.length = lenCoef w h + lenVec w h)
    (hm : m < mbCount c (planeW w c) (planeH h c)) :
    vectorAt ((fieldsOf w h p).get c) m = payloadVector w h p c m := by
  have key : ∀ i n : Nat, i + 2 * n ≤ p.length → m < n →
      (vecsOfBytes (slice p i (i + 2 * n))).getD m ⟨0, 0⟩ = ⟨byteAt p (i + 2 * m), byteAt p (i + 2 * m + 1)⟩ := by
    intro i n h1 h2
    rw [vecsOfBytes_getD _ _ (by simp only [slice_length]; omega), byteAt_slice _ _ _ _ (by omega),
      byteAt_slice _ _ _ _ (by omega), ← Nat.add_assoc]
  unfold lenVec at hp
  cases c
  · exact key _ (mY w h) (by omega) hm
  · exact key _ (mC w h) (by omega) hm
  · have := key (lenCoef w h + 2 * mY w h + 2 * mC w h) (mC w h) (by omega) hm
    have hl : lenCoef w h + lenVec w h = lenCoef w h + 2 * mY w h + 2 * mC w h + 2 * mC w h := by unfold lenVec; omega
    simpa [vectorAt, fieldsOf, PerCh.get, payloadVector, vectorBase, hl, Nat.add_assoc] using this

end Sys2Proof.Machine
end

