-- ==== Sys2Proof/Laws/Numerics.lean ====
section
/-! SUPPORT. Binary32: the operations of `REF32` stay far below overflow on the domain of `NUM`, so every answer is finite
(spec R111, R174). -/

namespace Sys2Proof.Machine

/-! ### Rounding -/

theorem rneShift_le (m k b : Nat) (h : m ≤ b * 2 ^ k) : rneShift m k ≤ b := by
  have hp : 0 < 2 ^ k := Nat.two_pow_pos k
  have hq : m >>> k = m / 2 ^ k := Nat.shiftRight_eq_div_pow m k
  have hd : m / 2 ^ k ≤ b := Nat.div_le_of_le_mul (by rw [Nat.mul_comm]; exact h)
  have he : 2 ^ k * (m / 2 ^ k) + m % 2 ^ k = m := Nat.div_add_mod m (2 ^ k)
  unfold rneShift
  simp only [hq, Nat.shiftLeft_eq]
  split
  · rename_i hc
    rcases Nat.lt_or_ge (m / 2 ^ k) b with hl | hl
    · exact hl
    · have hbq : m / 2 ^ k = b := Nat.le_antisymm hd hl
      rw [hbq] at hc he
      have : m - b * 2 ^ k = 0 := by omega
      rw [this] at hc
      omega
  · exact hd

/-- Rounding never passes a power of two that bounds the exact value. -/
theorem flMag_le (p j b : Nat) (h : p ≤ 2 ^ b * 2 ^ j) : flMag p j ≤ 2 ^ b := by
  unfold flMag
  simp only [Nat.shiftLeft_eq]
  set k := max j (p.log2 - 23) with hk
  have hjk : j ≤ k := le_max_left _ _
  by_cases hb : k ≤ b + j
  · have h1 : p ≤ 2 ^ (b + j - k) * 2 ^ k := by rw [← pow_add]; simpa [Nat.sub_add_cancel hb, pow_add] using h
    calc rneShift p k * 2 ^ (k - j) ≤ 2 ^ (b + j - k) * 2 ^ (k - j) := Nat.mul_le_mul_right _ (rneShift_le _ _ _ h1)
      _ = 2 ^ b := by rw [← pow_add]; congr 1; omega
  · exfalso
    have hkl : k = p.log2 - 23 := by
      rcases max_choice j (p.log2 - 23) with h1 | h1
      · rw [← hk] at h1; omega
      · rw [← hk] at h1; exact h1
    have hp0 : p ≠ 0 := by rintro rfl; simp at hkl; omega
    have h2 := Nat.log2_self_le hp0
    have h3 : 2 ^ p.log2 ≤ 2 ^ (b + j) := by rw [pow_add]; exact h2.trans h
    have := (Nat.pow_le_pow_iff_right (by norm_num)).mp h3
    omega

/-! ### Bounds in units of 2^-149 -/

theorem F32.mul_mag_le {a b : F32} {m n : Nat} (k : Nat) (ha : a.mag ≤ 2 ^ m) (hb : b.mag ≤ 2 ^ n)
    (h : m + n = k + 149) : (a.mul b).mag ≤ 2 ^ k :=
  flMag_le _ _ _ (by rw [← pow_add, ← h, pow_add]; exact Nat.mul_le_mul ha hb)

theorem F32.add_mag_le {a b : F32} {m : Nat} (ha : a.mag ≤ 2 ^ m) (hb : b.mag ≤ 2 ^ m) :
    (a.add b).mag ≤ 2 ^ (m + 1) := by
  have h : (2 : Nat) ^ (m + 1) = 2 ^ m + 2 ^ m := by ring
  unfold F32.add
  split
  · exact flMag_le _ _ _ (by simp; omega)
  · split
    · exact flMag_le _ _ _ (by simp; omega)
    · split
      · exact flMag_le _ _ _ (by simp; omega)
      · simp

theorem F32.ofInt_mag_le (n : Int) (m : Nat) (h : n.natAbs ≤ 2 ^ m) : (F32.ofInt n).mag ≤ 2 ^ (m + 149) :=
  flMag_le _ _ _ (by
    rw [Nat.shiftLeft_eq, pow_zero, mul_one, pow_add]
    exact Nat.mul_le_mul_right _ h)

/-! ### Patterns -/

/-- The fields of a pattern, read from its number. -/
theorem f32_fields {w : Word} {b : Bool} {e f : Nat} (he : e < 256) (hf : f < 2 ^ 23)
    (hw : w.toNat = (if b then 2 ^ 31 else 0) + (e * 2 ^ 23 + f)) :
    f32Exp w = e ∧ f32Frac w = f ∧ w.getLsbD 31 = b := by
  have hb : (if b then 2 ^ 31 else 0) = 2 ^ 31 * b.toNat := by cases b <;> rfl
  have hb2 := Bool.toNat_lt b
  rw [hb] at hw
  refine ⟨?_, ?_, ?_⟩
  · rw [f32Exp, BitVec.extractLsb'_toNat, Nat.shiftRight_eq_div_pow]
    omega
  · rw [f32Frac, BitVec.extractLsb'_toNat, Nat.shiftRight_eq_div_pow]
    omega
  · have h1 : w.toNat / 2 ^ 31 % 2 = b.toNat := by omega
    rw [BitVec.getLsbD, Nat.testBit_eq_decide_div_mod_eq, h1]
    cases b <;> rfl

/-- A magnitude bounded below 2^128 = 2^277 * 2^-149 is below the overflow threshold. -/
theorem log2_lt_of_le {m k : Nat} (h : m ≤ 2 ^ k) (hk : k < 277) : m.log2 < 277 := by
  rcases Nat.eq_zero_or_pos m with h0 | h0
  · simp [h0]
  · exact ((Nat.pow_le_pow_iff_right Nat.one_lt_two).mp ((Nat.log2_self_le h0.ne').trans h)).trans_lt hk

/-- A magnitude below 2^128 has a finite pattern, which keeps the sign and the leading 24 bits of the magnitude. -/
theorem F32.toBits_spec (f : F32) (h : f.mag.log2 < 277) :
    f32IsFinite f.toBits = true ∧
      F32.ofBits f.toBits = ⟨f.neg, f.mag >>> (f.mag.log2 - 23) <<< (f.mag.log2 - 23)⟩ := by
  rcases Nat.lt_or_ge f.mag (2 ^ 23) with hs | hs
  · have hw : f.toBits.toNat = (if f.neg then 2 ^ 31 else 0) + (0 * 2 ^ 23 + f.mag) := by
      rw [F32.toBits, if_pos hs, BitVec.toNat_ofNat]
      cases f.neg <;> simp only [Bool.false_eq_true, if_false, if_true] <;> omega
    obtain ⟨h1, h2, h3⟩ := f32_fields (by omega) hs hw
    have hl : f.mag.log2 - 23 = 0 := by
      rcases Nat.eq_zero_or_pos f.mag with h0 | h0
      · simp [h0]
      · have := (Nat.log2_lt (by omega)).mpr hs
        omega
    refine ⟨by rw [f32IsFinite, h1]; rfl, ?_⟩
    rw [F32.ofBits, h1, h2, h3, hl, if_pos rfl]
    rfl
  · have h0 : f.mag ≠ 0 := by rintro h0; rw [h0] at hs; norm_num at hs
    have hg : 23 ≤ f.mag.log2 := (Nat.le_log2 h0).mpr hs
    set e := f.mag.log2 - 23 with he
    have hlo : 2 ^ 23 ≤ f.mag >>> e := by
      rw [Nat.shiftRight_eq_div_pow, Nat.le_div_iff_mul_le (Nat.two_pow_pos e), ← pow_add, he, Nat.add_sub_cancel' hg]
      exact Nat.log2_self_le h0
    have hhi : f.mag >>> e < 2 ^ 24 := by
      rw [Nat.shiftRight_eq_div_pow, Nat.div_lt_iff_lt_mul (Nat.two_pow_pos e), ← pow_add]
      have := (Nat.log2_lt h0 (k := 24 + e)).mp (by omega)
      exact this
    have hw : f.toBits.toNat =
        (if f.neg then 2 ^ 31 else 0) + ((e + 1) * 2 ^ 23 + (f.mag >>> e - 2 ^ 23)) := by
      have h4 : ¬ 254 ≤ e := by omega
      simp only [F32.toBits, if_neg (Nat.not_lt.mpr hs), ← he, if_neg h4, BitVec.toNat_ofNat]
      cases f.neg <;> simp only [Bool.false_eq_true, if_false, if_true] <;> omega
    obtain ⟨h1, h2, h3⟩ := f32_fields (by omega) (by omega) hw
    refine ⟨?_, ?_⟩
    · rw [f32IsFinite, h1, bne_iff_ne]; omega
    · rw [F32.ofBits, h1, h2, h3, if_neg (Nat.succ_ne_zero e), Nat.add_sub_cancel' hlo, Nat.add_sub_cancel]

/-- A pattern never has a larger magnitude than the value it was made from. -/
theorem F32.ofBits_toBits_mag_le (f : F32) (h : f.mag.log2 < 277) : (F32.ofBits f.toBits).mag ≤ f.mag := by
  rw [(f.toBits_spec h).2, Nat.shiftRight_eq_div_pow, Nat.shiftLeft_eq]
  exact Nat.div_mul_le_self _ _

/-! ### REF32 -/

theorem cosAt_mag_le (u x : Nat) : (cosAt u x).mag ≤ 2 ^ 149 := by
  have h : ∀ m < 32, (cosTable m).mag ≤ 2 ^ 149 := by decide +kernel
  exact h _ (Nat.mod_lt _ (by norm_num))

theorem cf_mag_le (k : Nat) : (cf k).mag ≤ 2 ^ 149 := by
  unfold cf
  split <;> decide +kernel

theorem quarter_mag_le : quarter.mag ≤ 2 ^ 149 := by decide +kernel

/-- A sum of 64 terms doubles its bound at most once a term. -/
theorem sum64_mag_le (t : Fin 64 → F32) (m : Nat) (h : ∀ n, (t n).mag ≤ 2 ^ m) : (sum64 t).mag ≤ 2 ^ (m + 64) := by
  have fold : ∀ (l : List (Fin 64)) (acc : F32) (k : Nat), m ≤ k → acc.mag ≤ 2 ^ k →
      (l.foldl (fun acc n => acc.add (t n)) acc).mag ≤ 2 ^ (k + l.length) := by
    intro l
    induction l with
    | nil => intro acc k _ ha; simpa using ha
    | cons n l ih =>
      intro acc k hk ha
      have := ih (acc.add (t n)) (k + 1) (by omega)
        (F32.add_mag_le ha ((h n).trans (Nat.pow_le_pow_right (by norm_num) hk)))
      simpa [Nat.add_assoc, Nat.add_comm 1] using this
  simpa [sum64] using fold (List.finRange 64) ⟨false, 0⟩ m le_rfl (Nat.zero_le _)

/-- `REF32.fdct` stays below 2^128 on the domain (spec R111, R174). -/
theorem ref32FdctAt_log2_lt (a : Block Int) (h : ∀ n : Fin 64, a[n].natAbs ≤ 2 ^ 23) (u v : Nat) :
    (ref32FdctAt a u v).mag.log2 < 277 := by
  have ht : ∀ n : Fin 64, (((F32.ofInt a[n]).mul (cosAt u (n.val % 8))).mul (cosAt v (n.val / 8))).mag ≤ 2 ^ 172 :=
    fun n => F32.mul_mag_le 172 (F32.mul_mag_le 172 (F32.ofInt_mag_le _ 23 (h n)) (cosAt_mag_le _ _) rfl)
      (cosAt_mag_le _ _) rfl
  have hs : (((cf u).mul (cf v)).mul quarter).mag ≤ 2 ^ 149 :=
    F32.mul_mag_le 149 (F32.mul_mag_le 149 (cf_mag_le u) (cf_mag_le v) rfl) quarter_mag_le rfl
  exact log2_lt_of_le (F32.mul_mag_le 236 hs (sum64_mag_le _ 172 ht) rfl) (by norm_num)

/-- `NUM.fdct` answers finite values on its domain, in every build (spec R174). -/
theorem numFdct_finite (num : NumSel) (a : Block Int) (h : ∀ n : Fin 64, a[n].natAbs ≤ 2 ^ 23) (n : Fin 64) :
    f32IsFinite (numFdct num a)[n] = true := by
  cases num with
  | ref32 =>
    simp only [numFdct, mkBlock_get]
    exact ((ref32FdctAt a _ _).toBits_spec (ref32FdctAt_log2_lt a h _ _)).1
  | free k =>
    simp only [numFdct, mkBlock_get, finitePattern]
    split
    · assumption
    · decide

/-- What the quantiser restores lies in the domain of `NUM.idct` (spec R195, R241). -/
theorem dequant_inIdctDomain (k : Block Byte) (t : Table) (n : Fin 64) :
    inIdctDomain (dequant k (tableOf t))[n] = true := by
  have hq : ∀ t : Table, ∀ n : Fin 64, (tableOf t)[n] ≤ 2 ^ 7 := by intro t; cases t <;> decide
  have hk : k[n].toInt.natAbs ≤ 2 ^ 7 := by
    have h1 := BitVec.le_toInt k[n]
    have h2 := BitVec.toInt_lt (x := k[n])
    omega
  have hm : (F32.ofInt (k[n].toInt * (tableOf t)[n])).mag ≤ 2 ^ (14 + 149) := by
    refine F32.ofInt_mag_le _ 14 ?_
    rw [Int.natAbs_mul, Int.natAbs_natCast]
    exact (Nat.mul_le_mul hk (hq t n)).trans_eq (pow_add 2 7 7).symm
  have hlt := log2_lt_of_le hm (by norm_num)
  have hle := (F32.ofBits_toBits_mag_le _ hlt).trans
    (hm.trans (Nat.pow_le_pow_right Nat.two_pos (by norm_num : 14 + 149 ≤ 23 + 149)))
  rw [pow_add 2 23 149] at hle
  simp only [inIdctDomain, dequant, mkBlock_get, (F32.toBits_spec _ hlt).1, Bool.true_and, decide_eq_true_eq]
  exact hle

end Sys2Proof.Machine
end

