-- ==== Sys2Proof/Laws/PerInstr.lean ====
section
/-! SUPPORT. The family `RoundTrip`: decoding the word of a well-formed command gives the command back (spec R92, R99),
one lemma per constructor. -/

namespace Sys2Proof.Laws

/-- Decoding the word of `i` gives `i`, if the encoding can express `i`. -/
def RoundTrip.Statement (i : Instr) : Prop := i.WellFormed → decode (encode i) = .ok i

theorem RoundTrip.nop : RoundTrip.Statement .nop := by
  unfold RoundTrip.Statement
  decide

theorem RoundTrip.srst : RoundTrip.Statement .srst := by
  unfold RoundTrip.Statement
  decide

theorem RoundTrip.rgb2ycc : RoundTrip.Statement .rgb2ycc := by
  unfold RoundTrip.Statement
  decide

theorem RoundTrip.ycc2rgb : RoundTrip.Statement .ycc2rgb := by
  unfold RoundTrip.Statement
  decide

theorem RoundTrip.ldpix : RoundTrip.Statement .ldpix := by
  unfold RoundTrip.Statement
  decide

theorem RoundTrip.ldpln : RoundTrip.Statement .ldpln := by
  unfold RoundTrip.Statement
  decide

theorem RoundTrip.strgba (ps : PlaneSet) : RoundTrip.Statement (.strgba ps) := by
  unfold RoundTrip.Statement
  cases ps <;> decide

theorem RoundTrip.stpln (ps : PlaneSet) : RoundTrip.Statement (.stpln ps) := by
  unfold RoundTrip.Statement
  cases ps <;> decide

theorem RoundTrip.getblk (ps : PlaneSet) (ch : Ch) : RoundTrip.Statement (.getblk ps ch) := by
  unfold RoundTrip.Statement
  cases ps <;> cases ch <;> decide

theorem RoundTrip.fdct (b : Bool) : RoundTrip.Statement (.fdct b) := by
  unfold RoundTrip.Statement
  cases b <;> decide

theorem RoundTrip.idct (b : Bool) : RoundTrip.Statement (.idct b) := by
  unfold RoundTrip.Statement
  cases b <;> decide

theorem RoundTrip.quant (t : Table) : RoundTrip.Statement (.quant t) := by
  unfold RoundTrip.Statement
  cases t <;> decide

theorem RoundTrip.dequant (t : Table) : RoundTrip.Statement (.dequant t) := by
  unfold RoundTrip.Statement
  cases t <;> decide

theorem RoundTrip.zz : RoundTrip.Statement .zz := by
  unfold RoundTrip.Statement
  decide

theorem RoundTrip.unzz : RoundTrip.Statement .unzz := by
  unfold RoundTrip.Statement
  decide

theorem RoundTrip.rleenc : RoundTrip.Statement .rleenc := by
  unfold RoundTrip.Statement
  decide

theorem RoundTrip.rledec : RoundTrip.Statement .rledec := by
  unfold RoundTrip.Statement
  decide

theorem RoundTrip.xfkey : RoundTrip.Statement .xfkey := by
  unfold RoundTrip.Statement
  decide

theorem RoundTrip.emitkey : RoundTrip.Statement .emitkey := by
  unfold RoundTrip.Statement
  decide

theorem RoundTrip.deckey : RoundTrip.Statement .deckey := by
  unfold RoundTrip.Statement
  decide

theorem RoundTrip.mest (ch : Ch) : RoundTrip.Statement (.mest ch) := by
  unfold RoundTrip.Statement
  cases ch <;> decide

theorem RoundTrip.mcomp (ch : Ch) : RoundTrip.Statement (.mcomp ch) := by
  unfold RoundTrip.Statement
  cases ch <;> decide

theorem RoundTrip.resid (ch : Ch) : RoundTrip.Statement (.resid ch) := by
  unfold RoundTrip.Statement
  cases ch <;> decide

theorem RoundTrip.xfp : RoundTrip.Statement .xfp := by
  unfold RoundTrip.Statement
  decide

theorem RoundTrip.emitp : RoundTrip.Statement .emitp := by
  unfold RoundTrip.Statement
  decide

theorem RoundTrip.decp : RoundTrip.Statement .decp := by
  unfold RoundTrip.Statement
  decide

theorem RoundTrip.chrst : RoundTrip.Statement .chrst := by
  unfold RoundTrip.Statement
  decide

theorem RoundTrip.chapp : RoundTrip.Statement .chapp := by
  unfold RoundTrip.Statement
  decide

theorem RoundTrip.chemit : RoundTrip.Statement .chemit := by
  unfold RoundTrip.Statement
  decide

theorem RoundTrip.chopen : RoundTrip.Statement .chopen := by
  unfold RoundTrip.Statement
  decide

theorem RoundTrip.chnext : RoundTrip.Statement .chnext := by
  unfold RoundTrip.Statement
  decide

end Sys2Proof.Laws
end

