-- ==== Sys2Proof/Tests/Slice0.lean ====
section
/-! SUPPORT. Tests: well-formedness, decoding of words written out from the spec, one step per command with the values
of 95_test_vectors.md, and for every statement with hypotheses a state that meets them. -/

namespace Sys2Proof.Tests

open Sys2Proof.Machine

/-! ### Helpers -/

/-- The result is a next state of which `p` holds. -/
def after (r : Result) (p : State → Bool) : Bool :=
  match r with
  | .next t => p t
  | .fault _ => false
  | .refused _ => false

/-- Reset with dimensions `w × h`. -/
def sized (w h : Nat) : State := { State.reset with frmW := BitVec.ofNat 32 w, frmH := BitVec.ofNat 32 h }

/-- `s` with the host's bytes `l` in `INBUF` and `IN_LEN` set to their number. -/
def fed (s : State) (l : List Byte) : State :=
  { s with inbuf := Memory.ofBytes l 0, inLen := BitVec.ofNat 32 l.length }

/-- A 2 × 2 frame loaded as `CUR`, a reference of the same size, nothing else. -/
def loaded : State :=
  { sized 2 2 with fstage := .raw, refv := true, cur := ⟨[110, 110, 110, 110], [9], [7]⟩, ref := ⟨[100, 100, 100, 100], [9], [9]⟩ }

/-- The bytes of `OUTBUF[0 .. n)`. -/
def out (t : State) (n : Nat) : List Byte := (List.range n).map t.outByte

/-! ### WellFormed: every check refuses an ill-formed term (R94) -/

theorem test_strgba_res_ill_formed : ¬ Instr.WellFormed (.strgba .res) := by decide
theorem test_stpln_res_ill_formed : ¬ Instr.WellFormed (.stpln .res) := by decide
theorem test_getblk_res_well_formed : Instr.WellFormed (.getblk .res .cr) := by decide

/-! ### Decoding: words written out from the table of R92, and V-ENC-1 to V-ENC-14 -/

theorem test_decode_control : decode 0x00000000#32 = .ok .nop ∧ decode 0x00000001#32 = .ok .srst := by decide
theorem test_decode_color : decode 0x00000010#32 = .ok .rgb2ycc ∧ decode 0x00000011#32 = .ok .ycc2rgb := by decide
theorem test_decode_sampler :
    decode 0x00000020#32 = .ok .ldpix ∧ decode 0x00000021#32 = .ok .ldpln ∧
      decode 0x00001022#32 = .ok (.strgba .ref) ∧ decode 0x00002023#32 = .ok (.stpln .pred) ∧
      decode 0x00001124#32 = .ok (.getblk .ref .cb) ∧ decode 0x00003224#32 = .ok (.getblk .res .cr) := by decide
theorem test_decode_transform :
    decode 0x00000430#32 = .ok (.fdct true) ∧ decode 0x00000031#32 = .ok (.idct false) ∧
      decode 0x00000840#32 = .ok (.quant .chr) ∧ decode 0x00000041#32 = .ok (.dequant .lum) ∧
      decode 0x00000050#32 = .ok .zz ∧ decode 0x00000051#32 = .ok .unzz := by decide
theorem test_decode_streams :
    decode 0x00000060#32 = .ok .rleenc ∧ decode 0x00000061#32 = .ok .rledec ∧ decode 0x00000070#32 = .ok .xfkey ∧
      decode 0x00000071#32 = .ok .emitkey ∧ decode 0x00000072#32 = .ok .deckey := by decide
theorem test_decode_motion :
    decode 0x00000280#32 = .ok (.mest .cr) ∧ decode 0x00000190#32 = .ok (.mcomp .cb) ∧
      decode 0x00000091#32 = .ok (.resid .y) ∧ decode 0x00000092#32 = .ok .xfp ∧ decode 0x00000093#32 = .ok .emitp ∧
      decode 0x00000094#32 = .ok .decp := by decide
theorem test_decode_chain :
    decode 0x000000A0#32 = .ok .chrst ∧ decode 0x000000A1#32 = .ok .chapp ∧ decode 0x000000A2#32 = .ok .chemit ∧
      decode 0x000000A3#32 = .ok .chopen ∧ decode 0x000000A4#32 = .ok .chnext := by decide
theorem test_decode_illegal :
    decode 0x00000002#32 = .error .unassignedOpcode ∧ decode 0x00004000#32 = .error .nonzeroUnused ∧
      decode 0x00000130#32 = .error .nonzeroUnused ∧ decode 0x00003022#32 = .error .illegalPlaneSet ∧
      decode 0x00000324#32 = .error .illegalChannel ∧ decode 0x00000380#32 = .error .illegalChannel := by decide
theorem test_text_getblk : (Instr.getblk .ref .cb).text = "GETBLK REF, CB" := by decide

/-! ### One step per command -/

theorem test_nop : after (exec .nop { State.reset with err := .overflow, outLen := 24 })
    (fun t => decide (t.err = .ok ∧ t.outLen = 0)) = true := by decide
theorem test_srst : after (exec .srst { loaded with firstErr := .overflow, radius := 3 })
    (fun t => decide (t.statusWord = 0 ∧ t.readReg 4 = 8 ∧ t.frmW = 0)) = true := by decide
/-- V-COL-8. -/
theorem test_rgb2ycc : after (exec .rgb2ycc { State.reset with px := 0xFF3264C8#32 })
    (fun t => decide (t.readReg 10 = 0x00B6567C#32)) = true := by decide
/-- V-COL-5: the clamp of Cb. -/
theorem test_rgb2ycc_clamp : rgb2ycc 0 0 255 = ⟨29, 255, 107⟩ := by decide +kernel
/-- V-COL-8. -/
theorem test_ycc2rgb : after (exec .ycc2rgb { State.reset with yc := 0xB6567C#24 })
    (fun t => decide (t.px = 0xFF3264C8#32)) = true := by decide
/-- V-COL-15: the clamp of G. -/
theorem test_ycc2rgb_clamp : ycc2rgb 0 255 255 = (178, 0, 225) := by decide
/-- V-SMP-1. -/
theorem test_ldpix :
    after (exec .ldpix (fed (sized 2 2) ([0xC8, 0x64, 0x32, 0xFF, 0xC8, 0x64, 0x32, 0xFF, 0xC8, 0x64, 0x32, 0xFF, 0xC8, 0x64,
      0x32, 0xFF])))
      (fun t => decide (t.cur = ⟨[124, 124, 124, 124], [86], [182]⟩ ∧ t.fstage = .raw)) = true := by decide +kernel
/-- V-SMP-5. -/
theorem test_ldpix_length : after (exec .ldpix (fed (sized 2 2) (List.replicate 15 0)))
    (fun t => decide (t.err = .badRequest ∧ t.firstErr = .badRequest ∧ t.fstage = .empty)) = true := by decide
/-- V-SMP-2. -/
theorem test_ldpln :
    after (exec .ldpln (fed (sized 2 2) [1, 2, 3, 4, 0x11, 0x12, 0x13, 0x14, 0x21, 0x22, 0x23, 0x24]))
      (fun t => decide (t.cur = ⟨[1, 2, 3, 4], [0x11], [0x21]⟩)) = true := by decide
/-- V-SMP-3: the clamped expansion at an odd width and height. -/
theorem test_strgba :
    after (exec (.strgba .cur) { sized 3 3 with fstage := .raw, cur := ⟨[10, 20, 30, 40, 50, 60, 70, 80, 90], [100], [200]⟩ })
      (fun t => decide (t.outLen = 36 ∧ (out t 36).drop 28 = [181, 38, 30, 255, 191, 48, 40, 255])) = true := by decide
/-- V-SMP-5. -/
theorem test_strgba_no_reference : after (exec (.strgba .ref) (sized 2 2))
    (fun t => decide (t.err = .missingReference ∧ t.outLen = 0)) = true := by decide
/-- V-SMP-2. -/
theorem test_stpln : after (exec (.stpln .cur) { sized 2 2 with fstage := .raw, cur := ⟨[1, 2, 3, 4], [0x11], [0x21]⟩ })
    (fun t => decide (t.outLen = 6 ∧ out t 6 = [1, 2, 3, 4, 0x11, 0x21])) = true := by decide
/-- V-SMP-4. -/
theorem test_getblk :
    after (exec (.getblk .cur .cb) { sized 8 8 with fstage := .raw, cur := ⟨[], List.replicate 16 128, []⟩ })
      (fun t => decide (t.sb[27] = 128 ∧ t.sb[28] = 0 ∧ t.sb[35] = 0)) = true := by decide
/-- V-SMP-4. -/
theorem test_getblk_column : after (exec (.getblk .cur .cb) { sized 8 8 with fstage := .raw, arg0 := 1 })
    (fun t => decide (t.err = .badRequest)) = true := by decide
/-- V-DCT-1. -/
theorem test_fdct : after (exec (.fdct true) State.reset) (fun t => decide (t.tb[0] = 0xC47FFFFF#32)) = true := by decide +kernel
/-- V-DCT-8. -/
theorem test_fdct_domain :
    after (exec (.fdct true) { State.reset with sb := (Vector.replicate 64 0).set 0 0x00800081#32 })
      (fun t => decide (t.err = .badRequest)) = true := by decide
/-- V-DCT-4. -/
theorem test_idct :
    after (exec (.idct false) { State.reset with tb := (Vector.replicate 64 0).set 0 0xC4800000#32 })
      (fun t => decide (t.sb[0] = BitVec.ofInt 32 (-128))) = true := by decide +kernel
/-- V-DCT-8. -/
theorem test_idct_nan :
    after (exec (.idct false) { State.reset with tb := (Vector.replicate 64 0).set 0 0x7FC00000#32 })
      (fun t => decide (t.err = .badRequest)) = true := by decide
/-- V-QNT-1, V-QNT-4: the tie away from zero, and just below it; index 1 is (u, v) = (1, 0). -/
theorem test_quant :
    after (exec (.quant .lum)
        { State.reset with tb := ((Vector.replicate 64 0).set 0 0x41000000#32).set 1 0x40B00000#32 })
      (fun t => decide (t.qb[0] = 1 ∧ t.qb[1] = 1 ∧ t.qb[2] = 0)) = true := by decide
/-- V-QNT-6, V-QNT-7: saturation. -/
theorem test_quant_saturates :
    after (exec (.quant .lum) { State.reset with tb := (Vector.replicate 64 0).set 0 0xC57A0000#32 })
      (fun t => decide (t.qb[0] = BitVec.ofInt 8 (-128))) = true := by decide
/-- 95_test_vectors.md, section 6. -/
theorem test_dequant :
    after (exec (.dequant .lum) { State.reset with qb := (Vector.replicate 64 0).set 0 (BitVec.ofInt 8 (-64)) })
      (fun t => decide (t.tb[0] = 0xC4800000#32 ∧ t.tb[1] = 0)) = true := by decide
/-- V-ZZ-1. -/
theorem test_zz :
    after (exec .zz { State.reset with qb := mkBlock fun n => BitVec.ofInt 8 ((n.val : Int) - 32) })
      (fun t => decide (t.zb.toList.take 8 = [0xE0, 0xE1, 0xE8, 0xF0, 0xE9, 0xE2, 0xE3, 0xEA] ∧ t.zb[63] = 0x1F)) =
        true := by decide
/-- V-ZZ-2. -/
theorem test_unzz :
    after (exec .unzz { State.reset with zb := mkBlock fun k => BitVec.ofNat 8 k.val })
      (fun t => decide (t.qb[8] = 2 ∧ t.qb[16] = 3 ∧ t.qb[9] = 4 ∧ t.qb[2] = 5 ∧ t.qb[63] = 63)) = true := by decide
/-- V-RLE-5. -/
theorem test_rleenc : after (exec .rleenc (fed State.reset [5, 5, 5, 0, 7]))
    (fun t => decide (t.outLen = 7 ∧ out t 7 = [0, 3, 5, 0, 1, 0, 7])) = true := by decide
/-- V-RLE-7: a run of 256. -/
theorem test_rleenc_cap : mrleEnc (List.replicate 256 0x41) = [0, 0xFF, 0x41, 0x41] := by decide +kernel
/-- V-RLE-5 back, V-RLE-11. -/
theorem test_rledec : after (exec .rledec (fed State.reset [0, 3, 5, 0, 1, 0, 7, 0, 0, 9]))
    (fun t => decide (t.outLen = 5 ∧ out t 5 = [5, 5, 5, 0, 7])) = true := by decide
/-- V-RLE-15. -/
theorem test_rledec_cut : after (exec .rledec (fed State.reset [0x41, 0, 5]))
    (fun t => decide (t.err = .truncatedStream)) = true := by decide
/-- V-KEY-3: the first coefficient of an all-black 8 × 8 frame. -/
theorem test_xfkey :
    after (exec .xfkey { sized 8 8 with fstage := .raw, cur := ⟨List.replicate 64 0, List.replicate 16 128, List.replicate 16 128⟩ })
      (fun t => decide (t.statusWord = 0x00000A00#32 ∧ t.coef.head? = some 0xC0)) = true := by decide +kernel
theorem test_xfkey_stage : after (exec .xfkey (sized 8 8)) (fun t => decide (t.err = .badRequest)) = true := by decide
/-- R246: the header stands outside the code. -/
theorem test_emitkey :
    after (exec .emitkey { sized 16 2 with fstage := .transformed, coef := [0xC0, 0, 0] })
      (fun t => decide (t.fstage = .serialized ∧ out t 12 = [16, 0, 0, 0, 2, 0, 0, 0, 0xC0, 0, 2, 0])) = true := by decide
theorem test_emitkey_raw : after (exec .emitkey loaded) (fun t => decide (t.err = .precompressState)) = true := by decide
/-- V-KEY-5, the last stream. -/
theorem test_deckey :
    after (exec .deckey (fed State.reset [8, 0, 0, 0, 8, 0, 0, 0, 0, 0xC0, 0]))
      (fun t => decide (t.frmW = 8 ∧ t.statusWord = 0x00000800#32 ∧ t.ref.y.head? = some 128)) = true := by decide +kernel
/-- V-KEY-5: width 1. -/
theorem test_deckey_width : after (exec .deckey (fed State.reset [1, 0, 0, 0, 8, 0, 0, 0]))
    (fun t => decide (t.err = .malformedHeader ∧ t.frmW = 0)) = true := by decide
/-- R280: a shift by (1, 0) on an 18 × 2 plane, whose macroblock columns are 16 and 2 wide. -/
theorem test_mest_shift :
    field .y ((List.range 18).map fun k => BitVec.ofNat 8 (7 * k + 7)) ((List.range 18).map fun k => BitVec.ofNat 8 (7 * k))
      18 1 2 = [⟨1, 0⟩, ⟨0, 0⟩] := by decide +kernel
theorem test_mest : after (exec (.mest .cb) loaded)
    (fun t => decide (t.mv.cb = [⟨0, 0⟩] ∧ t.mvv = ⟨false, true, false⟩)) = true := by decide
theorem test_mcomp :
    after (exec (.mcomp .y) { sized 18 2 with
        refv := true, mvv := ⟨true, false, false⟩, ref := ⟨(List.range 36).map (BitVec.ofNat 8), [], []⟩
        mv := ⟨[⟨2, 0⟩, ⟨BitVec.ofInt 8 (-1), 0⟩], [], []⟩ })
      (fun t => decide (t.pred.y[0]? = some 2 ∧ t.pred.y[15]? = some 17 ∧ t.pred.y[16]? = some 15 ∧
        t.pred.y[35]? = some 34)) = true := by decide +kernel
theorem test_mcomp_no_field : after (exec (.mcomp .y) loaded) (fun t => decide (t.err = .badRequest)) = true := by decide
theorem test_resid : after (exec (.resid .cr) { loaded with predv := ⟨true, true, true⟩, pred := ⟨[], [], [255]⟩ })
    (fun t => decide (t.res.cr = [-248] ∧ t.resv = ⟨false, false, true⟩)) = true := by decide
/-- V-P-2: `STATUS` after `XFP`, and the residual. -/
theorem test_xfp : after (exec .xfp loaded)
    (fun t => decide (t.statusWord = 0x001FFE00#32 ∧ t.res.y = [10, 10, 10, 10] ∧ t.res.cr = [-2])) = true := by decide +kernel
/-- V-P-5. -/
theorem test_xfp_no_reference : after (exec .xfp { loaded with refv := false })
    (fun t => decide (t.err = .missingReference)) = true := by decide
/-- V-P-3: vector bytes follow the coefficients. -/
theorem test_emitp :
    after (exec .emitp { loaded with
        fstage := .serialized, fkind := .predicted, coef := [5], mv := ⟨[⟨2, 3⟩, ⟨BitVec.ofInt 8 (-1), 4⟩], [⟨7, 8⟩], [⟨9, 10⟩]⟩ })
      (fun t => decide (out t 9 = [5, 2, 3, 0xFF, 4, 7, 8, 9, 10])) = true := by decide
theorem test_emitp_key : after (exec .emitp { loaded with fstage := .transformed })
    (fun t => decide (t.err = .badRequest)) = true := by decide
/-- V-P-4, at 2 × 2: one byte short, one byte long. -/
theorem test_decp_length :
    after (exec .decp (fed loaded [0, 197, 0])) (fun t => decide (t.err = .truncatedStream)) = true ∧
      after (exec .decp (fed loaded [0, 199, 0])) (fun t => decide (t.err = .malformedHeader)) = true := by
  decide +kernel
/-- V-P-4: a vector that leaves the plane. -/
theorem test_decp_vector :
    after (exec .decp (fed loaded [0, 192, 0, 1, 0, 5, 0])) (fun t => decide (t.err = .invalidVector)) = true := by
  decide +kernel
theorem test_chrst : after (exec .chrst { State.reset with chs := [[1]], cheCount := 1, cheW := 2, cheH := 2, chopen := true })
    (fun t => decide (t.chs = [] ∧ t.cheCount = 0 ∧ t.cheW = 0 ∧ t.chopen = true)) = true := by decide
theorem test_chapp :
    after (exec .chapp { sized 2 2 with fstage := .transformed, coef := [1, 2] })
      (fun t => decide (t.chs = [[2, 0, 0, 0, 2, 0, 0, 0, 1, 2]] ∧ t.cheCount = 1 ∧ t.cheW = 2 ∧ t.fstage = .serialized)) =
        true := by decide
theorem test_chapp_kind : after (exec .chapp { loaded with fstage := .transformed, fkind := .predicted })
    (fun t => decide (t.err = .badRequest)) = true := by decide
/-- The layout of V-CH-1. -/
theorem test_chemit :
    after (exec .chemit { State.reset with chs := [[0xAA, 0xBB], [0xCC]], cheCount := 2, cheW := 16, cheH := 17 })
      (fun t => decide (out t 23 = [2, 0, 0, 0, 2, 0, 0, 0, 1, 0, 0, 0, 16, 0, 0, 0, 17, 0, 0, 0, 0xAA, 0xBB, 0xCC])) =
        true := by decide
theorem test_chopen :
    after (exec .chopen (fed State.reset [2, 0, 0, 0, 2, 0, 0, 0, 1, 0, 0, 0, 16, 0, 0, 0, 17, 0, 0, 0, 0xAA, 0xBB, 0xCC]))
      (fun t => decide (t.frmW = 16 ∧ t.frmH = 17 ∧ t.chlen = [2, 1] ∧ t.chdOff = 20 ∧ t.chdIdx = 0 ∧ t.chopen = true)) =
        true := by decide
/-- V-CH-1: a byte too many. -/
theorem test_chopen_long :
    after (exec .chopen (fed State.reset [1, 0, 0, 0, 1, 0, 0, 0, 16, 0, 0, 0, 17, 0, 0, 0, 0xAA, 0xBB]))
      (fun t => decide (t.err = .malformedHeader)) = true := by decide

/-- A chain of two 2 × 2 frames, opened: a still stream of 11 bytes at 20, a payload of 3 bytes at 31. -/
def chain : State :=
  { fed (sized 2 2) ([2, 0, 0, 0, 11, 0, 0, 0, 3, 0, 0, 0, 2, 0, 0, 0, 2, 0, 0, 0] ++
      [2, 0, 0, 0, 2, 0, 0, 0, 0, 192, 0] ++ [0, 198, 0]) with
    chopen := true, chdCount := 2, chlen := [11, 3], chdOff := 20 }

theorem test_chnext : after (exec .chnext chain)
    (fun t => decide (t.err = .ok ∧ t.chdIdx = 1 ∧ t.chdOff = 31 ∧ t.refv = true)) = true := by decide +kernel
theorem test_chnext_exhausted : after (exec .chnext { chain with chdIdx := 2, chdOff := 34 })
    (fun t => decide (t.err = .badRequest)) = true := by decide

/-! ### Witnesses: for every statement with hypotheses, a state and operands that meet them -/

theorem witness_StepRunsCommand :
    (∃ (s : State) (rest : List HostAction), s.host = .regWrite 0 0x10#32 :: rest) ∧ decode 0x10#32 = .ok .rgb2ycc ∧
      (∃ s : State, s.host = [.reset]) ∧ loaded.host = [] :=
  ⟨⟨{ State.reset with host := [.regWrite 0 0x10#32, .regRead 1] }, [.regRead 1], rfl⟩, by decide,
    ⟨{ State.reset with host := [.reset] }, rfl⟩, rfl⟩

/-- The last register of the map and the first number beyond it. -/
theorem witness_HostRegisters :
    State.reset.readReg 15 = Config.idValue ∧ 16 ≤ (16 : Nat) ∧ State.reset.readReg 16 = 0 ∧
      perform (.regWrite 16 7) State.reset = .next State.reset := ⟨rfl, le_rfl, rfl, rfl⟩

theorem witness_WindowsAndBuffers :
    (63 : Nat) < 64 ∧ 64 ≤ (64 : Nat) ∧ State.reset.inbuf.wf = true ∧ 2 ^ 32 - 2 < State.reset.cfg.inCap ∧
      State.reset.cfg.inCap ≤ 2 ^ 32 - 1 ∧ 2 ^ 32 - 2 < State.reset.cfg.outCap ∧
      State.reset.cfg.outCap ≤ 2 ^ 32 - 1 := by
  refine ⟨by decide, by decide, rfl, ?_, ?_, ?_, ?_⟩ <;> simp [State.reset, Config.build]

theorem witness_Rgb2yccConverts :
    ∃ (s : State) (r g b : Int), r = s.px.toNat % 256 ∧ g = s.px.toNat / 2 ^ 8 % 256 ∧ b = s.px.toNat / 2 ^ 16 % 256 :=
  ⟨{ State.reset with px := 0xFF3264C8#32 }, 200, 100, 50, by decide, by decide, by decide⟩

theorem witness_Ycc2rgbConverts :
    ∃ (s : State) (y cb cr : Int), y = s.yc.toNat % 256 ∧ cb = s.yc.toNat / 2 ^ 8 % 256 ∧ cr = s.yc.toNat / 2 ^ 16 :=
  ⟨{ State.reset with yc := 0xB6567C#24 }, 124, 86, 182, by decide, by decide, by decide⟩

/-- The smallest legal dimensions. -/
theorem witness_LdpixLoadsPixels :
    let s := fed (sized 2 2) (List.replicate 16 9)
    legalDims s.cfg s.frmW.toNat s.frmH.toNat ∧ s.inLen.toNat ≤ s.cfg.inCap ∧
      s.inLen.toNat = 4 * s.frmW.toNat * s.frmH.toNat := by decide

theorem witness_LdplnLoadsPlanes :
    let s := fed (sized 2 2) (List.replicate 12 9)
    legalDims s.cfg s.frmW.toNat s.frmH.toNat ∧ s.inLen.toNat ≤ s.cfg.inCap ∧
      s.inLen.toNat = 3 * (s.frmW.toNat * s.frmH.toNat) := by decide

/-- A frame of the three plane sets a store command reads, all valid. -/
def allValid : State :=
  { loaded with predv := ⟨true, true, true⟩, resv := ⟨true, true, true⟩, pred := loaded.ref, res := ⟨[1, 2, 3, 4], [-5], [-255]⟩ }

/-- An output of exactly `OUT_CAP` bytes. -/
theorem witness_StrgbaStoresPixels :
    let s := { allValid with cfg := { Config.build with outCap := 16 } }
    s.cfg.Legal ∧ (∀ ps : PlaneSet, ps ≠ .res → PlaneSetValid s ps [.y, .cb, .cr]) ∧ 4 * s.W * s.H ≤ s.cfg.outCap := by
  refine ⟨by decide, ?_, by decide⟩
  intro ps
  cases ps <;> simp [PlaneSetValid, allValid, loaded, PerCh.get]

theorem witness_StplnStoresPlanes :
    let s := { allValid with cfg := { Config.build with outCap := 6 } }
    s.cfg.Legal ∧ (∀ ps : PlaneSet, ps ≠ .res → PlaneSetValid s ps [.y, .cb, .cr] ∧ PlanesFit s.W s.H (s.planesOf ps)) ∧
      s.W * s.H + 2 * (s.W / 2) * (s.H / 2) ≤ s.cfg.outCap := by
  refine ⟨by decide, ?_, by decide⟩
  intro ps hp
  refine ⟨?_, fun c => ?_⟩
  · cases ps <;> simp [PlaneSetValid, allValid, loaded, PerCh.get]
  · cases ps <;> cases c <;> first | exact absurd rfl hp | decide

/-- The last block of each plane. -/
theorem witness_GetblkExtractsBlock :
    ∀ (ps : PlaneSet) (ch : Ch), PlaneSetValid allValid ps [ch] ∧ 8 * allValid.arg0.toNat < planeW allValid.W ch ∧
      8 * allValid.arg1.toNat < planeH allValid.H ch := by
  intro ps ch
  refine ⟨?_, ?_, ?_⟩
  · cases ps <;> cases ch <;> simp [PlaneSetValid, allValid, loaded, PerCh.get]
  · cases ch <;> decide
  · cases ch <;> decide

/-- The bound itself, for each value of the bias. -/
theorem witness_FdctTransforms :
    let s : State := { State.reset with sb := Vector.replicate 64 0x00800000#32 }
    let u : State := { State.reset with sb := Vector.replicate 64 0x00800080#32 }
    (∀ n : Fin 64, (s.sb[n].toInt - if false then 128 else 0).natAbs ≤ 2 ^ 23) ∧
      ∀ n : Fin 64, (u.sb[n].toInt - if true then 128 else 0).natAbs ≤ 2 ^ 23 := by
  constructor <;> decide +kernel

theorem witness_IdctTransforms :
    ∀ n : Fin 64, f32IsFinite State.reset.tb[n] = true ∧ |patternRat State.reset.tb[n]| ≤ 2 ^ 23 := by
  intro n
  have h : State.reset.tb[n] = 0#32 := Vector.getElem_replicate n.isLt
  have h0 : F32.ofBits 0#32 = ⟨false, 0⟩ := by decide
  rw [h]
  exact ⟨by decide, by simp [patternRat, h0, F32.toRat, F32.units]⟩

theorem witness_QuantQuantises : ∀ n : Fin 64, f32IsFinite State.reset.tb[n] = true := by decide

/-- An output of exactly `OUT_CAP` bytes, and an `IN_LEN` of exactly `IN_CAP`. -/
theorem witness_RleencWritesCode :
    let s := { fed State.reset [5, 5, 5, 0, 7] with cfg := { Config.build with inCap := 5, outCap := 7 } }
    s.cfg.Legal ∧ s.inLen.toNat ≤ s.cfg.inCap ∧ (mrleEnc s.input).length ≤ s.cfg.outCap := by decide

theorem witness_RledecWritesBytes :
    let s := { fed State.reset [0, 3, 5, 7] with cfg := { Config.build with inCap := 4, outCap := 4 } }
    s.cfg.Legal ∧ s.inLen.toNat ≤ s.cfg.inCap ∧ mrleDec s.input = some [5, 5, 5, 7] ∧ [5, 5, 5, (7 : Byte)].length ≤ s.cfg.outCap := by
  decide

/-- A raw frame with its first and last blocks and samples; operands at the bound of `FDCT`'s domain, with and without
bias. -/
theorem witness_XfkeyCodesAndReconstructs :
    (loaded.fstage = .raw ∧ ∀ c : Ch, 0 < ceil8 (planeW loaded.W c) ∧ 0 < ceil8 (planeH loaded.H c) ∧
      0 < planeW loaded.W c ∧ 0 < planeH loaded.H c) ∧
    ∀ b : Bool, ∃ s : State, ∀ n : Fin 64, (s.sb[n].toInt - if b then 128 else 0).natAbs ≤ 2 ^ 23 := by
  refine ⟨⟨rfl, fun c => by cases c <;> decide⟩, fun b => ?_⟩
  cases b
  · exact ⟨{ State.reset with sb := Vector.replicate 64 0x00800000#32 }, by decide +kernel⟩
  · exact ⟨{ State.reset with sb := Vector.replicate 64 0x00800080#32 }, by decide +kernel⟩

theorem witness_EmitkeyWritesStream :
    ∀ f ∈ [Stage.transformed, .serialized],
      let s : State := { sized 2 2 with fstage := f, coef := [1, 2, 2] }
      s.cfg.Legal ∧ (s.fstage = .transformed ∨ s.fstage = .serialized) ∧ s.fkind = .key ∧
        8 + (mrleEnc s.coef).length ≤ s.cfg.outCap := by decide

theorem witness_DeckeyDecodes :
    let s := fed State.reset [2, 0, 0, 0, 2, 0, 0, 0, 0, 192, 0]
    s.inLen.toNat ≤ s.cfg.inCap ∧ 8 ≤ s.inLen.toNat ∧ legalDims s.cfg (rd32 s.input 0) (rd32 s.input 4) ∧
      mrleDec (s.input.drop 8) = some (List.replicate 192 0) ∧
      (List.replicate 192 (0 : Byte)).length = lenCoef (rd32 s.input 0) (rd32 s.input 4) := by decide +kernel

theorem witness_MestEstimates : loaded.fstage = .raw ∧ loaded.refv = true := ⟨rfl, rfl⟩

theorem witness_McompPredicts :
    let s := { loaded with mvv := ⟨true, true, true⟩, mv := ⟨[⟨0, 0⟩], [⟨0, 0⟩], [⟨0, 0⟩]⟩ }
    s.refv = true ∧ ∀ ch : Ch, s.mvv.get ch = true ∧ 0 < mbCount ch (planeW s.W ch) (planeH s.H ch) ∧
      0 < (macroblock ch (planeW s.W ch) (planeH s.H ch) 0).w ∧ 0 < (macroblock ch (planeW s.W ch) (planeH s.H ch) 0).h := by
  refine ⟨rfl, fun ch => ?_⟩
  cases ch <;> decide

theorem witness_ResidSubtracts :
    allValid.fstage ≠ .empty ∧ ∀ ch : Ch, allValid.predv.get ch = true ∧
      (allValid.cur.get ch).length = planeW allValid.W ch * planeH allValid.H ch ∧
      (allValid.pred.get ch).length = planeW allValid.W ch * planeH allValid.H ch := by
  refine ⟨by decide, fun ch => ?_⟩
  cases ch <;> decide

theorem witness_XfpCodesAndReconstructs :
    loaded.fstage = .raw ∧ loaded.refv = true ∧ ∀ c : Ch, 0 < ceil8 (planeW loaded.W c) ∧
      0 < ceil8 (planeH loaded.H c) ∧ 0 < planeW loaded.W c ∧ 0 < planeH loaded.H c :=
  ⟨rfl, rfl, fun c => by cases c <;> decide⟩

theorem witness_EmitpWritesPayload :
    ∀ f ∈ [Stage.transformed, .serialized],
      let s : State := { loaded with fstage := f, fkind := .predicted, coef := [1, 2, 2], mv := ⟨[⟨1, 0⟩], [], []⟩ }
      let z : List Byte := [1, 0, 2, 2, 1, 0, 1, 0]
      s.cfg.Legal ∧ (s.fstage = .transformed ∨ s.fstage = .serialized) ∧ s.fkind = .predicted ∧
        z = mrleEnc (s.coef ++ (s.mv.y ++ s.mv.cb ++ s.mv.cr).flatMap fun v => [v.dx, v.dy]) ∧
        z.length ≤ s.cfg.outCap := by decide

theorem witness_DecpDecodes :
    let s := fed loaded [0, 198, 0]
    let p : List Byte := List.replicate 198 0
    s.inLen.toNat ≤ s.cfg.inCap ∧ s.refv = true ∧ mrleDec s.input = some p ∧
      p.length = lenCoef s.W s.H + lenVec s.W s.H ∧
      ∀ c : Ch, ∀ m < mbCount c (planeW s.W c) (planeH s.H c),
        vectorOk (planeW s.W c) (planeH s.H c) s.R (macroblock c (planeW s.W c) (planeH s.H c) m)
          (payloadVector s.W s.H p c m) := by
  refine ⟨by decide, by decide, by decide +kernel, by decide +kernel, fun c => ?_⟩
  cases c <;> decide +kernel

theorem witness_ChappAppends_key :
    let s : State := { sized 2 2 with fstage := .transformed, coef := [1, 2] }
    let z : List Byte := [2, 0, 0, 0, 2, 0, 0, 0, 1, 2]
    s.cfg.Legal ∧ s.fstage = .transformed ∧
      (s.cheCount = 0 ∧ s.fkind = .key ∧ z = le32 s.frmW.toNat ++ le32 s.frmH.toNat ++ mrleEnc s.coef) ∧
      s.cheCount.toNat < s.cfg.chMax ∧ z.length ≤ 2 ^ 32 - 1 := by decide

theorem witness_ChappAppends_predicted :
    let s : State := { sized 2 2 with
      fstage := .serialized, fkind := .predicted, coef := [1, 2], mv := ⟨[⟨3, 4⟩], [], []⟩, chs := [[1]], cheCount := 1, cheW := 2, cheH := 2 }
    let z : List Byte := [1, 2, 3, 4]
    s.cfg.Legal ∧ s.fstage = .serialized ∧
      (s.cheCount ≠ 0 ∧ s.fkind = .predicted ∧ s.frmW = s.cheW ∧ s.frmH = s.cheH ∧
        z = mrleEnc (s.coef ++ vecBytes s.mv.y ++ vecBytes s.mv.cb ++ vecBytes s.mv.cr)) ∧
      s.cheCount.toNat < s.cfg.chMax ∧ z.length ≤ 2 ^ 32 - 1 := by decide

/-- A chain-encode store of two frames. -/
def twoFrames : State := { State.reset with chs := [[0xAA, 0xBB], [0xCC]], cheCount := 2, cheW := 16, cheH := 17 }

theorem witness_ChemitWritesContainer :
    let s := { twoFrames with cfg := { Config.build with outCap := 23 } }
    s.cfg.Legal ∧ s.cheCount ≠ 0 ∧ s.cheCount.toNat = s.chs.length ∧
      12 + 4 * s.chs.length + (s.chs.map List.length).sum ≤ s.cfg.outCap := by decide

theorem witness_ChopenOpensChain :
    let s := { fed State.reset [2, 0, 0, 0, 2, 0, 0, 0, 1, 0, 0, 0, 16, 0, 0, 0, 17, 0, 0, 0, 0xAA, 0xBB, 0xCC] with
      cfg := { Config.build with inCap := 23, chMax := 2 } }
    s.inLen.toNat ≤ s.cfg.inCap ∧ 4 ≤ s.inLen.toNat ∧ 2 = rd32 s.input 0 ∧ 2 ≤ s.cfg.chMax ∧
      [2, 1] = (List.range 2).map (fun i => rd32 s.input (4 + 4 * i)) ∧ 16 = rd32 s.input (4 + 4 * 2) ∧
      17 = rd32 s.input (8 + 4 * 2) ∧ legalDims s.cfg 16 17 ∧ s.inLen.toNat = 12 + 4 * 2 + [2, 1].sum := by decide +kernel

theorem witness_ChnextDecodesNextFrame_first :
    let z : List Byte := [2, 0, 0, 0, 2, 0, 0, 0, 0, 192, 0]
    let p : List Byte := List.replicate 192 0
    chain.chopen = true ∧ chain.inLen.toNat ≤ chain.cfg.inCap ∧ chain.chdIdx.toNat < chain.chdCount.toNat ∧
      chain.chlen[chain.chdIdx.toNat]?.map BitVec.toNat = some 11 ∧ chain.chdOff.toNat + 11 ≤ chain.inLen.toNat ∧
      z = (List.range 11).map (fun i => chain.inByte (chain.chdOff.toNat + i)) ∧ chain.chdIdx = 0 ∧
      rd32 z 0 = chain.W ∧ rd32 z 4 = chain.H ∧ mrleDec (z.drop 8) = some p ∧ p.length = lenCoef chain.W chain.H := by
  decide +kernel

theorem witness_ChnextDecodesNextFrame_later :
    let s : State := { chain with chdIdx := 1, chdOff := 31, refv := true, ref := loaded.ref }
    let z : List Byte := [0, 198, 0]
    let p : List Byte := List.replicate 198 0
    s.chopen = true ∧ s.inLen.toNat ≤ s.cfg.inCap ∧ s.chdIdx.toNat < s.chdCount.toNat ∧
      s.chlen[s.chdIdx.toNat]?.map BitVec.toNat = some 3 ∧ s.chdOff.toNat + 3 ≤ s.inLen.toNat ∧
      z = (List.range 3).map (fun i => s.inByte (s.chdOff.toNat + i)) ∧ s.chdIdx ≠ 0 ∧ s.refv = true ∧
      mrleDec z = some p ∧ p.length = lenCoef s.W s.H + lenVec s.W s.H ∧
      ∀ c : Ch, ∀ m < mbCount c (planeW s.W c) (planeH s.H c),
        vectorOk (planeW s.W c) (planeH s.H c) s.R (macroblock c (planeW s.W c) (planeH s.H c) m)
          (payloadVector s.W s.H p c m) := by
  refine ⟨rfl, by decide, by decide, by decide, by decide, by decide +kernel, by decide, rfl, by decide +kernel, by decide +kernel,
    fun c => ?_⟩
  cases c <;> decide +kernel

theorem witness_AbortChangesNothing :
    ∃ t, perform (.regWrite 0 0x00000002#32) State.reset = .next t ∧ t.err ≠ .ok := ⟨_, rfl, by decide⟩

/-- No error yet and one now; an error already recorded. -/
theorem witness_FirstErrIsSticky :
    (∃ t, perform (.regWrite 0 0x00000002#32) State.reset = .next t ∧ State.reset.firstErr = .ok ∧ t.firstErr ≠ .ok) ∧
    (∃ t, perform (.regWrite 0 0x00000002#32) { State.reset with firstErr := .overflow } = .next t ∧
      ({ State.reset with firstErr := .overflow } : State).firstErr ≠ .ok) ∧
    HostAction.regWrite 0 0x00000002#32 ≠ .reset ∧ HostAction.regWrite 0 0x00000002#32 ≠ .regWrite 0 (encode .srst) :=
  ⟨⟨_, rfl, rfl, by decide⟩, ⟨_, rfl, by decide⟩, by decide, by decide⟩

/-- A command that completes, and one that sets and one that clears each validity bit. -/
theorem witness_OnlyNamedWriters :
    (∃ t, exec .zz allValid = .next t) ∧
    (∃ t, exec .xfkey { loaded with refv := false } = .next t ∧ t.refv = true) ∧
    (∃ t, exec .srst loaded = .next t ∧ loaded.refv = true ∧ t.refv = false) ∧
    (∀ c : Ch, ∃ t, exec (.mest c) loaded = .next t ∧ loaded.mvv.get c = false ∧ t.mvv.get c = true) ∧
    (∀ c : Ch, ∃ t, exec (.mcomp c) { loaded with mvv := ⟨true, true, true⟩ } = .next t ∧
      loaded.predv.get c = false ∧ t.predv.get c = true) ∧
    (∀ c : Ch, ∃ t, exec (.resid c) { allValid with resv := ⟨false, false, false⟩ } = .next t ∧
      t.resv.get c = true) ∧
    (∀ c : Ch, ∃ t, exec .srst allValid = .next t ∧ allValid.predv.get c = true ∧ t.predv.get c = false) ∧
    (∃ t, exec .chopen (fed State.reset [1, 0, 0, 0, 0, 0, 0, 0, 16, 0, 0, 0, 17, 0, 0, 0]) = .next t ∧
      t.chopen = true) ∧
    ∃ t, exec .srst chain = .next t ∧ chain.chopen = true ∧ t.chopen = false :=
  ⟨⟨_, rfl⟩, ⟨_, rfl, rfl⟩, ⟨_, rfl, rfl, rfl⟩, fun c => by cases c <;> exact ⟨_, rfl, rfl, rfl⟩,
    fun c => by cases c <;> exact ⟨_, rfl, rfl, rfl⟩, fun c => by cases c <;> exact ⟨_, rfl, rfl⟩,
    fun c => by cases c <;> exact ⟨_, rfl, rfl, rfl⟩, ⟨_, rfl, by decide⟩, ⟨_, rfl, rfl, rfl⟩⟩

/-- A command of each row of the stage table completes. -/
theorem witness_StageTransitions :
    (∃ t, exec .srst loaded = .next t ∧ t.err = .ok) ∧ (∃ t, exec .xfkey loaded = .next t ∧ t.err = .ok) ∧
    (∃ t, exec .xfp loaded = .next t ∧ t.err = .ok) ∧
    after (exec .ldpix (fed (sized 2 2) (List.replicate 16 9))) (fun t => decide (t.err = .ok)) = true ∧
    after (exec .emitkey { sized 2 2 with fstage := .transformed }) (fun t => decide (t.err = .ok)) = true ∧
    after (exec .emitp { sized 2 2 with fstage := .serialized, fkind := .predicted })
      (fun t => decide (t.err = .ok)) = true ∧
    after (exec .chapp { sized 2 2 with fstage := .transformed }) (fun t => decide (t.err = .ok)) = true :=
  ⟨⟨_, rfl, rfl⟩, ⟨_, rfl, rfl⟩, ⟨_, rfl, rfl⟩, by decide, by decide, by decide, by decide⟩

/-- A state after the first host writes, and one that differs from it in an invalid store. -/
def started (c : Plane) : State := { sized 2 2 with host := [.regWrite 4 15, .regWrite 0 0], cur := ⟨c, [], []⟩ }

theorem started_inv (c : Plane) : (started c).Inv where
  cfgLegal := show Config.build.Legal from by decide
  inbufOk := ⟨rfl, rfl⟩
  outbufOk := ⟨rfl, rfl⟩
  outLenOk := fun a ha => absurd ha (Nat.not_lt_zero a)
  firstErrOk := fun h => absurd rfl h
  curOk := fun h => absurd rfl h
  coefOk := fun h => nomatch h
  kindOk := fun h => nomatch h
  refOk := fun h => nomatch h
  mvOk := fun c h => by cases c <;> exact nomatch h
  predOk := fun c h => by cases c <;> exact nomatch h
  resOk := fun c h => by cases c <;> exact nomatch h
  chsOk := ⟨rfl, Nat.zero_le _, fun z hz => absurd hz (List.not_mem_nil)⟩
  cheOk := fun h => absurd rfl h
  chdOk := ⟨rfl, Nat.zero_le _⟩
  openOk := fun h => nomatch h

theorem witness_StepKeepsInv : ∃ s t : State, s.Inv ∧ step s = .next t ∧ t ≠ s :=
  ⟨started [], _, started_inv [], rfl, by decide⟩

theorem witness_InvalidStoresNeverRead :
    (started [1]).Inv ∧ (started [2]).Inv ∧ (started [1]).hideInvalid = (started [2]).hideInvalid ∧ started [1] ≠ started [2] :=
  ⟨started_inv _, started_inv _, rfl, by decide⟩

/-- The longest run, followed by the same byte; a run of one at the end. -/
theorem witness_MrleEncodesLongestRuns :
    ((1 ≤ 255 ∧ 255 ≤ 255) ∧ (255 = 255 ∨ ([65, 66] : List Byte).head? ≠ some 65)) ∧
    ((1 ≤ 1 ∧ 1 ≤ 255) ∧ (1 = 255 ∨ ([] : List Byte).head? ≠ some 65)) := by decide

/-- A literal; a stream the decoder accepts: V-RLE-11 with the longest run. -/
theorem witness_MrleRoundTrip :
    (0x41 : Byte) ≠ 0 ∧ mrleDec [0, 0, 9] = some [] ∧ mrleDec [0, 1, 0x41] = some [0x41] ∧
      mrleDec [0, 255, 7] = some (List.replicate 255 7) := by decide +kernel

theorem witness_FlRoundsToNearestEven :
    RepresentableMag (2 ^ 24) ∧ RepresentableMag (2 ^ 24 + 2) ∧ 2 ^ 24 + 2 ≠ flMag (2 ^ 24 + 1) 0 ∧
      flMag (2 ^ 24 + 1) 0 = 2 ^ 24 ∧ (2 : Nat) ^ 24 < 2 ^ 277 := by
  refine ⟨⟨1, 24, by norm_num, by norm_num⟩, ⟨2 ^ 23 + 1, 1, by norm_num, by norm_num⟩, by decide +kernel, by decide +kernel,
    by decide +kernel⟩

/-- The pattern of +0 is the rational 0. -/
theorem patternRat_zero : patternRat 0#32 = 0 := by
  unfold patternRat
  rw [show F32.ofBits 0#32 = ⟨false, 0⟩ from by decide]
  simp [F32.toRat, F32.units]

theorem witness_QuantDequantError :
    let f : Block Word := Vector.replicate 64 0
    ∀ q : Table, f32IsFinite f[(0 : Fin 64)] = true ∧ -128 ≤ rndRat (patternRat f[(0 : Fin 64)] / ((tableOf q)[(0 : Fin 64)] : Rat)) ∧
      rndRat (patternRat f[(0 : Fin 64)] / ((tableOf q)[(0 : Fin 64)] : Rat)) ≤ 127 := by
  intro f q
  have h0 : patternRat f[(0 : Fin 64)] = 0 := by
    rw [show f[(0 : Fin 64)] = 0#32 from by decide, patternRat_zero]
  refine ⟨by decide, ?_⟩
  rw [h0]
  norm_num [rndRat]

/-- A row moved by one: the offset `(1, 0)` is the first of cost 0. -/
theorem witness_ShiftIsRecovered :
    let cu : Plane := [2, 3, 0]
    let rf : Plane := [1, 2, 3]
    let b : Macroblock := ⟨0, 0, 2, 1⟩
    (∀ i j : Nat, i < b.w → j < b.h → sampleAt cu 3 (b.x + i) (b.y + j) = sampleZ rf 3 (b.x + i + 1) (b.y + j + 0)) ∧
    adm 3 1 b 1 0 ∧ -((2 : Nat) : Int) ≤ 1 ∧ (1 : Int) ≤ (2 : Nat) - 1 ∧ sad cu rf 3 b 0 0 ≠ 0 ∧
    ∀ u v : Int, -((2 : Nat) : Int) ≤ u → -((2 : Nat) : Int) ≤ v → v < (2 : Nat) → u < 1 ∨ (u = 1 ∧ v < 0) → adm 3 1 b u v →
      sad cu rf 3 b u v ≠ 0 := by
  refine ⟨?_, by decide, by decide, by decide, by decide, ?_⟩
  · intro i j hi hj
    simp only at hi hj
    interval_cases i <;> interval_cases j <;> decide
  · intro u v _ _ _ hd ha
    simp only [adm] at ha
    obtain rfl : u = 0 := by omega
    obtain rfl : v = 0 := by omega
    decide

/-- A block of samples of 128, in the default numerics: both operands are blocks of zeros, which transform to zeros. -/
theorem witness_SampleBlockRoundTrip :
    let s : State := { State.reset with sb := Vector.replicate 64 128 }
    (∀ n : Fin 64, 0 ≤ s.sb[n].toInt ∧ s.sb[n].toInt ≤ 255) ∧
    FdctAcc s.cfg.num (mkBlock fun n => s.sb[n].toInt - 128) ∧
    IdctAcc s.cfg.num (numFdct s.cfg.num (mkBlock fun n => s.sb[n].toInt - 128)) := by
  have ha : (mkBlock fun n => (Vector.replicate 64 (128 : Word))[n].toInt - 128) = (Vector.replicate 64 0 : Block Int) := by
    decide +kernel
  have hf : numFdct .ref32 (Vector.replicate 64 0 : Block Int) = Vector.replicate 64 0 := by decide +kernel
  have hi : numIdct .ref32 (Vector.replicate 64 0 : Block Word) = Vector.replicate 64 0 := by decide +kernel
  have h0 : patternRat (0 : Word) = 0 := patternRat_zero
  have hg : ∀ (α : Type) (v : α) (n : Fin 64), (Vector.replicate 64 v : Block α)[n] = v := fun _ v n =>
    Vector.getElem_replicate n.isLt
  refine ⟨by decide +kernel, ?_, ?_⟩
  · show FdctAcc .ref32 (mkBlock fun n => (Vector.replicate 64 (128 : Word))[n].toInt - 128)
    rw [ha]
    intro F hF n
    rw [hf, hg, h0, hF n]
    simp [hg]
  · show IdctAcc .ref32 (numFdct .ref32 (mkBlock fun n => (Vector.replicate 64 (128 : Word))[n].toInt - 128))
    rw [ha, hf]
    intro h hh n
    rw [hi, hg, hh n]
    simp [hg, patternRat_zero]

/-- Every operand has an exact inverse. -/
theorem witness_Ref32MissesAccOnSubnormals :
    let f : Block Word := (Vector.replicate 64 0).set 0 0x00000001#32
    ∃ h : Fin 64 → ℝ, IsInverseDct (fun m => ((patternRat f[m] : ℚ) : ℝ)) h := ⟨_, fun _ => rfl⟩

/-- What a host that copies the output of `u` to the input of `d` gets. -/
def feed (d u : State) : State := { d with inLen := u.outLen, inbuf := u.outbuf }

theorem feed_fedWith (d s : State) (l : List Byte) (hd : d.cfg = Config.build) (hl : l.length < 2 ^ 32) :
    FedWith (feed d (s.done l)) (s.done l) := by
  have h : (s.done l).outLen.toNat = l.length := by
    simp only [State.done_outLen, BitVec.toNat_ofNat]
    omega
  refine ⟨rfl, ?_, ?_⟩
  · show (s.done l).outLen.toNat ≤ d.cfg.inCap
    rw [h, hd]
    simp only [Config.build]
    omega
  · intro a ha
    rw [h] at ha
    rw [State.done_outByte s l a ha]
    simp [State.inByte, feed, Memory.read_ofBytes, ha]

theorem witness_KeyClosedLoop :
    ∃ s t u d : State, s.cfg.Legal ∧ s.fstage = .raw ∧ exec .xfkey s = .next t ∧ exec .emitkey t = .next u ∧ u.err = .ok ∧
      d.cfg.num = s.cfg.num ∧ legalDims d.cfg s.W s.H ∧ FedWith d u := by
  have hx : ∃ t, exec .xfkey loaded = .next t ∧ t.cfg = Config.build ∧ t.fstage = .transformed ∧ t.fkind = .key ∧
      t.coef.length = 192 :=
    ⟨_, rfl, rfl, rfl, rfl, coefOf_length _ _ _ _ _⟩
  obtain ⟨t, h1, h2, h3, h4, h5⟩ := hx
  have hl : (keyStream t.W t.H t.coef).length ≤ 584 := by
    have := mrleEnc_length t.coef
    simp only [keyStream, List.length_append, le32_length]
    omega
  have he : exec .emitkey t = .next ({ t with fstage := .serialized }.done (keyStream t.W t.H t.coef)) := by
    have ho : ¬ t.cfg.outCap < (keyStream t.W t.H t.coef).length := by
      rw [h2]
      simp only [Config.build]
      omega
    simp [exec, execEmitkey, h3, h4, ho, Stage.isTransformed]
  exact ⟨loaded, t, _, feed State.reset ({ t with fstage := .serialized }.done (keyStream t.W t.H t.coef)), by decide, rfl, h1,
    he, rfl, rfl, show legalDims Config.build 2 2 from by decide, feed_fedWith State.reset _ _ rfl (by omega)⟩

/-- `XFP` on a raw frame with a reference: what the next command sees of it. -/
theorem xfp_runs (s : State) (hf : s.fstage = .raw) (hv : s.refv = true) :
    ∃ t, exec .xfp s = .next t ∧ t.cfg = s.cfg ∧ t.fstage = .transformed ∧ t.fkind = .predicted ∧
      t.coef.length = lenCoef s.W s.H ∧ ∀ c : Ch, (t.mv.get c).length = mbCount c (planeW s.W c) (planeH s.H c) := by
  rw [exec, execXfp, if_neg (by simp [hf]), if_neg (by simp [hv])]
  refine ⟨_, rfl, ?_⟩
  simp [State.done, State.fieldOf]

theorem witness_PredictedClosedLoop :
    ∃ s t u d : State, s.cfg.Legal ∧ s.fstage = .raw ∧ s.refv = true ∧ exec .xfp s = .next t ∧ exec .emitp t = .next u ∧
      u.err = .ok ∧ d.frmW = s.frmW ∧ d.frmH = s.frmH ∧ d.cfg.num = s.cfg.num ∧ s.R ≤ d.R ∧ d.refv = true ∧ d.ref = s.ref ∧
      FedWith d u := by
  obtain ⟨t, h1, h2, h3, h4, h5, h6⟩ := xfp_runs loaded rfl rfl
  replace h2 : t.cfg = Config.build := h2
  replace h5 : t.coef.length = 192 := h5
  have h7 : t.mv.y.length = 1 := h6 .y
  have h8 : t.mv.cb.length = 1 := h6 .cb
  have h9 : t.mv.cr.length = 1 := h6 .cr
  have hl : (predStream t.coef t.mv).length ≤ 594 := by
    have := mrleEnc_length (t.coef ++ vecBytes t.mv.y ++ vecBytes t.mv.cb ++ vecBytes t.mv.cr)
    simp only [List.length_append, vecBytes_length, h5, h7, h8, h9] at this
    exact this
  have he : exec .emitp t = .next ({ t with fstage := .serialized }.done (predStream t.coef t.mv)) := by
    have ho : ¬ t.cfg.outCap < (predStream t.coef t.mv).length := by
      rw [h2]
      simp only [Config.build]
      omega
    simp [exec, execEmitp, h3, h4, ho, Stage.isTransformed]
  exact ⟨loaded, t, _, feed loaded ({ t with fstage := .serialized }.done (predStream t.coef t.mv)), by decide, rfl, rfl, h1,
    he, rfl, rfl, rfl, rfl, le_refl _, rfl, rfl, feed_fedWith loaded _ _ rfl (by omega)⟩

/-- A command of a sequence that completes, and one that leaves `ERR` ≠ 0. -/
theorem witness_XfpEqualsLeafCommands :
    (loaded.fstage = .raw ∧ loaded.refv = true) ∧ (∃ t, exec .nop loaded = .next t ∧ t.err = .ok) ∧
      ∃ t, exec .chemit loaded = .next t ∧ t.err ≠ .ok :=
  ⟨⟨rfl, rfl⟩, ⟨_, rfl, rfl⟩, ⟨_, rfl, by decide⟩⟩

theorem witness_ContainerRoundTrip :
    ∃ t d : State, twoFrames.cfg.Legal ∧ twoFrames.cheCount.toNat = twoFrames.chs.length ∧
      (∀ z ∈ twoFrames.chs, z.length < 2 ^ 32) ∧ exec .chemit twoFrames = .next t ∧ t.err = .ok ∧
      twoFrames.cheCount.toNat ≤ d.cfg.chMax ∧ legalDims d.cfg twoFrames.cheW.toNat twoFrames.cheH.toNat ∧ FedWith d t :=
  ⟨_, feed State.reset (twoFrames.done (container twoFrames.chs 16 17)), by decide, by decide, by decide, rfl, rfl, by decide,
    by decide, feed_fedWith State.reset twoFrames (container twoFrames.chs 16 17) rfl (by decide)⟩

end Sys2Proof.Tests
end

section
/-! PROOFS. Family 00_scope: `fl` rounds to a nearest binary32 value, ties to the even fraction (spec R13, R111). -/

namespace Sys2Proof.Machine

/-! ### Rounding a quotient by a power of two -/

/-- `rneShift m k` is within half a unit of `m / 2^k`, and even where it is exactly half a unit off. -/
theorem rneShift_half_unit (m k : Nat) :
    2 * ((m : Int) - (rneShift m k * 2 ^ k : Nat)).natAbs ≤ 2 ^ k ∧
      (2 * ((m : Int) - (rneShift m k * 2 ^ k : Nat)).natAbs = 2 ^ k → rneShift m k % 2 = 0) := by
  have hlt : m % 2 ^ k < 2 ^ k := Nat.mod_lt _ (Nat.two_pow_pos k)
  have hm : m / 2 ^ k * 2 ^ k + m % 2 ^ k = m := Nat.div_add_mod' m (2 ^ k)
  unfold rneShift
  simp only [Nat.shiftRight_eq_div_pow, Nat.shiftLeft_eq]
  generalize 2 ^ k = d at *
  split
  · rw [Nat.add_one_mul (m / d) d]
    omega
  · omega

/-- No other multiple of `2^k` is nearer to `m`, and where another is as near the answer is even. -/
theorem rneShift_nearest {m k a : Nat} (ha : a ≠ rneShift m k) :
    ((m : Int) - (rneShift m k * 2 ^ k : Nat)).natAbs ≤ ((m : Int) - (a * 2 ^ k : Nat)).natAbs ∧
      (((m : Int) - (rneShift m k * 2 ^ k : Nat)).natAbs = ((m : Int) - (a * 2 ^ k : Nat)).natAbs →
        rneShift m k % 2 = 0) := by
  obtain ⟨hhalf, heven⟩ := rneShift_half_unit m k
  have hgap : a * 2 ^ k + 2 ^ k ≤ rneShift m k * 2 ^ k ∨ rneShift m k * 2 ^ k + 2 ^ k ≤ a * 2 ^ k := by
    simp only [← Nat.add_one_mul]
    exact ha.lt_or_gt.imp (Nat.mul_le_mul_right _) (Nat.mul_le_mul_right _)
  exact ⟨by omega, fun htie => heven (by omega)⟩

/-! ### The grid `fl` rounds to -/

/-- `flMag p j` rounds `p` to a multiple of `2^(flScale p j)`, in units of 2^-149 * 2^-j. -/
def flScale (p j : Nat) : Nat := max j (p.log2 - 23)

theorem le_flScale (p j : Nat) : j ≤ flScale p j := le_max_left _ _

theorem flMag_eq (p j : Nat) : flMag p j = rneShift p (flScale p j) * 2 ^ (flScale p j - j) := Nat.shiftLeft_eq _ _

theorem mul_two_pow_flScale (p j a : Nat) : a * 2 ^ (flScale p j - j) * 2 ^ j = a * 2 ^ flScale p j := by
  rw [mul_assoc, ← pow_add, Nat.sub_add_cancel (le_flScale p j)]

/-- The significand of the answer; 2^24 itself is a carry into the next exponent. -/
theorem rneShift_flScale_le (p j : Nat) : rneShift p (flScale p j) ≤ 2 ^ 24 := by
  refine rneShift_le _ _ _ ?_
  rw [← pow_add]
  refine Nat.lt_log2_self.le.trans (Nat.pow_le_pow_right Nat.two_pos ?_)
  have : p.log2 - 23 ≤ flScale p j := le_max_right _ _
  omega

/-- A grid coarser than the subnormals' unit leaves `p` at least 24 significant bits. -/
theorem two_pow_le_of_lt_flScale {p j : Nat} (h : j < flScale p j) : 2 ^ (23 + flScale p j) ≤ p := by
  have hs : flScale p j = p.log2 - 23 := (max_choice j (p.log2 - 23)).resolve_left h.ne'
  have hp : p ≠ 0 := by
    rintro rfl
    simp at hs
    omega
  rw [← Nat.le_log2 hp]
  omega

/-! ### Representable magnitudes -/

theorem representableMag_of_le {a : Nat} (h : a ≤ 2 ^ 24) (n : Nat) : RepresentableMag (a * 2 ^ n) := by
  rcases h.lt_or_eq with hlt | rfl
  · exact ⟨a, n, hlt, rfl⟩
  · exact ⟨1, 24 + n, by norm_num, by rw [one_mul, pow_add]⟩

/-- What 24 significant bits hold is on the grid of `2^n` or below 24 bits of it. -/
theorem RepresentableMag.on_grid_or_lt {c : Nat} (h : RepresentableMag c) (n : Nat) :
    (∃ a, c = a * 2 ^ n) ∨ c < 2 ^ (23 + n) := by
  obtain ⟨f, e, hf, rfl⟩ := h
  rcases Nat.lt_or_ge e n with he | he
  · right
    calc f * 2 ^ e < 2 ^ 24 * 2 ^ e := Nat.mul_lt_mul_of_pos_right hf (Nat.two_pow_pos e)
      _ = 2 ^ (24 + e) := (pow_add 2 24 e).symm
      _ ≤ 2 ^ (23 + n) := Nat.pow_le_pow_right Nat.two_pos (by omega)
  · exact .inl ⟨f * 2 ^ (e - n), by rw [mul_assoc, ← pow_add, Nat.sub_add_cancel he]⟩

theorem representableMag_flMag (p j : Nat) : RepresentableMag (flMag p j) := by
  rw [flMag_eq]
  exact representableMag_of_le (rneShift_flScale_le p j) _

/-! ### Nearest, ties to even -/

/-- A representable magnitude off the grid is farther away: the power of two where the grid begins is between it and
`p`. -/
theorem flMag_lt_of_lt_grid {p j c : Nat} (hs : j < flScale p j) (hc : c < 2 ^ (23 + (flScale p j - j))) :
    ((p : Int) - (flMag p j * 2 ^ j : Nat)).natAbs < ((p : Int) - (c * 2 ^ j : Nat)).natAbs := by
  have hp := two_pow_le_of_lt_flScale hs
  have hcp : c * 2 ^ j < 2 ^ (23 + flScale p j) := by
    calc c * 2 ^ j < 2 ^ (23 + (flScale p j - j)) * 2 ^ j := Nat.mul_lt_mul_of_pos_right hc (Nat.two_pow_pos j)
      _ = 2 ^ (23 + flScale p j) := by rw [← pow_add]; congr 1; omega
  have hnear : ((p : Int) - (flMag p j * 2 ^ j : Nat)).natAbs ≤ ((p : Int) - (2 ^ (23 + flScale p j) : Nat)).natAbs := by
    rw [flMag_eq, mul_two_pow_flScale, pow_add]
    by_cases ha : 2 ^ 23 = rneShift p (flScale p j)
    · rw [ha]
    · exact (rneShift_nearest ha).1
  omega

/-- `flMag p j` is nearest among the representable magnitudes, and its significand is even where another is as near. -/
theorem flMag_nearest {p j c : Nat} (hc : RepresentableMag c) (hne : c ≠ flMag p j) :
    ((p : Int) - (flMag p j * 2 ^ j : Nat)).natAbs ≤ ((p : Int) - (c * 2 ^ j : Nat)).natAbs ∧
      (((p : Int) - (flMag p j * 2 ^ j : Nat)).natAbs = ((p : Int) - (c * 2 ^ j : Nat)).natAbs →
        rneShift p (flScale p j) % 2 = 0) := by
  by_cases hgrid : ∃ a, c = a * 2 ^ (flScale p j - j)
  · obtain ⟨a, rfl⟩ := hgrid
    have ha : a ≠ rneShift p (flScale p j) := fun h => hne (by rw [h, flMag_eq])
    simp only [flMag_eq, mul_two_pow_flScale]
    exact rneShift_nearest ha
  · have hlt := (hc.on_grid_or_lt (flScale p j - j)).resolve_left hgrid
    have hs : j < flScale p j := (le_flScale p j).lt_of_ne fun h => hgrid ⟨c, by simp [← h]⟩
    have hfar := flMag_lt_of_lt_grid hs hlt
    exact ⟨hfar.le, fun htie => absurd htie hfar.ne⟩

/-! ### The last fraction bit of a pattern -/

theorem log2_lt_of_lt_two_pow {m k : Nat} (hk : 0 < k) (h : m < 2 ^ k) : m.log2 < k := by
  rcases eq_or_ne m 0 with rfl | h0
  · exact Nat.log2_zero.trans_lt hk
  · exact (Nat.log2_lt h0).mpr h

/-- Bit 0 of a finite pattern is the last of the 24 leading bits of the magnitude. -/
theorem F32.toBits_getLsbD_zero (f : F32) (h : f.mag.log2 < 277) :
    f.toBits.getLsbD 0 = decide (f.mag >>> (f.mag.log2 - 23) % 2 = 1) := by
  have hsign : (if f.neg then 2 ^ 31 else 0) % 2 = 0 := by split <;> rfl
  rcases Nat.lt_or_ge f.mag (2 ^ 23) with hs | hs
  · have hl : f.mag.log2 - 23 = 0 := Nat.sub_eq_zero_of_le (log2_lt_of_lt_two_pow (by norm_num) hs).le
    rw [F32.toBits, if_pos hs, hl, BitVec.getLsbD_ofNat, Nat.testBit_zero, Nat.add_mod, hsign]
    simp
  · have h0 : f.mag ≠ 0 := by omega
    have hlo : 2 ^ 23 ≤ f.mag >>> (f.mag.log2 - 23) := by
      rw [Nat.shiftRight_eq_div_pow, Nat.le_div_iff_mul_le (Nat.two_pow_pos _), ← pow_add,
        Nat.add_sub_cancel' ((Nat.le_log2 h0).mpr hs)]
      exact Nat.log2_self_le h0
    simp only [F32.toBits, if_neg (Nat.not_lt.mpr hs), if_neg (show ¬ 254 ≤ f.mag.log2 - 23 by omega),
      BitVec.getLsbD_ofNat, Nat.testBit_zero]
    generalize f.mag >>> (f.mag.log2 - 23) = a at *
    simp only [Nat.zero_lt_succ, decide_true, Bool.true_and, decide_eq_decide]
    omega

/-- An even significand stays even when the leading 24 bits are taken, the carry 2^24 included. -/
theorem leading_bits_even {a : Nat} (ha : a ≤ 2 ^ 24) (heven : a % 2 = 0) (n : Nat) :
    (a * 2 ^ n) >>> ((a * 2 ^ n).log2 - 23) % 2 = 0 := by
  rcases ha.lt_or_eq with hlt | rfl
  · have hs : (a * 2 ^ n).log2 - 23 ≤ n := by
      have hm : a * 2 ^ n < 2 ^ (24 + n) := by
        rw [pow_add]
        exact Nat.mul_lt_mul_of_pos_right hlt (Nat.two_pow_pos n)
      have := log2_lt_of_lt_two_pow (by omega) hm
      omega
    rw [Nat.shiftRight_eq_div_pow, Nat.mul_div_assoc _ (pow_dvd_pow 2 hs), Nat.mul_mod, heven, Nat.zero_mul,
      Nat.zero_mod]
  · rw [← pow_add, Nat.log2_two_pow, Nat.shiftRight_eq_div_pow, Nat.pow_div (by omega) Nat.two_pos,
      show 24 + n - (24 + n - 23) = 23 by omega]

/-- Settles O50: on the grid by `rneShift_nearest`, off it by `flMag_lt_of_lt_grid`. -/
theorem flRoundsToNearestEven : Obligations.FlRoundsToNearestEven := by
  unfold Obligations.FlRoundsToNearestEven
  refine fun p j => ⟨representableMag_flMag p j, fun c hc => ?_⟩
  have hnear := fun hne => flMag_nearest (p := p) (j := j) hc hne
  push_cast at hnear
  refine ⟨?_, fun hne htie hlt => ?_⟩
  · by_cases hce : c = flMag p j
    · rw [hce]
    · exact (hnear hce).1
  · have heven := leading_bits_even (rneShift_flScale_le p j) ((hnear hne).2 htie) (flScale p j - j)
    rw [← flMag_eq] at heven
    rw [F32.toBits_getLsbD_zero _ (log2_lt_of_lt_two_pow (by norm_num) hlt), heven]
    rfl

end Sys2Proof.Machine
end

section
/-! PROOFS. Family 10_state: what a command can do, said once. It aborts with an error (spec R366) or it completes: its
checks held (R364) and the next state is its effect. -/

namespace Sys2Proof.Machine

/-! ### What a command can do -/

/-- `Completes s i t`: command `i` passes its checks in `s` and leaves `t`. -/
inductive Completes (s : State) : Instr → State → Prop
  | nop : Completes s .nop (s.done [])
  | srst : Completes s .srst s.warmReset
  | rgb2ycc {c : PerCh Byte} (conv : c = Machine.rgb2ycc (pxR s.px) (pxG s.px) (pxB s.px)) :
      Completes s .rgb2ycc ({ s with yc := packYc c.y c.cb c.cr }.done [])
  | ycc2rgb {p : Byte × Byte × Byte} (conv : p = Machine.ycc2rgb (ycY s.yc) (ycCb s.yc) (ycCr s.yc)) :
      Completes s .ycc2rgb ({ s with px := packPx p.1 p.2.1 p.2.2 255#8 }.done [])
  | ldpix (dims : s.dimsOK) (fits : s.inFits) (len : s.inLen.toNat = 4 * s.W * s.H) :
      Completes s .ldpix ({ s with cur := planesOfRgba s.W s.H s.input, fstage := .raw, fkind := .key }.done [])
  | ldpln (dims : s.dimsOK) (fits : s.inFits) (len : s.inLen.toNat = 3 * (s.W * s.H)) :
      Completes s .ldpln ({ s with cur := planesOfPlanes s.W s.H s.input, fstage := .raw, fkind := .key }.done [])
  | strgba {ps : PlaneSet} (bytes : ps ≠ .res) (valid : s.planeSetError ps (fun _ => true) = none)
      (cap : 4 * s.W * s.H ≤ s.cfg.outCap) :
      Completes s (.strgba ps) (s.done (rgbaOfPlanes s.W s.H (s.planesOf ps)))
  | stpln {ps : PlaneSet} (bytes : ps ≠ .res) (valid : s.planeSetError ps (fun _ => true) = none)
      (cap : s.W * s.H + 2 * (s.W / 2 * (s.H / 2)) ≤ s.cfg.outCap) :
      Completes s (.stpln ps) (s.done ((s.planesOf ps).y ++ (s.planesOf ps).cb ++ (s.planesOf ps).cr))
  | getblk {ps : PlaneSet} {ch : Ch} (valid : s.planeSetError ps (fun c => c = ch) = none)
      (col : s.arg0.toNat < ceil8 (planeW s.W ch)) (row : s.arg1.toNat < ceil8 (planeH s.H ch)) :
      Completes s (.getblk ps ch) ({ s with
        sb := mapBlock (BitVec.ofInt 32)
          (Machine.getblk (s.planeInt ps ch) (planeW s.W ch) (planeH s.H ch) s.arg0.toNat s.arg1.toNat) }.done [])
  | fdct {b : Bool} {a : Block Int} (operand : a = center b (mapBlock BitVec.toInt s.sb))
      (domain : a.toList.all (fun v => decide (v.natAbs ≤ 2 ^ 23)) = true) :
      Completes s (.fdct b) ({ s with tb := numFdct s.cfg.num a }.done [])
  | idct {b : Bool} (domain : s.tb.toList.all inIdctDomain = true) :
      Completes s (.idct b) ({ s with
        sb := mapBlock (fun v => BitVec.ofInt 32 (v + if b then 128 else 0))
          (rndBlock (numIdct s.cfg.num s.tb)) }.done [])
  | quant {t : Table} (domain : s.tb.toList.all f32IsFinite = true) :
      Completes s (.quant t) ({ s with qb := Machine.quant s.tb (tableOf t) }.done [])
  | dequant {t : Table} : Completes s (.dequant t) ({ s with tb := Machine.dequant s.qb (tableOf t) }.done [])
  | zz : Completes s .zz ({ s with zb := toZigzag s.qb }.done [])
  | unzz : Completes s .unzz ({ s with qb := fromZigzag s.zb }.done [])
  | rleenc (fits : s.inFits) (cap : (mrleEnc s.input).length ≤ s.cfg.outCap) :
      Completes s .rleenc (s.done (mrleEnc s.input))
  | rledec {d : List Byte} (fits : s.inFits) (dec : mrleDec s.input = some d) (cap : d.length ≤ s.cfg.outCap) :
      Completes s .rledec (s.done d)
  | xfkey {z : List Byte} (stage : s.fstage = .raw)
      (coded : z = coefOf s.cfg.num s.W s.H (fun c => s.planeInt .cur c) true) :
      Completes s .xfkey ({ s with
        coef := z, ref := keyPlanes s.cfg.num s.W s.H z, refv := true, fstage := .transformed
        fkind := .key }.done [])
  | emitkey (stage : s.fstage.isTransformed = true) (kind : s.fkind = .key)
      (cap : (keyStream s.W s.H s.coef).length ≤ s.cfg.outCap) :
      Completes s .emitkey ({ s with fstage := .serialized }.done (keyStream s.W s.H s.coef))
  | deckey {w h : Nat} {p : List Byte} (fits : s.inFits) (len : 8 ≤ s.inLen.toNat) (hw : w = rd32 s.input 0)
      (hh : h = rd32 s.input 4) (dims : legalDims s.cfg w h) (payload : keyPayload w h (s.input.drop 8) = .ok p) :
      Completes s .deckey ({ s.setDims (BitVec.ofNat 32 w) (BitVec.ofNat 32 h) with
        chopen := false, ref := keyPlanes s.cfg.num w h p, refv := true }.done [])
  | mest {ch : Ch} (stage : s.fstage = .raw) (ref : s.refv = true) :
      Completes s (.mest ch) ({ s with mv := s.mv.set ch (s.fieldOf ch), mvv := s.mvv.set ch true }.done [])
  | mcomp {ch : Ch} {p : Plane} (ref : s.refv = true) (valid : s.mvv.get ch = true)
      (predicted : p = predict ch (s.ref.get ch) (s.mv.get ch) (planeW s.W ch) (planeH s.H ch)) :
      Completes s (.mcomp ch) ({ s with pred := s.pred.set ch p, predv := s.predv.set ch true }.done [])
  | resid {ch : Ch} (stage : s.fstage ≠ .empty) (valid : s.predv.get ch = true) :
      Completes s (.resid ch) ({ s with
        res := s.res.set ch (residual (s.cur.get ch) (s.pred.get ch)), resv := s.resv.set ch true }.done [])
  | xfp {pr : PerCh Plane} {rs : PerCh ResPlane} {z : List Byte} (stage : s.fstage = .raw) (ref : s.refv = true)
      (predicted : pr = PerCh.of fun c => predict c (s.ref.get c) (s.fieldOf c) (planeW s.W c) (planeH s.H c))
      (rest : rs = PerCh.of fun c => residual (s.cur.get c) (pr.get c))
      (coded : z = coefOf s.cfg.num s.W s.H (fun c => resAt (rs.get c) (planeW s.W c)) false) :
      Completes s .xfp ({ s with
        mv := PerCh.of s.fieldOf, pred := pr, res := rs, coef := z, ref := reconPlanes s.cfg.num s.W s.H pr z
        mvv := ⟨true, true, true⟩, predv := ⟨true, true, true⟩, resv := ⟨true, true, true⟩
        fstage := .transformed, fkind := .predicted }.done [])
  | emitp (stage : s.fstage.isTransformed = true) (kind : s.fkind = .predicted)
      (cap : (predStream s.coef s.mv).length ≤ s.cfg.outCap) :
      Completes s .emitp ({ s with fstage := .serialized }.done (predStream s.coef s.mv))
  | decp {r : PerCh Plane} (fits : s.inFits) (ref : s.refv = true) (dec : s.decodePredicted s.input = .ok r) :
      Completes s .decp ({ s with ref := r }.done [])
  | chrst : Completes s .chrst ({ s with chs := [], cheCount := 0, cheW := 0, cheH := 0 }.done [])
  | chapp (stage : s.fstage.isTransformed = true) (first : s.cheCount = 0 → s.fkind = .key)
      (later : s.cheCount ≠ 0 → s.fkind = .predicted ∧ s.frmW = s.cheW ∧ s.frmH = s.cheH)
      (cap : s.cheCount.toNat < s.cfg.chMax) (len : s.frameStream.length < 2 ^ 32) :
      Completes s .chapp ({ s with
        cheW := if s.cheCount = 0 then s.frmW else s.cheW, cheH := if s.cheCount = 0 then s.frmH else s.cheH
        chs := s.chs ++ [s.frameStream], cheCount := s.cheCount + 1, fstage := .serialized }.done [])
  | chemit (count : s.cheCount ≠ 0) (cap : containerSize s.chs ≤ s.cfg.outCap) :
      Completes s .chemit (s.done (container s.chs s.cheW.toNat s.cheH.toNat))
  | chopen {c : ContainerHead} (fits : s.inFits) (head : parseContainer s.cfg s.input = .ok c) :
      Completes s .chopen ({ s.setDims (BitVec.ofNat 32 c.w) (BitVec.ofNat 32 c.h) with
        chopen := true, chdCount := BitVec.ofNat 32 c.count, chlen := c.lens.map (BitVec.ofNat 32), chdIdx := 0
        chdOff := BitVec.ofNat 32 (12 + 4 * c.count) }.done [])
  | chnext {r : PerCh Plane} (opened : s.chopen = true) (fits : s.inFits)
      (idx : s.chdIdx.toNat < s.chdCount.toNat) (len : s.chdOff.toNat + s.nextLen ≤ s.inLen.toNat)
      (dec : s.decodeNext (s.inBytes s.chdOff.toNat s.nextLen) = .ok r) :
      Completes s .chnext ({ s with
        ref := r, refv := true, chdIdx := s.chdIdx + 1
        chdOff := BitVec.ofNat 32 (s.chdOff.toNat + s.nextLen) }.done [])

/-- A result is a next state: that of a completed command, or that of an abort that names an error. -/
def Answers (s : State) (i : Instr) (r : Result) : Prop :=
  ∃ t, r = .next t ∧ ((∃ e, e ≠ .ok ∧ t = s.abort e) ∨ Completes s i t)

theorem Answers.abort {s : State} {i : Instr} {e : Err} (he : e ≠ .ok) : Answers s i (.next (s.abort e)) :=
  ⟨_, rfl, .inl ⟨e, he, rfl⟩⟩

theorem Answers.complete {s t : State} {i : Instr} (h : Completes s i t) : Answers s i (.next t) := ⟨t, rfl, .inr h⟩

/-- One check of a command: where it fails the command aborts, else the rest of the command runs. -/
theorem Answers.check {s : State} {i : Instr} {e : Err} {r : Result} {c : Prop} [Decidable c] (he : e ≠ .ok)
    (rest : ¬ c → Answers s i r) : Answers s i (if c then .next (s.abort e) else r) := by
  split
  · exact .abort he
  · exact rest ‹_›

/-- The check of a block's entries (R179, R180, R194), which is written with the branches the other way round. -/
theorem Answers.domain {s : State} {i : Instr} {e : Err} {r : Result} {c : Prop} [Decidable c] (he : e ≠ .ok)
    (rest : c → Answers s i r) : Answers s i (if c then r else .next (s.abort e)) := by
  split
  · exact rest ‹_›
  · exact .abort he

theorem State.planeSetError_ne_ok {s : State} {ps : PlaneSet} {need : Ch → Bool} {e : Err}
    (h : s.planeSetError ps need = some e) : e ≠ .ok := by
  rw [State.planeSetError_eq_some h]
  split <;> decide

/-- The check of a plane set (spec R158). -/
theorem Answers.planeSet {s : State} {i : Instr} {ps : PlaneSet} {need : Ch → Bool} {r : Result}
    (rest : s.planeSetError ps need = none → Answers s i r) :
    Answers s i (match s.planeSetError ps need with | some e => .next (s.abort e) | none => r) := by
  cases h : s.planeSetError ps need with
  | some e => exact .abort (State.planeSetError_ne_ok h)
  | none => exact rest h

/-- Each command is a row of checks, and then its effect (R364). -/
theorem exec_answers (i : Instr) (s : State) : Answers s i (exec i s) := by
  cases i with
  | nop => exact .complete .nop
  | srst => exact .complete .srst
  | rgb2ycc => exact .complete (.rgb2ycc rfl)
  | ycc2rgb => exact .complete (.ycc2rgb rfl)
  | ldpix =>
    exact .check (by decide) fun dims => .check (by decide) fun fits => .check (by decide) fun len =>
      .complete (.ldpix (not_not.mp dims) (not_not.mp fits) (not_not.mp len))
  | ldpln =>
    exact .check (by decide) fun dims => .check (by decide) fun fits => .check (by decide) fun len =>
      .complete (.ldpln (not_not.mp dims) (not_not.mp fits) (not_not.mp len))
  | strgba ps =>
    exact .check (by decide) fun bytes => .planeSet fun valid => .check (by decide) fun cap =>
      .complete (.strgba bytes valid (not_lt.mp cap))
  | stpln ps =>
    exact .check (by decide) fun bytes => .planeSet fun valid => .check (by decide) fun cap =>
      .complete (.stpln bytes valid (not_lt.mp cap))
  | getblk ps ch =>
    exact .planeSet fun valid => .check (by decide) fun place =>
      .complete (.getblk valid (not_le.mp (not_or.mp place).1) (not_le.mp (not_or.mp place).2))
  | fdct b => exact .domain (by decide) fun domain => .complete (.fdct rfl domain)
  | idct b => exact .domain (by decide) fun domain => .complete (.idct domain)
  | quant t => exact .domain (by decide) fun domain => .complete (.quant domain)
  | dequant t => exact .complete .dequant
  | zz => exact .complete .zz
  | unzz => exact .complete .unzz
  | rleenc =>
    exact .check (by decide) fun fits => .check (by decide) fun cap =>
      .complete (.rleenc (not_not.mp fits) (not_lt.mp cap))
  | rledec =>
    refine .check (by decide) fun fits => ?_
    cases dec : mrleDec s.input with
    | none => exact .abort (by decide)
    | some d => exact .check (by decide) fun cap => .complete (.rledec (not_not.mp fits) dec (not_lt.mp cap))
  | xfkey => exact .check (by decide) fun stage => .complete (.xfkey (not_not.mp stage) rfl)
  | emitkey =>
    exact .check (by decide) fun stage => .check (by decide) fun kind => .check (by decide) fun cap =>
      .complete (.emitkey (not_not.mp stage) (not_not.mp kind) (not_lt.mp cap))
  | deckey =>
    refine .check (by decide) fun fits => .check (by decide) fun len => .check (by decide) fun dims => ?_
    cases payload : keyPayload (rd32 s.input 0) (rd32 s.input 4) (s.input.drop 8) with
    | error e => exact .abort (keyPayload_error payload)
    | ok p => exact .complete (.deckey (not_not.mp fits) (not_lt.mp len) rfl rfl (not_not.mp dims) payload)
  | mest ch =>
    exact .check (by decide) fun stage => .check (by decide) fun ref =>
      .complete (.mest (not_not.mp stage) (not_not.mp ref))
  | mcomp ch =>
    exact .check (by decide) fun ref => .check (by decide) fun valid =>
      .complete (.mcomp (not_not.mp ref) (not_not.mp valid) rfl)
  | resid ch =>
    exact .check (by decide) fun stage => .check (by decide) fun valid => .complete (.resid stage (not_not.mp valid))
  | xfp =>
    exact .check (by decide) fun stage => .check (by decide) fun ref =>
      .complete (.xfp (not_not.mp stage) (not_not.mp ref) (by simp only [PerCh.of_get]) rfl rfl)
  | emitp =>
    exact .check (by decide) fun stage => .check (by decide) fun kind => .check (by decide) fun cap =>
      .complete (.emitp (not_not.mp stage) (not_not.mp kind) (not_lt.mp cap))
  | decp =>
    refine .check (by decide) fun fits => .check (by decide) fun ref => ?_
    cases dec : s.decodePredicted s.input with
    | error e => exact .abort (State.decodePredicted_error dec)
    | ok r => exact .complete (.decp (not_not.mp fits) (not_not.mp ref) dec)
  | chrst => exact .complete .chrst
  | chapp =>
    exact .check (by decide) fun stage => .check (by decide) fun first => .check (by decide) fun later =>
      .check (by decide) fun dims => .check (by decide) fun cap => .check (by decide) fun len =>
        .complete (.chapp (not_not.mp stage) (by tauto) (by tauto) (not_le.mp cap) (by omega))
  | chemit =>
    exact .check (by decide) fun count => .check (by decide) fun cap => .complete (.chemit count (not_lt.mp cap))
  | chopen =>
    refine .check (by decide) fun fits => ?_
    cases head : parseContainer s.cfg s.input with
    | error e => exact .abort (parseContainer_error head)
    | ok c => exact .complete (.chopen (not_not.mp fits) head)
  | chnext =>
    refine .check (by decide) fun opened => .check (by decide) fun fits => .check (by decide) fun idx =>
      .check (by decide) fun len => ?_
    cases dec : s.decodeNext (s.inBytes s.chdOff.toNat s.nextLen) with
    | error e => exact .abort (State.decodeNext_error dec)
    | ok r => exact .complete (.chnext (not_not.mp opened) (not_not.mp fits) (not_le.mp idx) (not_lt.mp len) dec)

/-- What a command that answers `t` did: it aborted with an error, or it completed. -/
theorem exec_cases {i : Instr} {s t : State} (h : exec i s = .next t) :
    (∃ e, e ≠ .ok ∧ t = s.abort e) ∨ Completes s i t := by
  obtain ⟨u, hu, hcases⟩ := exec_answers i s
  obtain rfl : t = u := by rw [h] at hu; injection hu
  exact hcases

/-- A command that leaves `ERR` 0 completed. -/
theorem exec_completes {i : Instr} {s t : State} (h : exec i s = .next t) (ok : t.err = .ok) : Completes s i t := by
  rcases exec_cases h with ⟨e, he, rfl⟩ | hc
  · exact absurd ok he
  · exact hc

end Sys2Proof.Machine
end

section
/-! PROOFS. Family 10_state: the stage (spec R36), `FIRSTERR` (R47), and which commands write which component (R20,
R22). -/

namespace Sys2Proof.Machine

/-! ### The stage (R36) -/

theorem Stage.isTransformed_iff (f : Stage) : f.isTransformed = true ↔ f = .transformed ∨ f = .serialized := by
  cases f <;> simp [Stage.isTransformed]

theorem Stage.ne_empty_of_isTransformed {f : Stage} (h : f.isTransformed = true) : f ≠ .empty := by
  rintro rfl
  simp [Stage.isTransformed] at h

/-- Settles O44: an abort leaves `ERR` ≠ 0, and each command that completes names its stage in its effect. -/
theorem stageTransitions : Obligations.StageTransitions := by
  unfold Obligations.StageTransitions
  intro i s t hexec ok
  cases exec_completes hexec ok with
  | emitkey stage kind => exact ⟨s.fstage.isTransformed_iff.mp stage, kind, rfl, kind⟩
  | emitp stage kind => exact ⟨s.fstage.isTransformed_iff.mp stage, kind, rfl, kind⟩
  | chapp stage => exact ⟨s.fstage.isTransformed_iff.mp stage, rfl, rfl⟩
  | xfkey stage | xfp stage => exact ⟨stage, rfl, rfl⟩
  | _ => exact ⟨rfl, rfl⟩

/-! ### FIRSTERR (R47) -/

/-- A command that completes, but for `SRST`, leaves `ERR` 0 and `FIRSTERR` as it was. -/
theorem Completes.err_firstErr {i : Instr} {s t : State} (h : Completes s i t) (hi : i ≠ .srst) :
    t.err = .ok ∧ t.firstErr = s.firstErr := by
  cases h with
  | srst => exact absurd rfl hi
  | _ => exact ⟨rfl, rfl⟩

/-- `FIRSTERR` after a command: the value it had if that was an error, else the command's `ERR`. -/
def TakesFirstErr (s t : State) : Prop := t.firstErr = if s.firstErr = .ok then t.err else s.firstErr

theorem State.abort_takesFirstErr (s : State) (e : Err) : TakesFirstErr s (s.abort e) := rfl

theorem exec_takesFirstErr {i : Instr} {s t : State} (h : exec i s = .next t) (hi : i ≠ .srst) : TakesFirstErr s t := by
  rcases exec_cases h with ⟨e, -, rfl⟩ | hc
  · exact s.abort_takesFirstErr e
  · obtain ⟨herr, hfirst⟩ := hc.err_firstErr hi
    rw [TakesFirstErr, herr, hfirst]
    split <;> simp_all

/-- A row's check of its unused bits passes exactly when they are zero (spec R93). -/
theorem requireZero_ok {w mask : Word} {r : Except DecodeError Instr} {i : Instr} :
    requireZero w mask r = .ok i ↔ w &&& mask &&& 0xFFFFFF00#32 = 0#32 ∧ r = .ok i := by
  unfold requireZero
  split <;> simp [*]

theorem decCh_ok {w : Word} {mk : Ch → Instr} {i : Instr} (h : decCh w mk = .ok i) : ∃ c, mk c = i := by
  rw [decCh, requireZero_ok] at h
  split at h
  · exact ⟨_, Except.ok.inj h.2⟩
  · exact nomatch h.2

theorem decPs_ok {w : Word} {mk : PlaneSet → Instr} {i : Instr} (h : decPs w mk = .ok i) : ∃ ps, mk ps = i := by
  rw [decPs, requireZero_ok] at h
  split at h
  · exact nomatch h.2
  · exact ⟨_, Except.ok.inj h.2⟩

theorem decPsCh_ok {w : Word} {mk : PlaneSet → Ch → Instr} {i : Instr} (h : decPsCh w mk = .ok i) :
    ∃ ps c, mk ps c = i := by
  rw [decPsCh, requireZero_ok] at h
  split at h
  · exact ⟨_, _, Except.ok.inj h.2⟩
  · exact nomatch h.2

/-- A word with opcode 1 and no other bit set is 1. -/
theorem eq_one_of_fieldOp {w : Word} (hop : fieldOp w = 1) (hz : w &&& 0xFFFFFFFF#32 &&& 0xFFFFFF00#32 = 0#32) :
    w = 1#32 := by
  have hlow : w &&& 0xFF#32 = w := by
    calc w &&& 0xFF#32 = w &&& 0xFF#32 ||| 0#32 := (BitVec.or_zero).symm
      _ = w &&& (0xFF#32 ||| 0xFFFFFFFF#32 &&& 0xFFFFFF00#32) := by
        rw [← hz, BitVec.and_assoc, BitVec.and_or_distrib_left]
      _ = w := BitVec.and_allOnes
  apply BitVec.eq_of_toNat_eq
  calc w.toNat = w.toNat % 2 ^ 8 := by
        rw [← Nat.and_two_pow_sub_one_eq_mod]
        exact (congrArg BitVec.toNat hlow).symm
    _ = 1 := by simpa [fieldOp] using hop

/-- The only word that decodes to `SRST` is its own (spec R92, R93): every other row of R92 gives another command. -/
theorem eq_encode_of_decode_srst {w : Word} (h : decode w = .ok .srst) : w = encode .srst := by
  unfold decode at h
  split at h
  -- the rows that differ: opcode 1 itself, and the rows with a field that can be illegal
  case h_2 hop => exact eq_one_of_fieldOp hop (requireZero_ok.mp h).1
  case h_7 | h_8 => exact nomatch decPs_ok h
  case h_9 => exact nomatch decPsCh_ok h
  case h_21 | h_22 | h_23 => exact nomatch decCh_ok h
  all_goals simp [decPlain, decB, decT, requireZero_ok] at h

/-- A write to `CMD` of any word but that of `SRST`. -/
theorem runWord_takesFirstErr {w : Word} {s t : State} (h : runWord w s = .next t) (hw : w ≠ encode .srst) :
    TakesFirstErr s t := by
  unfold runWord at h
  split at h
  · next i hi => exact exec_takesFirstErr h fun hs => hw (eq_encode_of_decode_srst (hs ▸ hi))
  · cases h
    exact s.abort_takesFirstErr _

theorem State.writeReg_firstErr (s : State) (n : Nat) (v : Word) : (s.writeReg n v).firstErr = s.firstErr := by
  unfold State.writeReg
  split <;> rfl

/-- A host action that starts no command and is no reset leaves `FIRSTERR` alone. -/
theorem perform_firstErr {a : HostAction} {s t : State} (h : perform a s = .next t) (hr : a ≠ .reset)
    (hc : ∀ w, a ≠ .regWrite 0 w) : t.firstErr = s.firstErr := by
  cases a with
  | reset => exact absurd rfl hr
  | regWrite n v =>
    cases n with
    | zero => exact absurd rfl (hc v)
    | succ n => cases h; exact s.writeReg_firstErr _ v
  | winWrite w i v => cases h; cases w <;> rfl
  | bufWrite a b =>
    cases h
    unfold State.bufWrite
    split <;> rfl
  | regRead n | winRead w i | bufReadIn a | bufRead a => cases h; rfl

/-- Settles O42: a command takes its `ERR` as `FIRSTERR` or keeps the one it finds, and nothing else writes it. -/
theorem firstErrIsSticky : Obligations.FirstErrIsSticky := by
  unfold Obligations.FirstErrIsSticky
  intro a s t h hr hs
  by_cases hc : ∃ w, a = .regWrite 0 w
  · obtain ⟨w, rfl⟩ := hc
    have hfirst : TakesFirstErr s t := runWord_takesFirstErr h fun hw => hs (congrArg _ hw)
    exact ⟨fun hset => hfirst.trans (if_neg hset), fun hok _ => ⟨w, rfl, hfirst.trans (if_pos hok)⟩,
      fun _ _ hok => hfirst.trans (if_pos hok)⟩
  · have hkeep := perform_firstErr h hr fun w hw => hc ⟨w, hw⟩
    exact ⟨fun _ => hkeep, fun hok hne => absurd (hkeep.trans hok) hne, fun w hw => absurd ⟨w, hw⟩ hc⟩

/-! ### Validity after a reset -/

@[simp] theorem PerCh.get_mk_self {α : Type} (v : α) (c : Ch) : (⟨v, v, v⟩ : PerCh α).get c = v := by cases c <;> rfl

@[simp] theorem State.reset_fstage : State.reset.fstage = .empty := rfl
@[simp] theorem State.reset_fkind : State.reset.fkind = .key := rfl
@[simp] theorem State.reset_refv : State.reset.refv = false := rfl
@[simp] theorem State.reset_mvv : State.reset.mvv = ⟨false, false, false⟩ := rfl
@[simp] theorem State.reset_predv : State.reset.predv = ⟨false, false, false⟩ := rfl
@[simp] theorem State.reset_resv : State.reset.resv = ⟨false, false, false⟩ := rfl
@[simp] theorem State.reset_chopen : State.reset.chopen = false := rfl

/-! ### What a command leaves alone (R20, R22) -/

theorem exec_host_side {i : Instr} {s t : State} (h : exec i s = .next t) :
    t.cfg = s.cfg ∧ t.host = s.host ∧ t.seen = s.seen ∧ t.inbuf = s.inbuf := by
  rcases exec_cases h with ⟨e, -, rfl⟩ | hc
  · exact ⟨rfl, rfl, rfl, rfl⟩
  · cases hc <;> exact ⟨rfl, rfl, rfl, rfl⟩

/-- The writers of the operand and pixel registers. -/
theorem exec_operand_writers {i : Instr} {s t : State} (h : exec i s = .next t) :
    (t.inLen ≠ s.inLen ∨ t.radius ≠ s.radius ∨ t.arg0 ≠ s.arg0 ∨ t.arg1 ≠ s.arg1 → i = .srst) ∧
    (t.px ≠ s.px → i ∈ [.srst, .ycc2rgb]) ∧ (t.yc ≠ s.yc → i ∈ [.srst, .rgb2ycc]) := by
  rcases exec_cases h with ⟨e, -, rfl⟩ | hc
  · simp
  · cases hc <;> simp

/-- The writers of the block registers. -/
theorem exec_block_writers {i : Instr} {s t : State} (h : exec i s = .next t) :
    (t.sb ≠ s.sb → i = .srst ∨ (∃ ps ch, i = .getblk ps ch) ∨ ∃ b, i = .idct b) ∧
    (t.tb ≠ s.tb → i = .srst ∨ (∃ b, i = .fdct b) ∨ ∃ q, i = .dequant q) ∧
    (t.qb ≠ s.qb → i = .srst ∨ (∃ q, i = .quant q) ∨ i = .unzz) ∧ (t.zb ≠ s.zb → i ∈ [.srst, .zz]) := by
  rcases exec_cases h with ⟨e, -, rfl⟩ | hc
  · simp
  · cases hc <;> simp

/-- The writers of the dimensions and of the stores of whole frames. -/
theorem exec_frame_writers {i : Instr} {s t : State} (h : exec i s = .next t) :
    (t.frmW ≠ s.frmW ∨ t.frmH ≠ s.frmH → i ∈ [.srst, .deckey, .chopen]) ∧
    (t.cur ≠ s.cur → i ∈ [.ldpix, .ldpln]) ∧ (t.ref ≠ s.ref → i ∈ [.xfkey, .xfp, .deckey, .decp, .chnext]) ∧
    (t.coef ≠ s.coef → i ∈ [.xfkey, .xfp]) := by
  rcases exec_cases h with ⟨e, -, rfl⟩ | hc
  · simp
  · cases hc <;> simp

/-- A channel that `PerCh.set` changes is the one it names. -/
theorem PerCh.eq_of_set_get_ne {α : Type} {p : PerCh α} {c d : Ch} {v : α} (h : (p.set c v).get d ≠ p.get d) :
    c = d := by
  by_contra hne
  exact h (by simp [Ne.symm hne])

/-- The writers of the stores that are written channel by channel. -/
theorem exec_channel_writers {i : Instr} {s t : State} (h : exec i s = .next t) (c : Ch) :
    (t.pred.get c ≠ s.pred.get c → i ∈ [.mcomp c, .xfp]) ∧ (t.res.get c ≠ s.res.get c → i ∈ [.resid c, .xfp]) ∧
    (t.mv.get c ≠ s.mv.get c → i ∈ [.mest c, .xfp]) := by
  rcases exec_cases h with ⟨e, -, rfl⟩ | hc
  · simp
  · cases hc with
    | mcomp | resid | mest => simpa using fun hne => PerCh.eq_of_set_get_ne hne
    | _ => simp

/-- The writers of the chain registers. -/
theorem exec_chain_writers {i : Instr} {s t : State} (h : exec i s = .next t) :
    (t.chs ≠ s.chs ∨ t.cheCount ≠ s.cheCount ∨ t.cheW ≠ s.cheW ∨ t.cheH ≠ s.cheH → i ∈ [.srst, .chrst, .chapp]) ∧
    (t.chlen ≠ s.chlen ∨ t.chdCount ≠ s.chdCount → i ∈ [.srst, .chopen]) ∧
    (t.chdIdx ≠ s.chdIdx ∨ t.chdOff ≠ s.chdOff → i ∈ [.srst, .chopen, .chnext]) := by
  rcases exec_cases h with ⟨e, -, rfl⟩ | hc
  · simp
  · cases hc <;> simp

/-- What sets and what clears `REFV` and `CHOPEN` (R38, R45). -/
theorem exec_refv_chopen {i : Instr} {s t : State} (h : exec i s = .next t) :
    (s.refv = false → t.refv = true → i ∈ [.xfkey, .deckey, .chnext]) ∧
    (s.refv = true → t.refv = false → i ∈ [.srst, .chopen]) ∧
    (s.chopen = false → t.chopen = true → i = .chopen) ∧
    (s.chopen = true → t.chopen = false → i ∈ [.srst, .deckey]) := by
  rcases exec_cases h with ⟨e, -, rfl⟩ | hc
  · simp +contextual
  · cases hc with
    | xfp _ ref => simp [ref]
    | _ => simp +contextual

/-- The channel bits that are set: the named channel's, or all three (R40 to R42). -/
theorem exec_sets_channel {i : Instr} {s t : State} (h : exec i s = .next t) (c : Ch) :
    (s.mvv.get c = false → t.mvv.get c = true → i ∈ [.mest c, .xfp]) ∧
    (s.predv.get c = false → t.predv.get c = true → i ∈ [.mcomp c, .xfp]) ∧
    (s.resv.get c = false → t.resv.get c = true → i ∈ [.resid c, .xfp]) := by
  rcases exec_cases h with ⟨e, -, rfl⟩ | hc
  · simp +contextual
  · cases hc <;> simp +contextual

/-- The channel bits are cleared by what sets the dimensions, and by `SRST`. -/
theorem exec_clears_channel {i : Instr} {s t : State} (h : exec i s = .next t) (c : Ch) :
    (s.mvv.get c = true ∧ t.mvv.get c = false) ∨ (s.predv.get c = true ∧ t.predv.get c = false) ∨
      (s.resv.get c = true ∧ t.resv.get c = false) → i ∈ [.srst, .deckey, .chopen] := by
  rcases exec_cases h with ⟨e, -, rfl⟩ | hc
  · simp +contextual
  · cases hc <;> simp +contextual

end Sys2Proof.Machine
end

section
/-! PROOFS. Family 10_state: two runs of one command in lockstep: the error fields (spec R52, R367) and the host's part
are never read. -/

namespace Sys2Proof.Machine

/-! ### Two runs in lockstep -/

/-- Both results are next states, and `R` relates the two. -/
def Lockstep (R : State → State → Prop) (r r' : Result) : Prop := ∃ t u, r = .next t ∧ r' = .next u ∧ R t u

theorem Lockstep.next {R : State → State → Prop} {t u : State} (h : R t u) : Lockstep R (.next t) (.next u) :=
  ⟨t, u, rfl, rfl, h⟩

/-- Two runs that take the same branch. -/
theorem Lockstep.branch {R : State → State → Prop} {c : Prop} [Decidable c] {a a' b b' : Result}
    (hpos : Lockstep R a a') (hneg : Lockstep R b b') :
    Lockstep R (if c then a else b) (if c then a' else b') := by
  split
  · exact hpos
  · exact hneg

/-- Both runs abort with the same error. -/
def AbortsAlike (R : State → State → Prop) (s u : State) : Prop := ∀ e, R (s.abort e) (u.abort e)

/-- Two runs that make the same check. -/
theorem AbortsAlike.check {R : State → State → Prop} {s u : State} {c : Prop} [Decidable c] {e : Err} {r r' : Result}
    (habort : AbortsAlike R s u) (rest : ¬ c → Lockstep R r r') :
    Lockstep R (if c then .next (s.abort e) else r) (if c then .next (u.abort e) else r') := by
  split
  · exact .next (habort e)
  · exact rest ‹_›

/-- Two runs that check the same plane set (spec R158). -/
theorem AbortsAlike.planeSet {R : State → State → Prop} {s u : State} {x : Option Err} {r r' : Result}
    (habort : AbortsAlike R s u) : (x = none → Lockstep R r r') →
      Lockstep R (match x with | some e => .next (s.abort e) | none => r)
        (match x with | some e => .next (u.abort e) | none => r') := by
  intro rest
  cases x with
  | some e => exact .next (habort e)
  | none => exact rest rfl

/-! ### The error fields and the host's part are never read (R52, R367) -/

/-- The state with other values in the error fields, the host's list and its record. -/
def State.reflag (s : State) (e f : Err) (h : List HostAction) (v : List Word) : State :=
  { s with err := e, firstErr := f, host := h, seen := v }

/-- `u` is `t` with another `FIRSTERR` and the given list and record of the host. -/
def SameRun (h : List HostAction) (v : List Word) (t u : State) : Prop :=
  u = { t with firstErr := u.firstErr, host := h, seen := v }

theorem exec_reflag (i : Instr) (s : State) (e f : Err) (h : List HostAction) (v : List Word) :
    Lockstep (SameRun h v) (exec i s) (exec i (s.reflag e f h v)) := by
  have abort : AbortsAlike (SameRun h v) s (s.reflag e f h v) := fun _ => rfl
  cases i with
  | nop | srst | rgb2ycc | ycc2rgb | dequant | zz | unzz | chrst => exact .next rfl
  | fdct | idct | quant => exact .branch (.next rfl) (.next rfl)
  | xfkey => exact abort.check fun _ => .next rfl
  | rleenc | mest | mcomp | resid | xfp | chemit => exact abort.check fun _ => abort.check fun _ => .next rfl
  | ldpix | ldpln | emitkey | emitp => exact abort.check fun _ => abort.check fun _ => abort.check fun _ => .next rfl
  | getblk => exact abort.planeSet fun _ => abort.check fun _ => .next rfl
  | strgba | stpln => exact abort.check fun _ => abort.planeSet fun _ => abort.check fun _ => .next rfl
  | chapp =>
    exact abort.check fun _ => abort.check fun _ => abort.check fun _ => abort.check fun _ => abort.check fun _ =>
      abort.check fun _ => .next rfl
  | rledec =>
    refine abort.check fun _ => ?_
    change Lockstep _ _ (match mrleDec s.input with | none => _ | some d => _)
    cases mrleDec s.input with
    | none => exact .next rfl
    | some d => exact abort.check fun _ => .next rfl
  | deckey =>
    refine abort.check fun _ => abort.check fun _ => abort.check fun _ => ?_
    change Lockstep _ _ (match keyPayload (rd32 s.input 0) (rd32 s.input 4) (s.input.drop 8) with
      | .error e => _ | .ok p => _)
    cases keyPayload (rd32 s.input 0) (rd32 s.input 4) (s.input.drop 8) with
    | error e => exact .next rfl
    | ok p => exact .next rfl
  | decp =>
    refine abort.check fun _ => abort.check fun _ => ?_
    change Lockstep _ _ (match s.decodePredicted s.input with | .error e => _ | .ok r => _)
    cases s.decodePredicted s.input with
    | error e => exact .next rfl
    | ok r => exact .next rfl
  | chopen =>
    refine abort.check fun _ => ?_
    change Lockstep _ _ (match parseContainer s.cfg s.input with | .error e => _ | .ok c => _)
    cases parseContainer s.cfg s.input with
    | error e => exact .next rfl
    | ok c => exact .next rfl
  | chnext =>
    refine abort.check fun _ => abort.check fun _ => abort.check fun _ => abort.check fun _ => ?_
    change Lockstep _ _ (match s.decodeNext (s.inBytes s.chdOff.toNat s.nextLen) with | .error e => _ | .ok r => _)
    cases s.decodeNext (s.inBytes s.chdOff.toNat s.nextLen) with
    | error e => exact .next rfl
    | ok r => exact .next rfl

/-- Settles O45: the two runs are in lockstep whatever the error fields are. -/
theorem earlierErrorsNeverMatter : Obligations.EarlierErrorsNeverMatter := by
  unfold Obligations.EarlierErrorsNeverMatter
  intro i s e f
  obtain ⟨t, u, ht, hu, hsame⟩ := exec_reflag i s e f s.host s.seen
  obtain ⟨-, hhost, hseen, -⟩ := exec_host_side ht
  refine ⟨t, u, ht, hu, ?_⟩
  rw [SameRun, ← hhost, ← hseen] at hsame
  exact hsame

/-- Two runs that start with one `FIRSTERR` and end with one `ERR` end with one `FIRSTERR`. -/
theorem exec_firstErr_congr {i : Instr} {s s' t u : State} (ht : exec i s = .next t) (hu : exec i s' = .next u)
    (hfirst : s'.firstErr = s.firstErr) (herr : u.err = t.err) : u.firstErr = t.firstErr := by
  by_cases hi : i = .srst
  · subst hi
    cases ht
    cases hu
    rfl
  · rw [exec_takesFirstErr hu hi, exec_takesFirstErr ht hi, hfirst, herr]

/-- No command reads the host's list or record. -/
theorem exec_host_unread {i : Instr} {s t : State} (ht : exec i s = .next t) (h : List HostAction) (v : List Word) :
    exec i { s with host := h, seen := v } = .next { t with host := h, seen := v } := by
  obtain ⟨t', u, ht', hu, hsame⟩ := exec_reflag i s s.err s.firstErr h v
  obtain rfl : t = t' := by rw [ht] at ht'; injection ht'
  have herr : u.err = t.err := congrArg (fun x => x.err) hsame
  rw [SameRun, exec_firstErr_congr ht hu rfl herr] at hsame
  exact hu.trans (congrArg _ hsame)

/-- Settles O43: the components group by group, as a command's effect names them; the last clause is
`exec_host_unread`. -/
theorem onlyNamedWriters : Obligations.OnlyNamedWriters := by
  unfold Obligations.OnlyNamedWriters
  intro i s t hexec
  obtain ⟨hcfg, hhost, hseen, hinbuf⟩ := exec_host_side hexec
  obtain ⟨hoperands, hpx, hyc⟩ := exec_operand_writers hexec
  obtain ⟨hsb, htb, hqb, hzb⟩ := exec_block_writers hexec
  obtain ⟨hdims, hcur, href, hcoef⟩ := exec_frame_writers hexec
  obtain ⟨hche, hchd, hnext⟩ := exec_chain_writers hexec
  obtain ⟨hsetref, hclearref, hsetopen, hclearopen⟩ := exec_refv_chopen hexec
  have hchannel := exec_channel_writers hexec
  have hset := exec_sets_channel hexec
  have hinByte : ∀ a, t.inByte a = s.inByte a := fun a => by rw [State.inByte, State.inByte, hinbuf]
  exact ⟨hcfg, hhost, hseen, hinbuf, hinByte, hoperands, hpx, hyc, hsb, htb, hqb, hzb, hdims, hcur, href,
    fun c => (hchannel c).1, fun c => (hchannel c).2.1, fun c => (hchannel c).2.2, hcoef, hche, hchd, hnext, hsetref,
    hclearref, fun c => (hset c).1, fun c => (hset c).2.1, fun c => (hset c).2.2, exec_clears_channel hexec, hsetopen,
    hclearopen, exec_host_unread hexec⟩

end Sys2Proof.Machine
end

section
/-! PROOFS. Family 10_state: no command reads a store whose validity condition is false (spec R51). -/

namespace Sys2Proof.Machine

/-! ### Stores whose validity condition is false are never read (R51) -/

/-- `u` is `t` but for the contents of stores that are invalid. -/
structure AgreeOnValid (t u : State) : Prop where
  rest : u = { t with cur := u.cur, ref := u.ref, pred := u.pred, res := u.res, mv := u.mv, coef := u.coef }
  cur : t.fstage ≠ .empty → u.cur = t.cur
  ref : t.refv = true → u.ref = t.ref
  pred : ∀ c, t.predv.get c = true → u.pred.get c = t.pred.get c
  res : ∀ c, t.resv.get c = true → u.res.get c = t.res.get c
  mv : ∀ c, t.mvv.get c = true → u.mv.get c = t.mv.get c
  coef : t.fstage.isTransformed = true → u.coef = t.coef

theorem State.agree_hideInvalid (s : State) : AgreeOnValid s s.hideInvalid where
  rest := rfl
  cur h := if_neg h
  ref h := if_pos h
  pred c h := by simp [State.hideInvalid, h]
  res c h := by simp [State.hideInvalid, h]
  mv c h := by simp [State.hideInvalid, h]
  coef h := if_pos h

theorem PerCh.of_congr_if {α : Type} {p : PerCh Bool} {x y : PerCh (List α)}
    (h : ∀ c, p.get c = true → x.get c = y.get c) :
    (PerCh.of fun c => if p.get c then x.get c else []) = PerCh.of fun c => if p.get c then y.get c else [] := by
  ext c : 1
  by_cases hc : p.get c = true <;> simp [hc, h]

/-- States that agree where stores are valid are one state once the invalid stores are hidden. -/
theorem AgreeOnValid.hideInvalid_eq {t u : State} (h : AgreeOnValid t u) : u.hideInvalid = t.hideInvalid := by
  obtain ⟨hrest, hcur, href, hpred, hres, hmv, hcoef⟩ := h
  rw [hrest]
  simp only [State.hideInvalid, PerCh.of_congr_if hpred, PerCh.of_congr_if hres, PerCh.of_congr_if hmv,
    ite_congr rfl (fun _ => rfl) hcur, ite_congr rfl href fun _ => rfl, ite_congr rfl hcoef fun _ => rfl]

theorem AgreeOnValid.done {t u : State} {out : List Byte} (h : AgreeOnValid t u) :
    AgreeOnValid (t.done out) (u.done out) :=
  ⟨congrArg (State.done · out) h.rest, h.cur, h.ref, h.pred, h.res, h.mv, h.coef⟩

theorem AgreeOnValid.abort {t u : State} (h : AgreeOnValid t u) : AbortsAlike AgreeOnValid t u := fun e =>
  ⟨congrArg (State.abort · e) h.rest, h.cur, h.ref, h.pred, h.res, h.mv, h.coef⟩

/-- Where every validity condition but that of `REF` is false, only `REF` has to agree. -/
theorem AgreeOnValid.of_cleared {t u : State}
    (rest : u = { t with cur := u.cur, ref := u.ref, pred := u.pred, res := u.res, mv := u.mv, coef := u.coef })
    (stage : t.fstage = .empty) (predv : t.predv = ⟨false, false, false⟩) (resv : t.resv = ⟨false, false, false⟩)
    (mvv : t.mvv = ⟨false, false, false⟩) (ref : t.refv = true → u.ref = t.ref) : AgreeOnValid t u where
  rest := rest
  cur h := absurd stage h
  ref := ref
  pred c h := by simp [predv] at h
  res c h := by simp [resv] at h
  mv c h := by simp [mvv] at h
  coef h := by simp [stage, Stage.isTransformed] at h

/-! ### What the valid stores give -/

theorem PerCh.get_congr_set {α : Type} {p q : PerCh α} {b : PerCh Bool} {ch : Ch} {x y : α}
    (h : ∀ c, b.get c = true → q.get c = p.get c) (hxy : y = x) :
    ∀ c, (b.set ch true).get c = true → (q.set ch y).get c = (p.set ch x).get c := by
  intro c hc
  by_cases hch : c = ch
  · simp [hch, hxy]
  · simpa [hch] using h c (by simpa [hch] using hc)

theorem AgreeOnValid.planesOf {s : State} {ps : PlaneSet} (h : AgreeOnValid s s.hideInvalid)
    (valid : s.planeSetError ps (fun _ => true) = none) : s.hideInvalid.planesOf ps = s.planesOf ps := by
  rw [State.planeSetError_eq_none] at valid
  cases ps with
  | cur => exact h.cur valid
  | ref => exact h.ref valid
  | pred => exact PerCh.ext_get fun c => h.pred c (valid c rfl)
  | res => rfl

theorem AgreeOnValid.planeInt {s : State} {ps : PlaneSet} {c : Ch} (h : AgreeOnValid s s.hideInvalid)
    (valid : s.planeSetError ps (fun d => d = c) = none) : s.hideInvalid.planeInt ps c = s.planeInt ps c := by
  rw [State.planeSetError_eq_none] at valid
  have plane : ∀ {p q : Plane}, p = q → (fun x y => sampleInt p (planeW s.W c) x y) =
      fun x y => sampleInt q (planeW s.W c) x y := fun h => by rw [h]
  cases ps with
  | cur => exact plane (congrArg (PerCh.get · c) (h.cur valid))
  | ref => exact plane (congrArg (PerCh.get · c) (h.ref valid))
  | pred => exact plane (h.pred c (valid c (decide_eq_true rfl)))
  | res =>
    have hres := h.res c (valid c (decide_eq_true rfl))
    funext x y
    exact congrArg (resAt · (planeW s.W c) x y) hres

theorem AgreeOnValid.fieldOf {s : State} (h : AgreeOnValid s s.hideInvalid) (stage : s.fstage ≠ .empty)
    (ref : s.refv = true) : s.hideInvalid.fieldOf = s.fieldOf := by
  funext c
  unfold State.fieldOf
  rw [h.cur stage, h.ref ref]
  rfl

theorem AgreeOnValid.decodePredicted {s : State} (h : AgreeOnValid s s.hideInvalid) (ref : s.refv = true)
    (z : List Byte) : s.hideInvalid.decodePredicted z = s.decodePredicted z := by
  unfold State.decodePredicted
  rw [h.ref ref]
  rfl

theorem AgreeOnValid.decodeNext {s : State} (h : AgreeOnValid s s.hideInvalid) (z : List Byte) :
    s.hideInvalid.decodeNext z = s.decodeNext z := by
  have hpred : (if ¬ s.refv then .error .missingReference else s.hideInvalid.decodePredicted z) =
      if ¬ s.refv then .error .missingReference else s.decodePredicted z :=
    ite_congr rfl (fun _ => rfl) fun ref => h.decodePredicted (not_not.mp ref) z
  exact congrArg (fun d => if s.chdIdx = 0 then _ else d) hpred

/-- The stream of a transformed frame: `COEF` is valid, and a predicted frame's fields are. -/
theorem AgreeOnValid.mv_eq {s : State} (h : AgreeOnValid s s.hideInvalid) (inv : s.Inv) (kind : s.fkind = .predicted) :
    s.hideInvalid.mv = s.mv := PerCh.ext_get fun c => h.mv c ((inv.kindOk kind).2 c)

theorem AgreeOnValid.frameStream {s : State} (h : AgreeOnValid s s.hideInvalid) (inv : s.Inv)
    (stage : s.fstage.isTransformed = true) : s.hideInvalid.frameStream = s.frameStream := by
  unfold State.frameStream
  have hkind : s.hideInvalid.fkind = s.fkind := rfl
  rw [hkind, h.coef stage]
  cases kind : s.fkind with
  | key => rfl
  | predicted => rw [h.mv_eq inv kind]

/-- Two runs that write the same bytes if they fit in `OUTBUF`. -/
theorem AgreeOnValid.output {s t u : State} {z z' : List Byte} (h : AgreeOnValid s s.hideInvalid)
    (hnext : AgreeOnValid t u) (hz : z' = z) :
    Lockstep AgreeOnValid (if s.cfg.outCap < z.length then .next (s.abort .overflow) else .next (t.done z))
      (if s.cfg.outCap < z'.length then .next (s.hideInvalid.abort .overflow) else .next (u.done z')) := by
  subst hz
  exact h.abort.check fun _ => .next hnext.done

theorem AgreeOnValid.done_congr {t u : State} {z z' : List Byte} (h : AgreeOnValid t u) (hz : z' = z) :
    AgreeOnValid (t.done z) (u.done z') := by
  subst hz
  exact h.done

/-- A transformed frame that becomes serialized keeps what is valid. -/
theorem AgreeOnValid.serialized {s : State} (h : AgreeOnValid s s.hideInvalid) (stage : s.fstage.isTransformed = true) :
    AgreeOnValid { s with fstage := .serialized } { s.hideInvalid with fstage := .serialized } :=
  ⟨rfl, fun _ => h.cur (Stage.ne_empty_of_isTransformed stage), h.ref, h.pred, h.res, h.mv,
    fun _ => h.coef stage⟩

/-- A state and the same state with its invalid stores emptied run in lockstep. -/
theorem exec_hideInvalid (i : Instr) (s : State) (inv : s.Inv) :
    Lockstep AgreeOnValid (exec i s) (exec i s.hideInvalid) := by
  have h := s.agree_hideInvalid
  have abort := h.abort
  cases i with
  | nop => exact .next (h.done)
  | srst => exact .next (.of_cleared rfl rfl rfl rfl rfl nofun)
  | rgb2ycc | ycc2rgb | dequant | zz | unzz | chrst =>
    exact .next (.done ⟨rfl, h.cur, h.ref, h.pred, h.res, h.mv, h.coef⟩)
  | fdct | idct | quant =>
    exact .branch (.next (.done ⟨rfl, h.cur, h.ref, h.pred, h.res, h.mv, h.coef⟩))  (.next (abort _))
  | ldpix | ldpln =>
    exact abort.check fun _ => abort.check fun _ => abort.check fun _ =>
      .next (.done ⟨rfl, fun _ => rfl, h.ref, h.pred, h.res, h.mv, nofun⟩)
  | strgba ps =>
    exact abort.check fun _ => abort.planeSet fun valid => abort.check fun _ =>
      .next (h.done_congr (congrArg (rgbaOfPlanes s.W s.H) (h.planesOf valid)))
  | stpln ps =>
    exact abort.check fun _ => abort.planeSet fun valid => abort.check fun _ =>
      .next (h.done_congr (congrArg (fun p => p.y ++ p.cb ++ p.cr) (h.planesOf valid)))
  | getblk ps ch =>
    refine abort.planeSet fun valid => abort.check fun _ => ?_
    have hblock : s.hideInvalid.planeInt ps ch = s.planeInt ps ch := h.planeInt valid
    rw [hblock]
    exact .next (.done ⟨rfl, h.cur, h.ref, h.pred, h.res, h.mv, h.coef⟩)
  | rleenc => exact abort.check fun _ => h.output h rfl
  | rledec =>
    refine abort.check fun _ => ?_
    change Lockstep _ _ (match mrleDec s.input with | none => _ | some d => _)
    cases mrleDec s.input with
    | none => exact .next (abort _)
    | some d => exact h.output h rfl
  | xfkey =>
    refine abort.check fun stage => ?_
    have hcur : s.hideInvalid.cur = s.cur := h.cur (by simp [not_not.mp stage])
    have hz : coefOf s.cfg.num s.W s.H (fun c => s.hideInvalid.planeInt .cur c) true =
        coefOf s.cfg.num s.W s.H (fun c => s.planeInt .cur c) true :=
      congrArg (coefOf s.cfg.num s.W s.H · true)
        (funext fun c => h.planeInt (by simp [State.planeSetError_cur, not_not.mp stage]))
    exact .next (.done ⟨rfl, fun _ => hcur, fun _ => congrArg (keyPlanes s.cfg.num s.W s.H) hz, h.pred, h.res, h.mv,
      fun _ => hz⟩)
  | emitkey =>
    refine abort.check fun stage => abort.check fun _ => ?_
    have hcoef := h.coef (not_not.mp stage)
    exact h.output (h.serialized (not_not.mp stage)) (congrArg (keyStream s.W s.H) hcoef)
  | emitp =>
    refine abort.check fun stage => abort.check fun kind => ?_
    have hcoef := h.coef (not_not.mp stage)
    have hmv := h.mv_eq inv (not_not.mp kind)
    exact h.output (h.serialized (not_not.mp stage)) (congrArg₂ predStream hcoef hmv)
  | deckey =>
    refine abort.check fun _ => abort.check fun _ => abort.check fun _ => ?_
    change Lockstep _ _ (match keyPayload (rd32 s.input 0) (rd32 s.input 4) (s.input.drop 8) with
      | .error e => _ | .ok p => _)
    cases keyPayload (rd32 s.input 0) (rd32 s.input 4) (s.input.drop 8) with
    | error e => exact .next (abort _)
    | ok p => exact .next (.done (.of_cleared rfl rfl rfl rfl rfl fun _ => rfl))
  | mest ch =>
    refine abort.check fun stage => abort.check fun ref => ?_
    have hfield := h.fieldOf (by simp [not_not.mp stage]) (not_not.mp ref)
    exact .next (.done ⟨rfl, h.cur, h.ref, h.pred, h.res, PerCh.get_congr_set h.mv (congrFun hfield ch), h.coef⟩)
  | mcomp ch =>
    refine abort.check fun ref => abort.check fun valid => ?_
    have hpred : predict ch (s.hideInvalid.ref.get ch) (s.hideInvalid.mv.get ch) (planeW s.W ch) (planeH s.H ch) =
        predict ch (s.ref.get ch) (s.mv.get ch) (planeW s.W ch) (planeH s.H ch) := by
      rw [h.ref (not_not.mp ref), h.mv ch (not_not.mp valid)]
    exact .next (.done ⟨rfl, h.cur, h.ref, PerCh.get_congr_set h.pred hpred, h.res, h.mv, h.coef⟩)
  | resid ch =>
    refine abort.check fun stage => abort.check fun valid => ?_
    have hres : residual (s.hideInvalid.cur.get ch) (s.hideInvalid.pred.get ch) =
        residual (s.cur.get ch) (s.pred.get ch) := by
      rw [h.cur stage, h.pred ch (not_not.mp valid)]
    exact .next (.done ⟨rfl, h.cur, h.ref, h.pred, PerCh.get_congr_set h.res hres, h.mv, h.coef⟩)
  | xfp =>
    refine abort.check fun stage => abort.check fun ref => ?_
    have hcur := h.cur (by simp [not_not.mp stage])
    have href := h.ref (not_not.mp ref)
    have hfield := h.fieldOf (by simp [not_not.mp stage]) (not_not.mp ref)
    refine .next (.done ⟨rfl, fun _ => hcur, fun _ => ?ref, fun c _ => ?pred, fun c _ => ?res, fun c _ => ?mv,
      fun _ => ?coef⟩)
    case mv => simp only [hfield]
    all_goals
      simp only [hcur, href, hfield]
      rfl
  | decp =>
    refine abort.check fun _ => abort.check fun ref => ?_
    change Lockstep _ _ (match s.hideInvalid.decodePredicted s.input with | .error e => _ | .ok r => _)
    rw [h.decodePredicted (not_not.mp ref)]
    cases s.decodePredicted s.input with
    | error e => exact .next (abort _)
    | ok r => exact .next (.done ⟨rfl, h.cur, fun _ => rfl, h.pred, h.res, h.mv, h.coef⟩)
  | chapp =>
    refine abort.check fun stage => abort.check fun _ => abort.check fun _ => abort.check fun _ =>
      abort.check fun _ => ?_
    have hz : s.hideInvalid.frameStream = s.frameStream := h.frameStream inv (not_not.mp stage)
    rw [hz]
    have hnext := h.serialized (not_not.mp stage)
    exact abort.check fun _ => .next (.done ⟨rfl, hnext.cur, h.ref, h.pred, h.res, h.mv, hnext.coef⟩)
  | chemit => exact abort.check fun _ => .branch (.next (abort _)) (.next h.done)
  | chopen =>
    refine abort.check fun _ => ?_
    change Lockstep _ _ (match parseContainer s.cfg s.input with | .error e => _ | .ok c => _)
    cases parseContainer s.cfg s.input with
    | error e => exact .next (abort _)
    | ok c => exact .next (.done (.of_cleared rfl rfl rfl rfl rfl nofun))
  | chnext =>
    refine abort.check fun _ => abort.check fun _ => abort.check fun _ => abort.check fun _ => ?_
    change Lockstep _ _ (match s.hideInvalid.decodeNext (s.inBytes s.chdOff.toNat s.nextLen) with
      | .error e => _ | .ok r => _)
    rw [h.decodeNext]
    cases s.decodeNext (s.inBytes s.chdOff.toNat s.nextLen) with
    | error e => exact .next (abort _)
    | ok r => exact .next (.done ⟨rfl, h.cur, fun _ => rfl, h.pred, h.res, h.mv, h.coef⟩)

/-- Settles O46: each of the two states runs in lockstep with the state they share once the invalid stores are
emptied. -/
theorem invalidStoresNeverRead : Obligations.InvalidStoresNeverRead := by
  unfold Obligations.InvalidStoresNeverRead
  intro i s s' inv inv' hsame
  obtain ⟨t, u, ht, hu, h⟩ := exec_hideInvalid i s inv
  obtain ⟨t', u', ht', hu', h'⟩ := exec_hideInvalid i s' inv'
  obtain rfl : u = u' := by
    rw [hsame, hu'] at hu
    injection hu with hu
    exact hu.symm
  exact ⟨t, t', ht, ht', h.hideInvalid_eq.symm.trans h'.hideInvalid_eq⟩

end Sys2Proof.Machine
end

section
/-! PROOFS. Family 10_state: the sizes and bounds of what commands write: planes, containers, vectors (spec R42, R273),
residuals (R41). -/

namespace Sys2Proof.Machine

/-! ### Sizes -/

theorem rd32_lt (b : List Byte) (o : Nat) : rd32 b o < 2 ^ 32 := by
  unfold rd32
  omega

theorem planesOfRgba_fit (w h : Nat) (g : List Byte) : PlanesFit w h (planesOfRgba w h g) := by
  intro c
  cases c <;> simp [planesOfRgba, PerCh.get, planeW, planeH]

theorem planesOfPlanes_fit {w h : Nat} {b : List Byte} (hb : w * h ≤ b.length) :
    PlanesFit w h (planesOfPlanes w h b) := by
  intro c
  cases c
  · simpa [planesOfPlanes, PerCh.get, planeW, planeH] using hb
  · simp [planesOfPlanes, subsample, PerCh.get, planeW, planeH]
  · simp [planesOfPlanes, subsample, PerCh.get, planeW, planeH]

theorem rgbaOfPlanes_length (w h : Nat) (p : PerCh Plane) : (rgbaOfPlanes w h p).length = 4 * w * h := by
  rw [rgbaOfPlanes, List.length_flatten, List.sum_eq_card_nsmul _ 4, List.length_map, planeOf_length, smul_eq_mul]
  · ring
  · simp only [planeOf, List.mem_map, List.mem_flatMap]
    rintro n ⟨px, ⟨y, -, x, -, rfl⟩, rfl⟩
    rfl

theorem container_length (chs : List (List Byte)) (w h : Nat) : (container chs w h).length = containerSize chs := by
  simp [container, containerSize, List.length_flatMap, List.length_flatten]
  omega

/-! ### The vectors the search finds are admissible (R273, R274) -/

theorem mbSide_mul_lt {c : Ch} {k n : Nat} (h : k < (n + mbSide c - 1) / mbSide c) : mbSide c * k < n := by
  cases c <;> simp only [mbSide] at h ⊢ <;> omega

/-- A macroblock lies inside its plane. -/
theorem macroblock_adm_zero {c : Ch} {pw ph m : Nat} (hm : m < mbCount c pw ph) :
    adm pw ph (macroblock c pw ph m) 0 0 := by
  have hpos : 0 < nmx c pw := Nat.pos_of_ne_zero fun h0 => by simp [mbCount, h0] at hm
  have hx : mbSide c * (m % nmx c pw) < pw := mbSide_mul_lt (Nat.mod_lt m hpos)
  have hy : mbSide c * (m / nmx c pw) < ph := mbSide_mul_lt (Nat.div_lt_of_lt_mul hm)
  simp only [macroblock, adm]
  omega

theorem mem_offsets {r : Nat} {u : Int} (h : u ∈ offsets r) : -(r : Int) ≤ u ∧ u < r := by
  obtain ⟨k, hk, rfl⟩ : ∃ k : Nat, k < 2 * r ∧ (k : Int) - r = u := by simpa [offsets] using h
  omega

theorem mem_candidates {r : Nat} {d : Int × Int} (h : d ∈ candidates r) : d.1 ∈ offsets r ∧ d.2 ∈ offsets r := by
  simp only [candidates, List.mem_flatMap, List.mem_map] at h
  obtain ⟨u, hu, v, hv, rfl⟩ := h
  exact ⟨hu, hv⟩

/-- An offset inside the radius and the plane. -/
def Reachable (pw ph r : Nat) (b : Macroblock) (d : Int × Int) : Prop :=
  (-(r : Int) ≤ d.1 ∧ d.1 ≤ r) ∧ (-(r : Int) ≤ d.2 ∧ d.2 ≤ r) ∧ adm pw ph b d.1 d.2

theorem tryOffset_reachable {cu rf : Plane} {pw ph r : Nat} {b : Macroblock} {best : Best} {d : Int × Int}
    (hd : d ∈ candidates r) (hbest : Reachable pw ph r b best.1) :
    Reachable pw ph r b (tryOffset cu rf pw ph b best d).1 := by
  have h1 := mem_offsets (mem_candidates hd).1
  have h2 := mem_offsets (mem_candidates hd).2
  unfold tryOffset
  split
  · next hadm =>
    dsimp only
    split
    · exact ⟨⟨h1.1, h1.2.le⟩, ⟨h2.1, h2.2.le⟩, hadm⟩
    · exact hbest
  · exact hbest

theorem bestOffset_reachable (cu rf : Plane) {pw ph : Nat} (r : Nat) {b : Macroblock} (h0 : adm pw ph b 0 0) :
    Reachable pw ph r b (bestOffset cu rf pw ph r b).1 := by
  have hzero : Reachable pw ph r b (0, 0) := ⟨by simp, by simp, h0⟩
  unfold bestOffset
  dsimp only
  split
  · exact hzero
  · exact List.foldlRecOn (motive := fun best : Best => Reachable pw ph r b best.1) _ _ hzero
      fun _ hbest _ hd => tryOffset_reachable hd hbest

/-- A signed byte holds an offset of a radius below 128. -/
theorem toInt_ofInt_of_le {r : Nat} {d : Int} (hr : r < 128) (h : -(r : Int) ≤ d ∧ d ≤ r) :
    (BitVec.ofInt 8 d).toInt = d := by
  rw [BitVec.toInt_ofInt]
  exact Int.bmod_eq_of_le (by omega) (by omega)

/-- Every vector of a field is admissible (R42). -/
theorem field_fits (w h : Nat) (c : Ch) (cu rf : Plane) {r : Nat} (hr : r < 128) :
    FieldFits w h c (field c cu rf (planeW w c) (planeH h c) r) := by
  refine ⟨field_length .., fun m hm => ?_⟩
  rw [field_length] at hm
  obtain ⟨hdx, hdy, hadm⟩ := bestOffset_reachable cu rf r (macroblock_adm_zero hm)
  simpa [vectorAt, field, List.getD, hm, vectorOf, toInt_ofInt_of_le hr hdx, toInt_ofInt_of_le hr hdy] using hadm

theorem State.fieldOf_fits (s : State) (c : Ch) : FieldFits s.W s.H c (s.fieldOf c) :=
  field_fits s.W s.H c _ _ s.radius.isLt

/-! ### Residuals are in -255..255 (R41) -/

theorem mem_residual {a b : Plane} {v : Int} (h : v ∈ residual a b) : -255 ≤ v ∧ v ≤ 255 := by
  obtain ⟨i, hi, rfl⟩ := List.getElem_of_mem h
  simp only [residual, List.getElem_zipWith]
  omega

end Sys2Proof.Machine
end

section
/-! PROOFS. Family 10_state: every step keeps the invariant (spec R36 to R47). -/

namespace Sys2Proof.Machine

/-! ### How a command ends keeps the invariant -/

/-- Completing keeps the invariant: the bytes below `OUT_LEN` are the ones written (R37, R63). -/
theorem State.Inv.done {s : State} (h : s.Inv) {out : List Byte} (cap : out.length ≤ s.cfg.outCap) : (s.done out).Inv :=
  { h with
    outbufOk := ⟨State.done_wf s out, Memory.below_ofBytes out 0 _ (by simpa using cap)⟩
    outLenOk := fun a ha => by
      have hlt : a < out.length := lt_of_lt_of_le ha (by simpa using Nat.mod_le _ _)
      rw [State.done_eq]
      simp [Memory.read_ofBytes, hlt]
    firstErrOk := fun he => absurd rfl he }

/-- Aborting keeps the invariant: no byte is below `OUT_LEN`, and the error is recorded (R47, R366). -/
theorem State.Inv.abort {s : State} (h : s.Inv) (e : Err) : (s.abort e).Inv :=
  { h with
    outbufOk := ⟨rfl, rfl⟩
    outLenOk := fun a ha => absurd ha (Nat.not_lt_zero a)
    firstErrOk := fun he => by
      rw [State.abort_firstErr]
      split
      · exact he
      · assumption }

/-- Completing with no output keeps the invariant. -/
theorem State.Inv.done_nil {s : State} (h : s.Inv) : (s.done []).Inv := h.done (Nat.zero_le _)

/-! ### What a command writes keeps the invariant -/

/-- After a reset nothing is valid and the chains are empty (R400). -/
theorem State.Inv.warmReset {s : State} (h : s.Inv) : s.warmReset.Inv where
  cfgLegal := h.cfgLegal
  inbufOk := h.inbufOk
  outbufOk := h.outbufOk
  outLenOk := fun a ha => absurd ha (Nat.not_lt_zero a)
  firstErrOk := fun he => absurd rfl he
  curOk := fun he => absurd rfl he
  coefOk := nofun
  kindOk := nofun
  refOk := nofun
  mvOk := fun c hc => by simp at hc
  predOk := fun c hc => by simp at hc
  resOk := fun c hc => by simp at hc
  chsOk := ⟨rfl, Nat.zero_le _, nofun⟩
  cheOk := fun he => absurd rfl he
  chdOk := ⟨rfl, le_rfl⟩
  openOk := nofun

/-- Setting the dimensions makes every store invalid (R48). -/
theorem State.Inv.setDims {s : State} (h : s.Inv) (w v : Word) : ({ s.setDims w v with chopen := false }).Inv :=
  { h with
    curOk := fun he => absurd rfl he
    coefOk := nofun
    kindOk := nofun
    refOk := nofun
    mvOk := fun c hc => by simp at hc
    predOk := fun c hc => by simp at hc
    resOk := fun c hc => by simp at hc
    openOk := nofun }

/-- A new reference of the frame's size (R38). -/
theorem State.Inv.setRef {s : State} (h : s.Inv) {r : PerCh Plane} (dims : s.dimsOK) (fits : PlanesFit s.W s.H r) :
    ({ s with ref := r, refv := true }).Inv :=
  { h with
    refOk := fun _ => ⟨dims, fits⟩
    mvOk := fun c hc => ⟨rfl, (h.mvOk c hc).2⟩
    predOk := fun c hc => ⟨rfl, (h.predOk c hc).2⟩
    openOk := fun hopen => by
      obtain ⟨hdims, hpos, hmax, hsum, hoff, -⟩ := h.openOk hopen
      exact ⟨hdims, hpos, hmax, hsum, hoff, fun _ => rfl⟩ }

/-- A new current frame of the frame's size: nothing is transformed (R39). -/
theorem State.Inv.loadCur {s : State} (h : s.Inv) {p : PerCh Plane} (dims : s.dimsOK) (fits : PlanesFit s.W s.H p) :
    ({ s with cur := p, fstage := .raw, fkind := .key }).Inv :=
  { h with
    curOk := fun _ => ⟨dims, fits⟩
    coefOk := nofun
    kindOk := nofun }

/-- A loaded frame has legal dimensions and planes of their size. -/
theorem State.Inv.cur_of_raw {s : State} (h : s.Inv) (stage : s.fstage = .raw) : s.dimsOK ∧ PlanesFit s.W s.H s.cur :=
  h.curOk (by simp [stage])

/-- A loaded frame becomes transformed (R36, R43). -/
theorem State.Inv.transform {s : State} (h : s.Inv) {z : List Byte} {k : Kind} (stage : s.fstage = .raw)
    (len : z.length = lenCoef s.W s.H) (fields : k = .predicted → ∀ c : Ch, s.mvv.get c = true) :
    ({ s with coef := z, fstage := .transformed, fkind := k }).Inv :=
  { h with
    curOk := fun _ => h.cur_of_raw stage
    coefOk := fun _ => len
    kindOk := fun hk => ⟨rfl, fields hk⟩ }

/-- A transformed frame becomes serialized (R36). -/
theorem State.Inv.serialize {s : State} (h : s.Inv) (stage : s.fstage.isTransformed = true) :
    ({ s with fstage := .serialized }).Inv :=
  { h with
    curOk := fun _ => h.curOk (Stage.ne_empty_of_isTransformed stage)
    coefOk := fun _ => h.coefOk stage
    kindOk := fun hk => ⟨rfl, (h.kindOk hk).2⟩ }

/-- What holds of each channel with its bit set still holds when one channel is written and its bit set. -/
theorem PerCh.forall_set {α : Type} (P : Ch → α → Prop) {b : PerCh Bool} {p : PerCh α} {ch : Ch} {v : α}
    (h : ∀ c, b.get c = true → P c (p.get c)) (hv : P ch v) :
    ∀ c, (b.set ch true).get c = true → P c ((p.set ch v).get c) := by
  intro c hc
  by_cases hch : c = ch
  · subst hch
    simpa using hv
  · simp only [PerCh.set_get, if_neg hch] at hc ⊢
    exact h c hc

/-- A set bit stays set. -/
theorem PerCh.set_true_of {b : PerCh Bool} {ch c : Ch} (h : b.get c = true) : (b.set ch true).get c = true := by
  simp [h]

/-- A new vector field made against a reference (R42). -/
theorem State.Inv.setMv {s : State} (h : s.Inv) {ch : Ch} {mv : List MVec} (ref : s.refv = true)
    (fits : FieldFits s.W s.H ch mv) : ({ s with mv := s.mv.set ch mv, mvv := s.mvv.set ch true }).Inv :=
  { h with
    kindOk := fun hk => ⟨(h.kindOk hk).1, fun c => PerCh.set_true_of ((h.kindOk hk).2 c)⟩
    mvOk := PerCh.forall_set (fun c mv => s.refv = true ∧ FieldFits s.W s.H c mv) h.mvOk ⟨ref, fits⟩ }

/-- A new prediction (R40). -/
theorem State.Inv.setPred {s : State} (h : s.Inv) {ch : Ch} {p : Plane} (ref : s.refv = true)
    (len : p.length = planeW s.W ch * planeH s.H ch) :
    ({ s with pred := s.pred.set ch p, predv := s.predv.set ch true }).Inv :=
  { h with
    predOk := PerCh.forall_set (fun c (p : Plane) => s.refv = true ∧ p.length = planeW s.W c * planeH s.H c) h.predOk
      ⟨ref, len⟩
    resOk := fun c hc => ⟨PerCh.set_true_of (h.resOk c hc).1, (h.resOk c hc).2⟩ }

/-- A new residual (R41). -/
theorem State.Inv.setRes {s : State} (h : s.Inv) {ch : Ch} (stage : s.fstage ≠ .empty) (valid : s.predv.get ch = true) :
    ({ s with res := s.res.set ch (residual (s.cur.get ch) (s.pred.get ch)), resv := s.resv.set ch true }).Inv :=
  { h with
    resOk := by
      have hlen : (residual (s.cur.get ch) (s.pred.get ch)).length = planeW s.W ch * planeH s.H ch := by
        rw [residual_length, (h.curOk stage).2 ch, (h.predOk ch valid).2, min_self]
      exact PerCh.forall_set (fun c (p : ResPlane) => s.predv.get c = true ∧
        p.length = planeW s.W c * planeH s.H c ∧ ∀ v ∈ p, -255 ≤ v ∧ v ≤ 255) h.resOk
        ⟨valid, hlen, fun _ => mem_residual⟩ }

/-! ### Decoders -/

theorem State.decodePredicted_fits {s : State} {z : List Byte} {r : PerCh Plane} (h : s.decodePredicted z = .ok r) :
    PlanesFit s.W s.H r := by
  obtain ⟨p, -, -, -, rfl⟩ := State.decodePredicted_ok.mp h
  exact fun c => reconPlanes_length _ _ _ _ _ c (by simp)

theorem State.decodeNext_fits {s : State} {z : List Byte} {r : PerCh Plane} (h : s.decodeNext z = .ok r) :
    PlanesFit s.W s.H r := by
  rcases State.decodeNext_ok.mp h with ⟨-, -, -, -, p, -, -, rfl⟩ | ⟨-, -, hpred⟩
  · exact fun c => keyPlanes_length ..
  · exact State.decodePredicted_fits hpred

@[simp] theorem State.input_length (s : State) : s.input.length = s.inLen.toNat := s.inBytes_length 0 _

theorem toNat_ofNat_of_le {n m : Nat} (h : n ≤ m) (hm : m ≤ 2 ^ 32 - 1) : (BitVec.ofNat 32 n).toNat = n :=
  Nat.mod_eq_of_lt (by omega)

theorem map_toNat_ofNat {l : List Nat} (h : ∀ n ∈ l, n < 2 ^ 32) : (l.map (BitVec.ofNat 32)).map BitVec.toNat = l := by
  rw [List.map_map]
  exact (List.map_congr_left fun n hn => Nat.mod_eq_of_lt (h n hn)).trans (List.map_id l)

/-- What an accepted container header says fits in the registers (R334, R342). -/
theorem parseContainer_fits {s : State} {c : ContainerHead} (h : parseContainer s.cfg s.input = .ok c) :
    c.lens.length = c.count ∧ (∀ n ∈ c.lens, n < 2 ^ 32) ∧ 1 ≤ c.count ∧ c.count ≤ s.cfg.chMax ∧
      legalDims s.cfg c.w c.h ∧ 12 + 4 * c.count + c.lens.sum < 2 ^ 32 := by
  obtain ⟨rfl, hpos, hmax, hdims, hlen⟩ := parseContainer_ok.mp h
  refine ⟨by simp [lengthTable], fun n hn => ?_, hpos, hmax, hdims, ?_⟩
  · simp only [lengthTable, List.mem_map] at hn
    obtain ⟨i, -, rfl⟩ := hn
    exact rd32_lt _ _
  · rw [← hlen, State.input_length]
    exact s.inLen.isLt

/-! ### What the chain commands write keeps the invariant -/

/-- Legal dimensions stand in the registers as they are (R8, R34). -/
theorem dims_toNat {p : Params} (legal : p.Legal) {w h : Nat} (dims : legalDims p w h) :
    (BitVec.ofNat 32 w).toNat = w ∧ (BitVec.ofNat 32 h).toNat = h := by
  obtain ⟨-, hmax, -⟩ := legal
  exact ⟨toNat_ofNat_of_le dims.2.1 (by omega), toNat_ofNat_of_le dims.2.2.2 (by omega)⟩

theorem State.Inv.chrst {s : State} (h : s.Inv) : ({ s with chs := [], cheCount := 0, cheW := 0, cheH := 0 }).Inv :=
  { h with
    chsOk := ⟨rfl, Nat.zero_le _, nofun⟩
    cheOk := fun he => absurd rfl he }

/-- A stream is appended, the first one with the dimensions of its frame (R44, R338). -/
theorem State.Inv.append {s : State} (h : s.Inv) {z : List Byte} (stage : s.fstage.isTransformed = true)
    (cap : s.cheCount.toNat < s.cfg.chMax) (len : z.length < 2 ^ 32) :
    ({ s with
      cheW := if s.cheCount = 0 then s.frmW else s.cheW, cheH := if s.cheCount = 0 then s.frmH else s.cheH
      chs := s.chs ++ [z], cheCount := s.cheCount + 1, fstage := .serialized }).Inv :=
  { h.serialize stage with
    chsOk := by
      obtain ⟨hcount, -, hlen⟩ := h.chsOk
      obtain ⟨-, -, -, -, -, hmax⟩ := h.cfgLegal
      refine ⟨?_, ?_, ?_⟩
      · rw [List.length_append, ← hcount, BitVec.toNat_add]
        exact Nat.mod_eq_of_lt (show s.cheCount.toNat + 1 < 2 ^ 32 by omega)
      · simpa [← hcount] using cap
      · intro y hy
        rcases List.mem_append.mp hy with hy | hy
        · exact hlen y hy
        · rwa [List.mem_singleton.mp hy]
    cheOk := fun _ => by
      dsimp only
      split
      · exact (h.curOk (Stage.ne_empty_of_isTransformed stage)).1
      · exact h.cheOk ‹_› }

/-- A chain is opened at its first frame (R45, R342). -/
theorem State.Inv.openChain {s : State} (h : s.Inv) {c : ContainerHead} (head : parseContainer s.cfg s.input = .ok c) :
    ({ s.setDims (BitVec.ofNat 32 c.w) (BitVec.ofNat 32 c.h) with
      chopen := true, chdCount := BitVec.ofNat 32 c.count, chlen := c.lens.map (BitVec.ofNat 32), chdIdx := 0
      chdOff := BitVec.ofNat 32 (12 + 4 * c.count) }).Inv := by
  obtain ⟨hlens, hlt, hpos, hmax, hdims, hsum⟩ := parseContainer_fits head
  obtain ⟨hw, hh⟩ := dims_toNat h.cfgLegal hdims
  have hcount : (BitVec.ofNat 32 c.count).toNat = c.count := Nat.mod_eq_of_lt (by omega)
  have hoff : (BitVec.ofNat 32 (12 + 4 * c.count)).toNat = 12 + 4 * c.count := Nat.mod_eq_of_lt (by omega)
  exact
    { h.setDims (BitVec.ofNat 32 c.w) (BitVec.ofNat 32 c.h) with
      chdOk := ⟨by rw [List.length_map, hlens, hcount], Nat.zero_le _⟩
      openOk := fun _ => by
        refine ⟨?_, ?_, ?_, ?_, ?_, fun h0 => absurd rfl h0⟩
        · change legalDims s.cfg (BitVec.ofNat 32 c.w).toNat (BitVec.ofNat 32 c.h).toNat
          rwa [hw, hh]
        · rwa [hcount]
        · rwa [hcount]
        · rwa [hcount, map_toNat_ofNat hlt]
        · rw [hoff, hcount]
          rfl }

/-- The sum of the lengths before frame `i + 1` is that before frame `i` and its own length. -/
theorem sum_take_succ {l : List Word} {i : Nat} (hi : i < l.length) :
    ((l.take (i + 1)).map BitVec.toNat).sum = ((l.take i).map BitVec.toNat).sum + (l.getD i 0).toNat := by
  rw [List.take_add_one, List.getElem?_eq_getElem hi, List.map_append, List.sum_append]
  simp [List.getD, hi]

theorem sum_take_le (l : List Word) (i : Nat) : ((l.take i).map BitVec.toNat).sum ≤ (l.map BitVec.toNat).sum := by
  have := List.sum_take_add_sum_drop (l.map BitVec.toNat) i
  rw [List.map_take]
  omega

/-- Another reference of the frame's size in the place of a valid one (R312). -/
theorem State.Inv.replaceRef {s : State} (h : s.Inv) {r : PerCh Plane} (ref : s.refv = true)
    (fits : PlanesFit s.W s.H r) : ({ s with ref := r }).Inv :=
  { h with refOk := fun _ => ⟨(h.refOk ref).1, fits⟩ }

/-- The next frame of the chain becomes the reference, and index and offset move on (R45, R344). -/
theorem State.Inv.nextFrame {s : State} (h : s.Inv) {r : PerCh Plane} (opened : s.chopen = true)
    (idx : s.chdIdx.toNat < s.chdCount.toNat) (fits : PlanesFit s.W s.H r) :
    ({ s with
      ref := r, refv := true, chdIdx := s.chdIdx + 1
      chdOff := BitVec.ofNat 32 (s.chdOff.toNat + s.nextLen) }).Inv := by
  obtain ⟨hdims, hpos, hmax, hsum, hoff, -⟩ := h.openOk opened
  have hlen : s.chlen.length = s.chdCount.toNat := h.chdOk.1
  have hidx : (s.chdIdx + 1).toNat = s.chdIdx.toNat + 1 := by
    rw [BitVec.toNat_add]
    exact Nat.mod_eq_of_lt (lt_of_le_of_lt idx s.chdCount.isLt)
  have hnext : s.chdOff.toNat + s.nextLen =
      12 + 4 * s.chdCount.toNat + ((s.chlen.take (s.chdIdx.toNat + 1)).map BitVec.toNat).sum := by
    rw [sum_take_succ (by omega), hoff, State.nextLen]
    omega
  have hle := sum_take_le s.chlen (s.chdIdx.toNat + 1)
  exact
    { h.setRef hdims fits with
      chdOk := ⟨hlen, by rw [hidx]; exact idx⟩
      openOk := fun _ => by
        refine ⟨hdims, hpos, hmax, hsum, ?_, fun _ => rfl⟩
        rw [hidx, hnext]
        exact Nat.mod_eq_of_lt (by omega) }

/-- The predicted frame that `XFP` makes: fields, predictions, residuals, coefficients and reference (R306). -/
theorem State.Inv.predicted {s : State} (h : s.Inv) {pr : PerCh Plane} {z : List Byte} (stage : s.fstage = .raw)
    (ref : s.refv = true) (fits : PlanesFit s.W s.H pr) (len : z.length = lenCoef s.W s.H) :
    ({ s with
      mv := PerCh.of s.fieldOf, pred := pr, res := PerCh.of fun c => residual (s.cur.get c) (pr.get c), coef := z
      ref := reconPlanes s.cfg.num s.W s.H pr z
      mvv := ⟨true, true, true⟩, predv := ⟨true, true, true⟩, resv := ⟨true, true, true⟩
      fstage := .transformed, fkind := .predicted }).Inv := by
  obtain ⟨hdims, hcur⟩ := h.cur_of_raw stage
  exact
    { h with
      curOk := fun _ => ⟨hdims, hcur⟩
      coefOk := fun _ => len
      kindOk := fun _ => ⟨rfl, PerCh.get_mk_self true⟩
      refOk := fun _ => ⟨hdims, fun c => reconPlanes_length _ _ _ _ _ c (fits c)⟩
      mvOk := fun c _ => ⟨ref, by rw [PerCh.of_get]; exact s.fieldOf_fits c⟩
      predOk := fun c _ => ⟨ref, fits c⟩
      resOk := fun c _ => by
        rw [PerCh.of_get]
        refine ⟨PerCh.get_mk_self true c, ?_, fun _ => mem_residual⟩
        rw [residual_length, hcur c, fits c, min_self]
        rfl }

/-! ### Every command, every host action -/

/-- The byte planes of a valid plane set have the sizes of the frame. -/
theorem State.Inv.planesOf_fit {s : State} (h : s.Inv) {ps : PlaneSet} (bytes : ps ≠ .res)
    (valid : s.planeSetError ps (fun _ => true) = none) : PlanesFit s.W s.H (s.planesOf ps) := by
  rw [State.planeSetError_eq_none] at valid
  cases ps with
  | cur => exact (h.curOk valid).2
  | ref => exact (h.refOk valid).2
  | pred => exact fun c => (h.predOk c (valid c rfl)).2
  | res => exact absurd rfl bytes

theorem Completes.inv {i : Instr} {s t : State} (hc : Completes s i t) (h : s.Inv) : t.Inv := by
  cases hc with
  | nop => exact h.done_nil
  | srst => exact h.warmReset
  | rgb2ycc | ycc2rgb | getblk | fdct | idct | quant | dequant | zz | unzz => exact State.Inv.done_nil { h with }
  | ldpix dims _ _ => exact (h.loadCur dims (planesOfRgba_fit _ _ _)).done_nil
  | ldpln dims _ len => exact (h.loadCur dims (planesOfPlanes_fit (by rw [State.input_length, len]; omega))).done_nil
  | strgba _ _ cap => exact h.done (by rwa [rgbaOfPlanes_length])
  | stpln bytes valid cap =>
    have fits := h.planesOf_fit bytes valid
    have hy := fits .y
    have hcb := fits .cb
    have hcr := fits .cr
    simp only [PerCh.get, planeW, planeH] at hy hcb hcr
    exact h.done (by simp only [List.length_append, hy, hcb, hcr]; omega)
  | rleenc _ cap | rledec _ _ cap => exact h.done cap
  | xfkey stage coded =>
    have hz := h.transform (k := .key) stage (coded ▸ coefOf_length ..) nofun
    exact (hz.setRef (h.cur_of_raw stage).1 fun c => keyPlanes_length ..).done_nil
  | emitkey stage _ cap | emitp stage _ cap => exact (h.serialize stage).done cap
  | deckey _ _ _ _ dims _ =>
    obtain ⟨hw, hh⟩ := dims_toNat h.cfgLegal dims
    refine ((h.setDims _ _).setRef ?_ ?_).done_nil
    · change legalDims s.cfg (BitVec.ofNat 32 _).toNat (BitVec.ofNat 32 _).toNat
      rwa [hw, hh]
    · change PlanesFit (BitVec.ofNat 32 _).toNat (BitVec.ofNat 32 _).toNat _
      rw [hw, hh]
      exact fun c => keyPlanes_length ..
  | mest stage ref => exact (h.setMv ref (s.fieldOf_fits _)).done_nil
  | mcomp ref _ predicted => exact (h.setPred ref (predicted ▸ predict_length ..)).done_nil
  | resid stage valid => exact (h.setRes stage valid).done_nil
  | xfp stage ref predicted rest coded =>
    subst rest
    exact (h.predicted stage ref (fun c => by simp [predicted]) (coded ▸ coefOf_length ..)).done_nil
  | decp _ ref dec =>
    exact (h.replaceRef ref (State.decodePredicted_fits dec)).done_nil
  | chrst => exact h.chrst.done_nil
  | chapp stage _ _ cap len => exact (h.append stage cap len).done_nil
  | chemit _ cap => exact h.done (by rwa [container_length])
  | chopen _ head => exact (h.openChain head).done_nil
  | chnext opened _ idx _ dec => exact (h.nextFrame opened idx (State.decodeNext_fits dec)).done_nil

theorem exec_inv {i : Instr} {s t : State} (hexec : exec i s = .next t) (h : s.Inv) : t.Inv := by
  rcases exec_cases hexec with ⟨e, -, rfl⟩ | hc
  · exact h.abort e
  · exact hc.inv h

theorem runWord_inv {w : Word} {s t : State} (hrun : runWord w s = .next t) (h : s.Inv) : t.Inv := by
  unfold runWord at hrun
  split at hrun
  · exact exec_inv hrun h
  · cases hrun
    exact h.abort _

/-- A register write sets the dimensions, or a register the invariant does not speak of (R30). -/
theorem State.Inv.writeReg {s : State} (h : s.Inv) (n : Nat) (v : Word) : (s.writeReg n v).Inv := by
  unfold State.writeReg
  split
  · exact h.setDims v s.frmH
  · exact h.setDims s.frmW v
  all_goals exact { h with }

/-- A byte written below `IN_CAP` keeps `INBUF` in canonical form (R62). -/
theorem State.Inv.bufWrite {s : State} (h : s.Inv) (a : Nat) (b : Byte) : (s.bufWrite a b).Inv := by
  unfold State.bufWrite
  split
  · next ha => exact { h with inbufOk := ⟨Memory.wf_write a b h.inbufOk.1, Memory.below_write b h.inbufOk.2 ha⟩ }
  · exact h

theorem perform_inv {a : HostAction} {s t : State} (hperform : perform a s = .next t) (h : s.Inv) : t.Inv := by
  cases a with
  | regWrite n v =>
    cases n with
    | zero => exact runWord_inv hperform h
    | succ n => cases hperform; exact h.writeReg _ v
  | regRead | winRead | bufReadIn | bufRead => cases hperform; exact { h with }
  | winWrite w => cases hperform; cases w <;> exact { h with }
  | bufWrite a b => cases hperform; exact h.bufWrite a b
  | reset => cases hperform; exact h.warmReset

/-- Settles O9: what each command writes keeps the invariant, and so does each host action. -/
theorem stepKeepsInv : Obligations.StepKeepsInv := by
  unfold Obligations.StepKeepsInv
  intro s t h hstep
  unfold step hostStep at hstep
  split at hstep
  · cases hstep
    exact h
  · exact perform_inv hstep { h with }

end Sys2Proof.Machine
end

section
/-! PROOFS. Family 10_state: `DECKEY` and `CHOPEN` complete on well-formed input (spec R254, R342); the host port (R30
to R32, R61). -/

namespace Sys2Proof.Machine

/-- `DECKEY` with a header and a payload it accepts (R254). -/
theorem exec_deckey {s : State} {w h : Nat} {p : List Byte} (fits : s.inFits) (len : 8 ≤ s.inLen.toNat)
    (hw : w = rd32 s.input 0) (hh : h = rd32 s.input 4) (dims : legalDims s.cfg w h)
    (payload : keyPayload w h (s.input.drop 8) = .ok p) :
    exec .deckey s = .next ({ s.setDims (BitVec.ofNat 32 w) (BitVec.ofNat 32 h) with
      chopen := false, ref := keyPlanes s.cfg.num w h p, refv := true }.done []) := by
  subst hw hh
  change execDeckey s = _
  rw [execDeckey, if_neg (not_not.mpr fits), if_neg (not_lt.mpr len)]
  dsimp only
  rw [if_neg (not_not.mpr dims), payload]

/-- Settles O28: the reference is `keyPlanes` of the payload, and `keyPlanes_sampleAt` says what that holds. -/
theorem deckeyDecodes : Obligations.DeckeyDecodes := by
  unfold Obligations.DeckeyDecodes
  intro s p fits len dims dec plen
  refine ⟨_, exec_deckey fits len rfl rfl dims (keyPayload_ok.mpr ⟨dec, plen⟩), rfl, ?_⟩
  have hw : (BitVec.ofNat 32 (rd32 s.input 0)).toNat = rd32 s.input 0 := Nat.mod_eq_of_lt (rd32_lt _ _)
  have hh : (BitVec.ofNat 32 (rd32 s.input 4)).toNat = rd32 s.input 4 := Nat.mod_eq_of_lt (rd32_lt _ _)
  simp only [State.done_frmW, State.done_frmH, State.done_ref, State.W, State.H,
    State.setDims_frmW, State.setDims_frmH, hw, hh]
  exact ⟨trivial, trivial, fun c => keyPlanes_length .., fun c x y => keyPlanes_sampleAt _ _ _ _ c x y⟩

/-- `CHOPEN` with a container head it accepts (R342). -/
theorem exec_chopen {s : State} {c : ContainerHead} (fits : s.inFits) (head : parseContainer s.cfg s.input = .ok c) :
    exec .chopen s = .next ({ s.setDims (BitVec.ofNat 32 c.w) (BitVec.ofNat 32 c.h) with
      chopen := true, chdCount := BitVec.ofNat 32 c.count, chlen := c.lens.map (BitVec.ofNat 32), chdIdx := 0
      chdOff := BitVec.ofNat 32 (12 + 4 * c.count) }.done []) := by
  change execChopen s = _
  rw [execChopen, if_neg (not_not.mpr fits), head]

/-- Settles O38: `parseContainer` accepts the head, and its numbers fit the registers that hold them. -/
theorem chopenOpensChain : Obligations.ChopenOpensChain := by
  unfold Obligations.ChopenOpensChain
  intro s n w h l fits _ hn hpos hmax hl hw hh dims hlen
  have head : parseContainer s.cfg s.input = .ok ⟨n, l, w, h⟩ := by
    subst hn hl hw hh
    exact parseContainer_ok.mpr ⟨rfl, hpos, hmax, dims, by rw [State.input_length, hlen]⟩
  obtain ⟨-, hlens, -, -, -, hsum⟩ := parseContainer_fits head
  refine ⟨_, exec_chopen fits head, rfl, ?_, ?_, Nat.mod_eq_of_lt (by omega), map_toNat_ofNat hlens,
    Nat.mod_eq_of_lt (by omega)⟩
  · rw [hw]
    exact Nat.mod_eq_of_lt (rd32_lt _ _)
  · rw [hh]
    exact Nat.mod_eq_of_lt (rd32_lt _ _)

/-! ### The host port (R30 to R32, R61) -/

/-- Settles O3: a step takes the first action off the list and performs it, and a write to `CMD` runs its word. -/
theorem stepRunsCommand : Obligations.StepRunsCommand := by
  unfold Obligations.StepRunsCommand
  have hstep : ∀ (s : State) (a : HostAction) (rest : List HostAction), s.host = a :: rest →
      step s = perform a { s with host := rest } := by
    intro s a rest hhost
    rw [step, hostStep, hhost]
  have hword : ∀ (s : State) (w : Word) (i : Instr) (rest : List HostAction),
      s.host = .regWrite 0 w :: rest → decode w = .ok i → step s = exec i { s with host := rest } := by
    intro s w i rest hhost hdec
    rw [hstep s _ rest hhost, perform, runWord, hdec]
  refine ⟨hword, fun s w i hdec => ?_, hstep, fun s hhost => ?_, fun s => rfl⟩
  · refine hword (s.withFetchWord 32 w.toNat) w i s.host ?_ hdec
    rw [State.withFetchWord, State.pushWord, Nat.mod_eq_of_lt w.isLt, BitVec.ofNat_toNat, BitVec.setWidth_eq]
  · rw [step, hostStep, hhost]

theorem State.readReg_of_le (s : State) {n : Nat} (hn : 16 ≤ n) : s.readReg n = 0 := by
  obtain ⟨k, rfl⟩ := Nat.exists_eq_add_of_le' hn
  rfl

theorem State.writeReg_of_le (s : State) {n : Nat} (v : Word) (hn : 16 ≤ n) : s.writeReg n v = s := by
  obtain ⟨k, rfl⟩ := Nat.exists_eq_add_of_le' hn
  rfl

theorem perform_regWrite_of_pos {n : Nat} (v : Word) (s : State) (hn : 0 < n) :
    perform (.regWrite n v) s = .next (s.writeReg n v) := by
  obtain ⟨k, rfl⟩ := Nat.exists_eq_add_of_le' hn
  rfl

theorem setWidth_eq_ofNat_mod (v : Word) (k : Nat) : v.setWidth k = BitVec.ofNat k (v.toNat % 2 ^ k) :=
  BitVec.eq_of_toNat_eq (by simp)

/-- Settles O4: each register by evaluation; the narrow ones keep the low bits of the word. -/
theorem hostRegisters : Obligations.HostRegisters := by
  unfold Obligations.HostRegisters
  intro s
  refine ⟨⟨fun n => rfl, rfl, rfl, ?_, ?_, fun n => s.readReg_of_le⟩, fun v =>
    ⟨rfl, rfl, ?_, rfl, rfl, rfl, rfl, ?_, ?_, fun n hn => ?_⟩⟩
  · exact BitVec.toNat_setWidth_of_le (by decide)
  · exact BitVec.toNat_setWidth_of_le (by decide)
  · exact congrArg (fun r => Host.Outcome.next { s with radius := r }) (setWidth_eq_ofNat_mod v 7)
  · exact congrArg (fun yc => Host.Outcome.next { s with yc := yc }) (setWidth_eq_ofNat_mod v 24)
  · intro n hn
    fin_cases hn <;> rfl
  · rw [perform_regWrite_of_pos v s (by omega), s.writeReg_of_le v hn]

/-- A field above another in a word: the value of the upper one is shifted by the width of the lower. -/
theorem toNat_append_eq {m n : Nat} (x : BitVec m) (y : BitVec n) : (x ++ y).toNat = x.toNat * 2 ^ n + y.toNat := by
  rw [BitVec.toNat_append, ← Nat.shiftLeft_add_eq_or_of_lt y.isLt, Nat.shiftLeft_eq]

/-- Settles O5: `STATUS` is its fields appended, so each field counts at the total width of those below it. -/
theorem statusFields : Obligations.StatusFields := by
  unfold Obligations.StatusFields
  refine ⟨fun s => ?_, by decide, by decide, by decide⟩
  simp only [State.statusWord, channelBits, toNat_append_eq, BitVec.toNat_ofBool]
  norm_num
  ring

end Sys2Proof.Machine
end

section
/-! PROOFS. Family 20_memory: window and buffer accesses of the host (R60 to R64). -/

namespace Sys2Proof.Machine

/-! ### Windows (R64) -/

theorem blockAt_setIfInBounds_same {α : Type} (b : Block α) {i : Nat} (v d : α) (hi : i < 64) :
    blockAt (b.setIfInBounds i v) i d = v := by
  rw [blockAt_lt _ _ _ hi, Vector.getElem_setIfInBounds_self]

theorem blockAt_setIfInBounds_ne {α : Type} (b : Block α) {i j : Nat} (v d : α) (hij : i ≠ j) :
    blockAt (b.setIfInBounds i v) j d = blockAt b j d := by
  rcases lt_or_ge j 64 with hj | hj
  · rw [blockAt_lt _ _ _ hj, blockAt_lt _ _ _ hj, Vector.getElem_setIfInBounds_ne hj hij]
  · rw [blockAt_ge _ _ _ hj, blockAt_ge _ _ _ hj]

/-- Beyond its 64 entries a block has nothing to write. -/
theorem setIfInBounds_of_le {α : Type} (b : Block α) {i : Nat} (v : α) (hi : 64 ≤ i) : b.setIfInBounds i v = b :=
  Vector.ext fun _ hj => Vector.getElem_setIfInBounds_ne hj (by omega)

/-- What of a word written to a window is read back: `QB` and `ZB` keep its low byte, read with or without its sign. -/
def Window.kept (w : Window) (v : Word) : Word :=
  match w with
  | .sbw | .tbw => v
  | .qbw => (v.setWidth 8).signExtend 32
  | .zbw => (v.setWidth 8).setWidth 32

theorem State.winRead_winWrite_same (s : State) (w : Window) {i : Nat} (v : Word) (hi : i < 64) :
    (s.winWrite w i v).winRead w i = w.kept v := by
  cases w with
  | sbw | tbw => exact blockAt_setIfInBounds_same _ v 0 hi
  | qbw => exact congrArg (BitVec.signExtend 32) (blockAt_setIfInBounds_same _ _ 0 hi)
  | zbw => exact congrArg (BitVec.setWidth 32) (blockAt_setIfInBounds_same _ _ 0 hi)

theorem State.winRead_winWrite_index_ne (s : State) (w : Window) {i j : Nat} (v : Word) (hij : i ≠ j) :
    (s.winWrite w i v).winRead w j = s.winRead w j := by
  cases w with
  | sbw | tbw => exact blockAt_setIfInBounds_ne _ v 0 hij
  | qbw => exact congrArg (BitVec.signExtend 32) (blockAt_setIfInBounds_ne _ _ 0 hij)
  | zbw => exact congrArg (BitVec.setWidth 32) (blockAt_setIfInBounds_ne _ _ 0 hij)

/-- Each window is over a block register of its own (R60). -/
theorem State.winRead_winWrite_window_ne (s : State) {w w' : Window} (i j : Nat) (v : Word) (hw : w' ≠ w) :
    (s.winWrite w i v).winRead w' j = s.winRead w' j := by
  cases w with
  | sbw =>
    cases w' with
    | sbw => exact absurd rfl hw
    | tbw | qbw | zbw => rfl
  | tbw =>
    cases w' with
    | tbw => exact absurd rfl hw
    | sbw | qbw | zbw => rfl
  | qbw =>
    cases w' with
    | qbw => exact absurd rfl hw
    | sbw | tbw | zbw => rfl
  | zbw =>
    cases w' with
    | zbw => exact absurd rfl hw
    | sbw | tbw | qbw => rfl

theorem State.winRead_winWrite_of_ne (s : State) {w w' : Window} {i j : Nat} (v : Word) (h : w' ≠ w ∨ j ≠ i) :
    (s.winWrite w i v).winRead w' j = s.winRead w' j := by
  by_cases hw : w' = w
  · subst hw
    exact s.winRead_winWrite_index_ne w' v (h.resolve_left (not_not_intro rfl)).symm
  · exact s.winRead_winWrite_window_ne i j v hw

theorem State.winWrite_frame (s : State) (w : Window) (i : Nat) (v : Word) :
    s.winWrite w i v =
      { s with
        sb := (s.winWrite w i v).sb, tb := (s.winWrite w i v).tb
        qb := (s.winWrite w i v).qb, zb := (s.winWrite w i v).zb } := by
  cases w <;> rfl

theorem State.winWrite_of_le (s : State) (w : Window) {i : Nat} (v : Word) (hi : 64 ≤ i) : s.winWrite w i v = s := by
  cases w with
  | sbw => exact congrArg (fun b => { s with sb := b }) (setIfInBounds_of_le s.sb v hi)
  | tbw => exact congrArg (fun b => { s with tb := b }) (setIfInBounds_of_le s.tb v hi)
  | qbw => exact congrArg (fun b => { s with qb := b }) (setIfInBounds_of_le s.qb (v.setWidth 8) hi)
  | zbw => exact congrArg (fun b => { s with zb := b }) (setIfInBounds_of_le s.zb (v.setWidth 8) hi)

theorem State.winRead_of_le (s : State) (w : Window) {i : Nat} (hi : 64 ≤ i) : s.winRead w i = 0 := by
  cases w with
  | sbw | tbw => exact blockAt_ge _ _ _ hi
  | qbw => exact congrArg (BitVec.signExtend 32) (blockAt_ge s.qb _ 0 hi)
  | zbw => exact congrArg (BitVec.setWidth 32) (blockAt_ge s.zb _ 0 hi)

/-! ### Buffers (R62, R63) -/

theorem State.bufWrite_of_lt (s : State) {a : Nat} (b : Byte) (ha : a < s.cfg.inCap) :
    s.bufWrite a b = { s with inbuf := Memory.write s.inbuf a b } := if_pos ha

theorem State.bufWrite_of_le (s : State) {a : Nat} (b : Byte) (ha : s.cfg.inCap ≤ a) : s.bufWrite a b = s :=
  if_neg (not_lt.mpr ha)

theorem State.bufReadIn_of_le (s : State) {a : Nat} (ha : s.cfg.inCap ≤ a) : s.bufReadIn a = 0 :=
  if_neg (not_lt.mpr ha)

theorem State.bufRead_of_lt (s : State) {a : Nat} (ha : a < s.cfg.outCap) : s.bufRead a = s.outByte a := if_pos ha

theorem State.bufRead_of_le (s : State) {a : Nat} (ha : s.cfg.outCap ≤ a) : s.bufRead a = 0 := if_neg (not_lt.mpr ha)

theorem State.inByte_write_same {s : State} (h : s.inbuf.wf = true) (a : Nat) (b : Byte) :
    ({ s with inbuf := Memory.write s.inbuf a b } : State).inByte a = b := by
  rw [State.inByte, Memory.read_write h, if_pos rfl, Option.getD_some]

theorem State.inByte_write_ne {s : State} (h : s.inbuf.wf = true) {a a' : Nat} (b : Byte) (ha : a' ≠ a) :
    ({ s with inbuf := Memory.write s.inbuf a b } : State).inByte a' = s.inByte a' := by
  rw [State.inByte, Memory.read_write h, if_neg ha, State.inByte]

theorem State.bufReadIn_write_same {s : State} (h : s.inbuf.wf = true) {a : Nat} (b : Byte) (ha : a < s.cfg.inCap) :
    ({ s with inbuf := Memory.write s.inbuf a b } : State).bufReadIn a = b := by
  rw [State.bufReadIn, if_pos ha, State.inByte_write_same h]

/-- `BufWrite` keeps what the host reads at any other address, within `IN_CAP` and beyond. -/
theorem State.bufReadIn_write_ne {s : State} (h : s.inbuf.wf = true) {a a' : Nat} (b : Byte) (ha : a' ≠ a) :
    ({ s with inbuf := Memory.write s.inbuf a b } : State).bufReadIn a' = s.bufReadIn a' := by
  rw [State.bufReadIn, State.inByte_write_ne h b ha, State.bufReadIn]

/-- Settles O6: a window write reaches one entry of one block register, a buffer write one address of `INBUF`, and the
bounds of the accesses are the limits. -/
theorem windowsAndBuffers : Obligations.WindowsAndBuffers := by
  unfold Obligations.WindowsAndBuffers
  refine ⟨fun s w i v hi => ?_, fun s w i v hi => ?_, fun s a b hwf ha => ?_, fun s a b ha => ?_, fun s a => ?_⟩
  · refine ⟨s.winWrite w i v, rfl, s.winWrite_frame w i v, ?_, fun w' j h => s.winRead_winWrite_of_ne v h⟩
    rw [s.winRead_winWrite_same w v hi]
    cases w <;> rfl
  · exact ⟨congrArg Host.Outcome.next (s.winWrite_of_le w v hi), s.winRead_of_le w hi⟩
  · exact ⟨{ s with inbuf := Memory.write s.inbuf a b }, congrArg Host.Outcome.next (s.bufWrite_of_lt b ha), rfl,
      Memory.wf_write a b hwf, State.bufReadIn_write_same hwf b ha,
      fun a' ha' => State.bufReadIn_write_ne hwf b ha'⟩
  · exact ⟨congrArg Host.Outcome.next (s.bufWrite_of_le b ha), s.bufReadIn_of_le ha⟩
  · exact ⟨s.bufRead_of_lt, s.bufRead_of_le, fun w => ⟨rfl, rfl, rfl⟩⟩

end Sys2Proof.Machine
end

section
/-! PROOFS. Family 30_encoding: decoding and encoding agree on every word (spec R90 to R94, R99). -/

namespace Sys2Proof.Machine

/-! ### A word is the sum of its fields (R90, R99) -/

/-- Bits 31:14 belong to no field; where they are zero, the word is that of its fields. -/
theorem eq_commandWord {w : Word} {op ch b t ps : Nat} (hop : fieldOp w = op) (hch : (w.extractLsb' 8 2).toNat = ch)
    (hb : (w.extractLsb' 10 1).toNat = b) (ht : (w.extractLsb' 11 1).toNat = t)
    (hps : (w.extractLsb' 12 2).toNat = ps) (high : (w.extractLsb' 14 18).toNat = 0) :
    w = commandWord op ch b t ps := by
  have hw := w.isLt
  subst hop hch hb ht hps
  apply BitVec.eq_of_toNat_eq
  simp only [commandWord, fieldOp, BitVec.extractLsb'_toNat, BitVec.toNat_ofNat, Nat.shiftRight_eq_div_pow] at high ⊢
  omega

/-- In a word that passes a row's check (R93) a field is zero if the row's mask has all its bits. -/
theorem unused_field {w mask : Word} (zero : w &&& mask &&& 0xFFFFFF00#32 = 0#32) {i n : Nat}
    (covers : (mask &&& 0xFFFFFF00#32).extractLsb' i n = BitVec.allOnes n) : (w.extractLsb' i n).toNat = 0 := by
  have hfield := congrArg (BitVec.extractLsb' i n) zero
  rw [BitVec.and_assoc, BitVec.extractLsb'_and, covers, BitVec.and_allOnes] at hfield
  simp [hfield]

/-! ### The fields of a word as the decoder reads them -/

theorem fieldCh_code {w : Word} {c : Ch} (h : fieldCh w = some c) : (w.extractLsb' 8 2).toNat = c.code := by
  unfold fieldCh at h
  split at h <;> cases h <;> assumption

/-- A field of one bit. -/
theorem extractLsb'_one_toNat (w : Word) (k : Nat) : (w.extractLsb' k 1).toNat = (w.getLsbD k).toNat := by
  rw [BitVec.extractLsb'_toNat, BitVec.getLsbD, Nat.toNat_testBit, Nat.shiftRight_eq_div_pow, pow_one]

theorem fieldT_code (w : Word) : (w.extractLsb' 11 1).toNat = (fieldT w).code := by
  rw [extractLsb'_one_toNat, fieldT]
  cases w.getLsbD 11 <;> rfl

theorem fieldPs_code (w : Word) : (w.extractLsb' 12 2).toNat = (fieldPs w).code := by
  have hlt := (w.extractLsb' 12 2).isLt
  unfold fieldPs
  generalize (w.extractLsb' 12 2).toNat = k at hlt ⊢
  interval_cases k <;> rfl

/-! ### Each kind of row of R92: what it decodes is well formed and has this very word -/

section Rows

variable {w : Word} {op : Nat} {i : Instr}

theorem decPlain_inv {j : Instr} (hop : fieldOp w = op) (h : decPlain w j = .ok i) (wf : j.WellFormed)
    (enc : encode j = commandWord op 0 0 0 0) : i.WellFormed ∧ encode i = w := by
  obtain ⟨zero, hi⟩ := requireZero_ok.mp h
  cases hi
  exact ⟨wf, enc.trans (eq_commandWord hop (unused_field zero rfl) (unused_field zero rfl) (unused_field zero rfl)
    (unused_field zero rfl) (unused_field zero rfl)).symm⟩

theorem decB_inv {mk : Bool → Instr} (hop : fieldOp w = op) (h : decB w mk = .ok i) (wf : ∀ b, (mk b).WellFormed)
    (enc : ∀ b, encode (mk b) = commandWord op 0 b.toNat 0 0) : i.WellFormed ∧ encode i = w := by
  obtain ⟨zero, hi⟩ := requireZero_ok.mp h
  cases hi
  exact ⟨wf _, (enc _).trans (eq_commandWord hop (unused_field zero rfl) (extractLsb'_one_toNat w 10)
    (unused_field zero rfl) (unused_field zero rfl) (unused_field zero rfl)).symm⟩

theorem decT_inv {mk : Table → Instr} (hop : fieldOp w = op) (h : decT w mk = .ok i) (wf : ∀ t, (mk t).WellFormed)
    (enc : ∀ t, encode (mk t) = commandWord op 0 0 t.code 0) : i.WellFormed ∧ encode i = w := by
  obtain ⟨zero, hi⟩ := requireZero_ok.mp h
  cases hi
  exact ⟨wf _, (enc _).trans (eq_commandWord hop (unused_field zero rfl) (unused_field zero rfl) (fieldT_code w)
    (unused_field zero rfl) (unused_field zero rfl)).symm⟩

theorem decCh_inv {mk : Ch → Instr} (hop : fieldOp w = op) (h : decCh w mk = .ok i) (wf : ∀ c, (mk c).WellFormed)
    (enc : ∀ c, encode (mk c) = commandWord op c.code 0 0 0) : i.WellFormed ∧ encode i = w := by
  obtain ⟨zero, hi⟩ := requireZero_ok.mp h
  split at hi
  · next c hc =>
    cases hi
    exact ⟨wf c, (enc c).trans (eq_commandWord hop (fieldCh_code hc) (unused_field zero rfl) (unused_field zero rfl)
      (unused_field zero rfl) (unused_field zero rfl)).symm⟩
  · cases hi

theorem decPs_inv {mk : PlaneSet → Instr} (hop : fieldOp w = op) (h : decPs w mk = .ok i)
    (wf : ∀ ps, ps ≠ .res → (mk ps).WellFormed) (enc : ∀ ps, encode (mk ps) = commandWord op 0 0 0 ps.code) :
    i.WellFormed ∧ encode i = w := by
  obtain ⟨zero, hi⟩ := requireZero_ok.mp h
  split at hi
  · cases hi
  · next ps hps =>
    cases hi
    exact ⟨wf _ hps, (enc _).trans (eq_commandWord hop (unused_field zero rfl) (unused_field zero rfl)
      (unused_field zero rfl) (fieldPs_code w) (unused_field zero rfl)).symm⟩

theorem decPsCh_inv {mk : PlaneSet → Ch → Instr} (hop : fieldOp w = op) (h : decPsCh w mk = .ok i)
    (wf : ∀ ps c, (mk ps c).WellFormed) (enc : ∀ ps c, encode (mk ps c) = commandWord op c.code 0 0 ps.code) :
    i.WellFormed ∧ encode i = w := by
  obtain ⟨zero, hi⟩ := requireZero_ok.mp h
  split at hi
  · next c hc =>
    cases hi
    exact ⟨wf _ c, (enc _ c).trans (eq_commandWord hop (fieldCh_code hc) (unused_field zero rfl)
      (unused_field zero rfl) (fieldPs_code w) (unused_field zero rfl)).symm⟩
  · cases hi

end Rows

/-! ### The whole table -/

/-- What a word decodes to is well formed, and the word is its own (R92, R99): row by row of the table. -/
theorem wellFormed_encode_of_decode {w : Word} {i : Instr} (h : decode w = .ok i) : i.WellFormed ∧ encode i = w := by
  unfold decode at h
  split at h
  case h_7 hop | h_8 hop => exact decPs_inv hop h (fun ps hps => bne_iff_ne.mpr hps) fun _ => rfl
  case h_9 hop => exact decPsCh_inv hop h (fun _ _ => rfl) fun _ _ => rfl
  case h_10 hop | h_11 hop => exact decB_inv hop h (fun _ => rfl) fun _ => rfl
  case h_12 hop | h_13 hop => exact decT_inv hop h (fun _ => rfl) fun _ => rfl
  case h_21 hop | h_22 hop | h_23 hop => exact decCh_inv hop h (fun _ => rfl) fun _ => rfl
  case h_32 => cases h
  all_goals next hop => exact decPlain_inv hop h rfl rfl

/-- The round trips of `Laws/PerInstr.lean` as one fact. -/
theorem decode_encode {i : Instr} (wf : i.WellFormed) : decode (encode i) = .ok i := by
  cases i with
  | nop => exact Laws.RoundTrip.nop wf
  | srst => exact Laws.RoundTrip.srst wf
  | rgb2ycc => exact Laws.RoundTrip.rgb2ycc wf
  | ycc2rgb => exact Laws.RoundTrip.ycc2rgb wf
  | ldpix => exact Laws.RoundTrip.ldpix wf
  | ldpln => exact Laws.RoundTrip.ldpln wf
  | strgba ps => exact Laws.RoundTrip.strgba ps wf
  | stpln ps => exact Laws.RoundTrip.stpln ps wf
  | getblk ps ch => exact Laws.RoundTrip.getblk ps ch wf
  | fdct b => exact Laws.RoundTrip.fdct b wf
  | idct b => exact Laws.RoundTrip.idct b wf
  | quant t => exact Laws.RoundTrip.quant t wf
  | dequant t => exact Laws.RoundTrip.dequant t wf
  | zz => exact Laws.RoundTrip.zz wf
  | unzz => exact Laws.RoundTrip.unzz wf
  | rleenc => exact Laws.RoundTrip.rleenc wf
  | rledec => exact Laws.RoundTrip.rledec wf
  | xfkey => exact Laws.RoundTrip.xfkey wf
  | emitkey => exact Laws.RoundTrip.emitkey wf
  | deckey => exact Laws.RoundTrip.deckey wf
  | mest ch => exact Laws.RoundTrip.mest ch wf
  | mcomp ch => exact Laws.RoundTrip.mcomp ch wf
  | resid ch => exact Laws.RoundTrip.resid ch wf
  | xfp => exact Laws.RoundTrip.xfp wf
  | emitp => exact Laws.RoundTrip.emitp wf
  | decp => exact Laws.RoundTrip.decp wf
  | chrst => exact Laws.RoundTrip.chrst wf
  | chapp => exact Laws.RoundTrip.chapp wf
  | chemit => exact Laws.RoundTrip.chemit wf
  | chopen => exact Laws.RoundTrip.chopen wf
  | chnext => exact Laws.RoundTrip.chnext wf

/-- Settles O1: the decoder inverts the encoder on well-formed commands, and reads no word that is not one of theirs. -/
theorem decodeIffEncode : Obligations.DecodeIffEncode := by
  unfold Obligations.DecodeIffEncode
  intro w i
  constructor
  · exact wellFormed_encode_of_decode
  · rintro ⟨wf, rfl⟩
    exact decode_encode wf

/-- Settles O2: each of the words is the one the encoder writes for its command, so `decodeIffEncode` decodes it. -/
theorem sampleCommandWords : Obligations.SampleCommandWords := by
  unfold Obligations.SampleCommandWords
  have reads {w : Word} {i : Instr} (wf : i.WellFormed) (enc : encode i = w) : decode w = .ok i :=
    (decodeIffEncode w i).mpr ⟨wf, enc⟩
  exact ⟨reads rfl rfl, reads rfl rfl, reads rfl rfl, reads rfl rfl, reads rfl rfl, reads rfl rfl, reads rfl rfl,
    reads rfl rfl⟩

end Sys2Proof.Machine
end

section
/-! PROOFS. Family 30_encoding: sequences of commands and pseudo-commands (spec R97): the leaf commands of `XFP` (R306),
and `XFKEY` with its block steps `BLKENC` and `BLKDEC` (R240 to R250). -/

namespace Sys2Proof.Machine

/-! ### Sequences (R97) -/

theorem runSequence_cons {i : Instr} {s t : State} (h : exec i s = .next t) (rest : List Instr) :
    runSequence (i :: rest) s = if t.err = .ok then runSequence rest t else .next t := by
  rw [runSequence, h]

theorem runSequence_cons_ok {i : Instr} {s t : State} (h : exec i s = .next t) (ok : t.err = .ok) (rest : List Instr) :
    runSequence (i :: rest) s = runSequence rest t := by
  rw [runSequence_cons h, if_pos ok]

/-- Three commands that complete one after another. -/
theorem runSequence_three {i j k : Instr} {s t u v : State} (hi : exec i s = .next t) (hj : exec j t = .next u)
    (hk : exec k u = .next v) (ht : t.err = .ok) (hu : u.err = .ok) (hv : v.err = .ok) (rest : List Instr) :
    runSequence (i :: j :: k :: rest) s = runSequence rest v := by
  rw [runSequence_cons_ok hi ht, runSequence_cons_ok hj hu, runSequence_cons_ok hk hv]

/-! ### The leaf commands of a predicted frame (R278, R296, R298) -/

theorem exec_mest {s : State} (ch : Ch) (stage : s.fstage = .raw) (ref : s.refv = true) :
    exec (.mest ch) s = .next ({ s with mv := s.mv.set ch (s.fieldOf ch), mvv := s.mvv.set ch true }.done []) := by
  change execMest ch s = _
  rw [execMest, if_neg (not_not.mpr stage), if_neg (not_not.mpr ref)]

theorem exec_mcomp {s : State} (ch : Ch) (ref : s.refv = true) (valid : s.mvv.get ch = true) :
    exec (.mcomp ch) s = .next ({ s with
      pred := s.pred.set ch (predict ch (s.ref.get ch) (s.mv.get ch) (planeW s.W ch) (planeH s.H ch))
      predv := s.predv.set ch true }.done []) := by
  change execMcomp ch s = _
  rw [execMcomp, if_neg (not_not.mpr ref), if_neg (not_not.mpr valid)]

theorem exec_resid {s : State} (ch : Ch) (stage : s.fstage ≠ .empty) (valid : s.predv.get ch = true) :
    exec (.resid ch) s = .next ({ s with
      res := s.res.set ch (residual (s.cur.get ch) (s.pred.get ch)), resv := s.resv.set ch true }.done []) := by
  change execResid ch s = _
  rw [execResid, if_neg stage, if_neg (not_not.mpr valid)]

theorem exec_xfp {s : State} {pr : PerCh Plane} {rs : PerCh ResPlane} {z : List Byte} (stage : s.fstage = .raw)
    (ref : s.refv = true)
    (predicted : pr = PerCh.of fun c => predict c (s.ref.get c) (s.fieldOf c) (planeW s.W c) (planeH s.H c))
    (rest : rs = PerCh.of fun c => residual (s.cur.get c) (pr.get c))
    (coded : z = coefOf s.cfg.num s.W s.H (fun c => resAt (rs.get c) (planeW s.W c)) false) :
    exec .xfp s = .next ({ s with
      mv := PerCh.of s.fieldOf, pred := pr, res := rs, coef := z, ref := reconPlanes s.cfg.num s.W s.H pr z
      mvv := ⟨true, true, true⟩, predv := ⟨true, true, true⟩, resv := ⟨true, true, true⟩
      fstage := .transformed, fkind := .predicted }.done []) := by
  subst coded rest predicted
  change execXfp s = _
  rw [execXfp, if_neg (not_not.mpr stage), if_neg (not_not.mpr ref)]
  simp only [PerCh.of_get]

/-- `MEST` on the three channels fills `MV`: none of the three changes what the search of another reads. -/
theorem runSequence_mest {s : State} (stage : s.fstage = .raw) (ref : s.refv = true) (rest : List Instr) :
    runSequence (.mest .y :: .mest .cb :: .mest .cr :: rest) s = runSequence rest { s with
      mv := PerCh.of s.fieldOf, mvv := ⟨true, true, true⟩, err := .ok, outLen := 0, outbuf := []
      outGen := s.outGen + 3 } :=
  runSequence_three (exec_mest .y stage ref) (exec_mest .cb stage ref) (exec_mest .cr stage ref) rfl rfl rfl rest

/-- `MCOMP` on the three channels fills `PRED`. -/
theorem runSequence_mcomp {s : State} (ref : s.refv = true) (valid : s.mvv = ⟨true, true, true⟩) (rest : List Instr) :
    runSequence (.mcomp .y :: .mcomp .cb :: .mcomp .cr :: rest) s = runSequence rest { s with
      pred := PerCh.of fun c => predict c (s.ref.get c) (s.mv.get c) (planeW s.W c) (planeH s.H c)
      predv := ⟨true, true, true⟩, err := .ok, outLen := 0, outbuf := [], outGen := s.outGen + 3 } := by
  have bit : ∀ c, s.mvv.get c = true := fun c => by rw [valid, PerCh.get_mk_self]
  exact runSequence_three (exec_mcomp .y ref (bit _)) (exec_mcomp .cb ref (bit _)) (exec_mcomp .cr ref (bit _))
    rfl rfl rfl rest

/-- `RESID` on the three channels fills `RES`. -/
theorem runSequence_resid {s : State} (stage : s.fstage ≠ .empty) (valid : s.predv = ⟨true, true, true⟩)
    (rest : List Instr) :
    runSequence (.resid .y :: .resid .cb :: .resid .cr :: rest) s = runSequence rest { s with
      res := PerCh.of fun c => residual (s.cur.get c) (s.pred.get c)
      resv := ⟨true, true, true⟩, err := .ok, outLen := 0, outbuf := [], outGen := s.outGen + 3 } := by
  have bit : ∀ c, s.predv.get c = true := fun c => by rw [valid, PerCh.get_mk_self]
  exact runSequence_three (exec_resid .y stage (bit _)) (exec_resid .cb stage (bit _)) (exec_resid .cr stage (bit _))
    rfl rfl rfl rest

/-- Settles O59: the nine leaf commands store, three by three, what `XFP` stores at once. -/
theorem xfpEqualsLeafCommands : Obligations.XfpEqualsLeafCommands := by
  unfold Obligations.XfpEqualsLeafCommands
  refine ⟨fun s => ⟨rfl, fun i rest t h => runSequence_cons h rest⟩, fun s => ⟨rfl, rfl, fun q b => ⟨rfl, rfl⟩⟩, ?_⟩
  intro s stage ref
  have nonempty : s.fstage ≠ .empty := fun empty => nomatch stage.symm.trans empty
  refine ⟨_, _, exec_xfp stage ref rfl rfl rfl, (runSequence_mest stage ref _).trans
    ((runSequence_mcomp ?_ ?_ _).trans (runSequence_resid ?_ ?_ [])), rfl, rfl, ?_, ?_, rfl, rfl, rfl⟩
  · exact ref
  · rfl
  · exact nonempty
  · rfl
  · simp only [PerCh.of_get, State.done_pred]
    rfl
  · simp only [PerCh.of_get, State.done_res]
    rfl

/-! ### The block steps (R179, R180, R194) -/

theorem center_natAbs_le {b : Bool} {a : Block Word}
    (domain : ∀ n : Fin 64, (a[n].toInt - if b then 128 else 0).natAbs ≤ 2 ^ 23) (n : Fin 64) :
    (center b (mapBlock BitVec.toInt a))[n].natAbs ≤ 2 ^ 23 := by
  simpa only [center, mapBlock_get] using domain n

theorem exec_fdct {s : State} {b : Bool}
    (domain : ∀ n : Fin 64, (center b (mapBlock BitVec.toInt s.sb))[n].natAbs ≤ 2 ^ 23) :
    exec (.fdct b) s =
      .next ({ s with tb := numFdct s.cfg.num (center b (mapBlock BitVec.toInt s.sb)) }.done []) := by
  change execFdct b s = _
  rw [execFdct, if_pos ((block_toList_all _ _).mpr fun n => by simpa only [decide_eq_true_eq] using domain n)]

theorem exec_quant {s : State} (t : Table) (finite : ∀ n : Fin 64, f32IsFinite s.tb[n] = true) :
    exec (.quant t) s = .next ({ s with qb := quant s.tb (tableOf t) }.done []) := by
  change execQuant t s = _
  rw [execQuant, if_pos ((block_toList_all _ _).mpr finite)]

theorem exec_idct {s : State} (b : Bool) (domain : ∀ n : Fin 64, inIdctDomain s.tb[n] = true) :
    exec (.idct b) s = .next ({ s with
      sb := mapBlock (fun v => BitVec.ofInt 32 (v + if b then 128 else 0))
        (rndBlock (numIdct s.cfg.num s.tb)) }.done []) := by
  change execIdct b s = _
  rw [execIdct, if_pos ((block_toList_all _ _).mpr domain)]

/-- `XFKEY` at stage `Raw` (R250). -/
theorem exec_xfkey {s : State} {z : List Byte} (stage : s.fstage = .raw)
    (coded : z = coefOf s.cfg.num s.W s.H (fun c => s.planeInt .cur c) true) :
    exec .xfkey s = .next ({ s with
      coef := z, ref := keyPlanes s.cfg.num s.W s.H z, refv := true, fstage := .transformed
      fkind := .key }.done []) := by
  subst coded
  change execXfkey s = _
  rw [execXfkey, if_neg (not_not.mpr stage)]

/-! ### What `XFKEY` and its block steps leave -/

theorem xfkey_codes (s : State) (stage : s.fstage = .raw) :
    ∃ t, exec .xfkey s = .next t ∧
      t = { s with
        coef := t.coef, ref := t.ref, refv := true, fstage := .transformed, fkind := .key, err := .ok, outLen := 0
        outbuf := t.outbuf, outGen := t.outGen } ∧
      t.coef = coefOf s.cfg.num s.W s.H (fun c => s.planeInt .cur c) true ∧
      t.ref = keyPlanes s.cfg.num s.W s.H t.coef :=
  ⟨_, exec_xfkey stage rfl, rfl, rfl, rfl⟩

/-- `BLKENC t, b` (R97): in the domain of `FDCT` every command completes, `QUANT` because `NUM.fdct` answers finite
values there. -/
theorem blkenc_codes (s : State) (q : Table) (b : Bool)
    (domain : ∀ n : Fin 64, (s.sb[n].toInt - if b then 128 else 0).natAbs ≤ 2 ^ 23) :
    ∃ t u v, exec (.fdct b) s = .next t ∧ exec (.quant q) t = .next u ∧ exec .zz u = .next v ∧
      runPseudo (.blkenc q b) s = .next v ∧
      v = { s with
        tb := t.tb, qb := u.qb, zb := v.zb, err := .ok, outLen := 0, outbuf := v.outbuf, outGen := v.outGen } ∧
      v.zb = encBlock s.cfg.num (tableOf q) b (mkBlock fun n => s.sb[n].toInt) := by
  have centred := center_natAbs_le domain
  let t := { s with tb := numFdct s.cfg.num (center b (mapBlock BitVec.toInt s.sb)) }.done []
  let u := { t with qb := quant t.tb (tableOf q) }.done []
  let v := { u with zb := toZigzag u.qb }.done []
  have hfdct : exec (.fdct b) s = .next t := exec_fdct centred
  have hquant : exec (.quant q) t = .next u := exec_quant q (numFdct_finite s.cfg.num _ centred)
  have hzz : exec .zz u = .next v := rfl
  exact ⟨t, u, v, hfdct, hquant, hzz, runSequence_three hfdct hquant hzz rfl rfl rfl [], rfl, rfl⟩

/-- `BLKDEC t, b` (R97): every command completes, `IDCT` because `DEQUANT` leaves its domain (R195). -/
theorem blkdec_decodes (s : State) (q : Table) (b : Bool) :
    ∃ t u v, exec .unzz s = .next t ∧ exec (.dequant q) t = .next u ∧ exec (.idct b) u = .next v ∧
      runPseudo (.blkdec q b) s = .next v ∧
      v = { s with
        qb := t.qb, tb := u.tb, sb := v.sb, err := .ok, outLen := 0, outbuf := v.outbuf, outGen := v.outGen } ∧
      ∀ n : Fin 64, v.sb[n] = BitVec.ofInt 32 ((decBlock s.cfg.num (tableOf q) s.zb)[n] + if b then 128 else 0) := by
  let t := { s with qb := fromZigzag s.zb }.done []
  let u := { t with tb := dequant t.qb (tableOf q) }.done []
  let v := { u with
    sb := mapBlock (fun k => BitVec.ofInt 32 (k + if b then 128 else 0)) (rndBlock (numIdct u.cfg.num u.tb)) }.done []
  have hunzz : exec .unzz s = .next t := rfl
  have hdequant : exec (.dequant q) t = .next u := rfl
  have hidct : exec (.idct b) u = .next v := exec_idct b (dequant_inIdctDomain (fromZigzag s.zb) q)
  refine ⟨t, u, v, hunzz, hdequant, hidct, runSequence_three hunzz hdequant hidct rfl rfl rfl [], rfl, fun n => ?_⟩
  simp only [v, State.done_sb, mapBlock_get]
  rfl

/-- Settles O26: `coefOf_getElem?` places each coded block, `keyPlanes_sampleAt` says what the reference holds. -/
theorem xfkeyCodesAndReconstructs : Obligations.XfkeyCodesAndReconstructs := by
  unfold Obligations.XfkeyCodesAndReconstructs
  refine ⟨fun s stage => ?_, blkenc_codes, blkdec_decodes⟩
  obtain ⟨t, ht, frame, hcoef, href⟩ := xfkey_codes s stage
  refine ⟨t, ht, frame, ?_, fun c => ?_, fun c => ⟨fun bx bY j hx hy => ?_, fun x y hx hy => ?_⟩⟩
  · rw [hcoef, coefOf_length]
  · rw [href, keyPlanes_length]
  · rw [hcoef]
    exact coefOf_getElem? _ _ _ _ _ c bx bY j hx hy
  · rw [href]
    exact keyPlanes_sampleAt _ _ _ _ c x y hx hy

end Sys2Proof.Machine
end

section
/-! PROOFS. Family 40_color: the two colour transforms (spec R120 to R128): what their commands write, field by field,
and the ranges of the two functions. -/

namespace Sys2Proof.Machine

/-! ### The sample byte (R10, R110) -/

/-- The byte of a clamped value is that value. -/
theorem clampByte_toNat (v : Int) : ((clampByte v).toNat : Int) = max 0 (min 255 v) := by
  rw [clampByte, BitVec.toNat_ofInt, clamp]
  split_ifs <;> omega

/-- A byte is its own sample byte. -/
theorem clampByte_natCast (b : Byte) : clampByte b.toNat = b := by
  have value := clampByte_toNat b.toNat
  exact BitVec.eq_of_toNat_eq (by omega)

theorem one_le_clampByte_toNat {v : Int} (hv : 1 ≤ v) : 1 ≤ (clampByte v).toNat := by
  have value := clampByte_toNat v
  omega

/-! ### The fields of `PX` and `YC` (R23, R24) -/

theorem pxR_toNat (px : Word) : (pxR px).toNat = px.toNat % 256 := by
  simp [pxR, BitVec.extractLsb'_toNat]

theorem pxG_toNat (px : Word) : (pxG px).toNat = px.toNat / 2 ^ 8 % 256 := by
  simp [pxG, BitVec.extractLsb'_toNat, Nat.shiftRight_eq_div_pow]

theorem pxB_toNat (px : Word) : (pxB px).toNat = px.toNat / 2 ^ 16 % 256 := by
  simp [pxB, BitVec.extractLsb'_toNat, Nat.shiftRight_eq_div_pow]

theorem ycY_toNat (yc : BitVec 24) : (ycY yc).toNat = yc.toNat % 256 := by
  simp [ycY, BitVec.extractLsb'_toNat]

theorem ycCb_toNat (yc : BitVec 24) : (ycCb yc).toNat = yc.toNat / 2 ^ 8 % 256 := by
  simp [ycCb, BitVec.extractLsb'_toNat, Nat.shiftRight_eq_div_pow]

/-- `Cr` is the top byte of the 24-bit register: nothing stands above it. -/
theorem ycCr_toNat (yc : BitVec 24) : (ycCr yc).toNat = yc.toNat / 2 ^ 16 := by
  rw [ycCr, BitVec.extractLsb'_toNat, Nat.shiftRight_eq_div_pow]
  omega

/-- The fields of a packed `YC`, where its bytes are clamped sums. -/
theorem packYc_clampByte_fields (y cb cr : Int) :
    (((packYc (clampByte y) (clampByte cb) (clampByte cr)).toNat % 256 : Nat) : Int) = max 0 (min 255 y) ∧
      (((packYc (clampByte y) (clampByte cb) (clampByte cr)).toNat / 2 ^ 8 % 256 : Nat) : Int) =
        max 0 (min 255 cb) ∧
      (((packYc (clampByte y) (clampByte cb) (clampByte cr)).toNat / 2 ^ 16 : Nat) : Int) = max 0 (min 255 cr) := by
  simp only [packYc, toNat_append_eq, ← clampByte_toNat]
  omega

/-- The fields of a packed `PX`, where the colour bytes are clamped sums. -/
theorem packPx_clampByte_fields (r g b : Int) (a : Byte) :
    (((packPx (clampByte r) (clampByte g) (clampByte b) a).toNat % 256 : Nat) : Int) = max 0 (min 255 r) ∧
      (((packPx (clampByte r) (clampByte g) (clampByte b) a).toNat / 2 ^ 8 % 256 : Nat) : Int) =
        max 0 (min 255 g) ∧
      (((packPx (clampByte r) (clampByte g) (clampByte b) a).toNat / 2 ^ 16 % 256 : Nat) : Int) =
        max 0 (min 255 b) ∧
      (packPx (clampByte r) (clampByte g) (clampByte b) a).toNat / 2 ^ 24 = a.toNat := by
  simp only [packPx, toNat_append_eq, ← clampByte_toNat]
  omega

/-! ### What the two commands write (R122, R124) -/

/-- `RGB2YCC` has no check: it completes in every state (R122). -/
theorem exec_rgb2ycc {s : State} {c : PerCh Byte} (conv : c = rgb2ycc (pxR s.px) (pxG s.px) (pxB s.px)) :
    exec .rgb2ycc s = .next ({ s with yc := packYc c.y c.cb c.cr }.done []) := by
  subst conv
  rfl

/-- `YCC2RGB` has no check: it completes in every state (R124). -/
theorem exec_ycc2rgb {s : State} {p : Byte × Byte × Byte} (conv : p = ycc2rgb (ycY s.yc) (ycCb s.yc) (ycCr s.yc)) :
    exec .ycc2rgb s = .next ({ s with px := packPx p.1 p.2.1 p.2.2 255#8 }.done []) := by
  subst conv
  rfl

/-- Settles O12: the packed word holds, field by field, the clamped sums of the bytes of `PX`. -/
theorem rgb2yccConverts : Obligations.Rgb2yccConverts := by
  unfold Obligations.Rgb2yccConverts
  refine ⟨decode_encode (i := .rgb2ycc) rfl, fun s r g b hr hg hb => ⟨_, exec_rgb2ycc rfl, rfl, ?_⟩⟩
  obtain rfl : r = (pxR s.px).toNat := by simp [hr, pxR_toNat]
  obtain rfl : g = (pxG s.px).toNat := by simp [hg, pxG_toNat]
  obtain rfl : b = (pxB s.px).toNat := by simp [hb, pxB_toNat]
  exact packYc_clampByte_fields _ _ _

/-- Settles O13: the packed word holds, field by field, the clamped sums of the bytes of `YC`, and alpha on top. -/
theorem ycc2rgbConverts : Obligations.Ycc2rgbConverts := by
  unfold Obligations.Ycc2rgbConverts
  refine ⟨decode_encode (i := .ycc2rgb) rfl, fun s y cb cr hy hcb hcr => ⟨_, exec_ycc2rgb rfl, rfl, ?_⟩⟩
  obtain rfl : y = (ycY s.yc).toNat := by simp [hy, ycY_toNat]
  obtain rfl : cb = (ycCb s.yc).toNat := by simp [hcb, ycCb_toNat]
  obtain rfl : cr = (ycCr s.yc).toNat := by simp [hcr, ycCr_toNat]
  exact packPx_clampByte_fields _ _ _ 255#8

/-! ### Ranges (R128) -/

/-- The least sum is that of `R = G = 255`, `B = 0` (R121). -/
theorem le_numCb (r g b : Byte) : 1000000 ≤ numCb r.toNat g.toNat b.toNat := by
  unfold numCb
  omega

/-- The least sum is that of `R = 0`, `G = B = 255` (R121). -/
theorem le_numCr (r g b : Byte) : 1000000 ≤ numCr r.toNat g.toNat b.toNat := by
  unfold numCr
  omega

/-- The coefficients of each chroma sum add up to zero, so a grey leaves the bias alone. -/
theorem numCb_grey (g : Int) : numCb g g g = 128500000 := by
  unfold numCb
  ring

theorem numCr_grey (g : Int) : numCr g g g = 128500000 := by
  unfold numCr
  ring

theorem rgb2ycc_grey (g : Byte) : (rgb2ycc g g g).cb = 128 ∧ (rgb2ycc g g g).cr = 128 := by
  simp only [rgb2ycc, numCb_grey, numCr_grey]
  exact ⟨rfl, rfl⟩

/-- The chroma terms vanish at 128 (R124). -/
theorem numR_neutral (y : Int) : numR y 128 = 1000000 * y + 500000 := by
  unfold numR
  ring

theorem numG_neutral (y : Int) : numG y 128 128 = 1000000 * y + 500000 := by
  unfold numG
  ring

theorem numB_neutral (y : Int) : numB y 128 = 1000000 * y + 500000 := by
  unfold numB
  ring

/-- `(Y, 128, 128)` gives `(Y, Y, Y)` (R124). -/
theorem ycc2rgb_neutral (y : Byte) : ycc2rgb y 128 128 = (y, y, y) := by
  have neutral : ((128 : Byte).toNat : Int) = 128 := rfl
  have rounded : (1000000 * (y.toNat : Int) + 500000) / 1000000 = y.toNat := by omega
  simp only [ycc2rgb, neutral, numR_neutral, numG_neutral, numB_neutral, rounded, clampByte_natCast]

/-- Settles O52: the least chroma sums are one unit, a grey has chroma 128, and `(v, 128, 128)` reaches byte `v` in
every channel. -/
theorem colorRanges : Obligations.ColorRanges := by
  unfold Obligations.ColorRanges
  refine ⟨fun r g b => ⟨?_, ?_⟩, rgb2ycc_grey, fun v => ?_⟩
  · exact one_le_clampByte_toNat (Int.le_ediv_of_mul_le (by decide) (le_numCb r g b))
  · exact one_le_clampByte_toNat (Int.le_ediv_of_mul_le (by decide) (le_numCr r g b))
  · have reached := ycc2rgb_neutral v
    exact ⟨⟨v, 128, 128, congrArg (·.1) reached⟩, ⟨v, 128, 128, congrArg (·.2.1) reached⟩,
      ⟨v, 128, 128, congrArg (·.2.2) reached⟩⟩

end Sys2Proof.Machine
end

section
/-! PROOFS. Family 41_sampler: the commands between the buffers and the planes (spec R140 to R162): where a sample stands
in what they read and write. -/

namespace Sys2Proof.Machine

/-! ### Places in planes and buffers (R140) -/

theorem plane_index_lt {w h x y : Nat} (hx : x < w) (hy : y < h) : y * w + x < w * h := by
  calc y * w + x < (y + 1) * w := by rw [Nat.succ_mul]; omega
    _ ≤ h * w := Nat.mul_le_mul_right _ hy
    _ = w * h := Nat.mul_comm _ _

/-- Inside a plane of the right length `sampleAt` needs no default (log 10). -/
theorem getElem?_eq_sampleAt {w h x y : Nat} {p : Plane} (hp : p.length = w * h) (hx : x < w) (hy : y < h) :
    p[y * w + x]? = some (sampleAt p w x y) := by
  have hi : y * w + x < p.length := hp ▸ plane_index_lt hx hy
  simp only [sampleAt, List.getD, List.getElem?_eq_getElem hi, Option.getD_some]

/-- Entry `j` of the piece of sample `(x, y)`, where a plane of equally long pieces is laid out. -/
theorem planeOf_flatten_getElem? {α : Type} {w h m x y j : Nat} {f : Nat → Nat → List α}
    (hf : ∀ x y, (f x y).length = m) (hx : x < w) (hy : y < h) (hj : j < m) :
    (planeOf w h f).flatten[m * (y * w + x) + j]? = (f x y)[j]? := by
  have rows : (planeOf w h f).flatten = (List.range h).flatMap fun y => (List.range w).flatMap fun x => f x y := by
    simp only [planeOf, List.flatMap_def, List.flatten_flatten, List.map_map, Function.comp_def]
  have row : ∀ y, ((List.range w).flatMap fun x => f x y).length = w * m := by
    intro y
    simp [List.length_flatMap, hf]
  have place : m * (y * w + x) + j = w * m * y + (m * x + j) := by ring
  have inRow : m * x + j < w * m := by
    calc m * x + j < m * (x + 1) := by rw [Nat.mul_succ]; omega
      _ ≤ m * w := Nat.mul_le_mul_left _ hx
      _ = w * m := Nat.mul_comm _ _
  rw [rows, place, flatMap_getElem? _ _ _ _ _ row inRow, List.getElem?_range hy, Option.bind_some,
    flatMap_getElem? _ _ _ _ _ (fun x => hf x y) hj, List.getElem?_range hx, Option.bind_some]

theorem State.byteAt_input (s : State) {i : Nat} (hi : i < s.inLen.toNat) : byteAt s.input i = s.inByte i := by
  rw [State.input, State.byteAt_inBytes _ _ _ _ hi, Nat.zero_add]

theorem State.done_outByte_of_getElem? {s : State} {out : List Byte} {a : Nat} {v : Byte} (h : out[a]? = some v) :
    (s.done out).outByte a = v := by
  obtain ⟨ha, hv⟩ := List.getElem?_eq_some_iff.mp h
  rw [State.done_outByte _ _ _ ha, hv]

/-! ### PSValid (R158) -/

/-- The executable check of a plane set and the condition the statements name are the same. -/
theorem State.planeSetError_eq_none_iff_valid {s : State} {ps : PlaneSet} {need : Ch → Bool} {l : List Ch}
    (hneed : ∀ c, need c = true ↔ c ∈ l) : s.planeSetError ps need = none ↔ PlaneSetValid s ps l := by
  rw [State.planeSetError_eq_none]
  cases ps with
  | cur | ref => exact Iff.rfl
  | pred | res => exact forall_congr' fun c => imp_congr_left (hneed c)

theorem State.planeSetError_all {s : State} {ps : PlaneSet} (valid : PlaneSetValid s ps [.y, .cb, .cr]) :
    s.planeSetError ps (fun _ => true) = none :=
  (State.planeSetError_eq_none_iff_valid fun c => by cases c <;> decide).mpr valid

theorem State.planeSetError_single {s : State} {ps : PlaneSet} {ch : Ch} (valid : PlaneSetValid s ps [ch]) :
    s.planeSetError ps (fun c => c = ch) = none :=
  (State.planeSetError_eq_none_iff_valid fun c => by rw [decide_eq_true_eq, List.mem_singleton]).mpr valid

/-! ### Loading planes (R143, R144) -/

/-- `LDPIX` where its three checks pass (R150). -/
theorem exec_ldpix {s : State} (dims : s.dimsOK) (fits : s.inFits) (len : s.inLen.toNat = 4 * s.W * s.H) :
    exec .ldpix s =
      .next ({ s with cur := planesOfRgba s.W s.H s.input, fstage := .raw, fkind := .key }.done []) := by
  change execLdpix s = _
  rw [execLdpix, if_neg (not_not.mpr dims), if_neg (not_not.mpr fits), if_neg (not_not.mpr len)]

/-- `LDPLN` where its three checks pass (R152). -/
theorem exec_ldpln {s : State} (dims : s.dimsOK) (fits : s.inFits) (len : s.inLen.toNat = 3 * (s.W * s.H)) :
    exec .ldpln s =
      .next ({ s with cur := planesOfPlanes s.W s.H s.input, fstage := .raw, fkind := .key }.done []) := by
  change execLdpln s = _
  rw [execLdpln, if_neg (not_not.mpr dims), if_neg (not_not.mpr fits), if_neg (not_not.mpr len)]

/-- The pixel `LDPIX` converts is that of the four bytes of its place in `INBUF` (R141). -/
theorem pixelYcc_input {s : State} {w h x y : Nat} (len : s.inLen.toNat = 4 * w * h) (hx : x < w) (hy : y < h) :
    pixelYcc s.input w x y = rgb2ycc (s.inByte (4 * (y * w + x))) (s.inByte (4 * (y * w + x) + 1))
      (s.inByte (4 * (y * w + x) + 2)) := by
  have place := plane_index_lt hx hy
  rw [Nat.mul_assoc] at len
  rw [pixelYcc, s.byteAt_input (by omega), s.byteAt_input (by omega), s.byteAt_input (by omega)]

/-- Settles O14: each sample is one of a `planeOf`, and the pixel it takes lies inside the frame. -/
theorem ldpixLoadsPixels : Obligations.LdpixLoadsPixels := by
  unfold Obligations.LdpixLoadsPixels
  intro s dims fits len
  have hlen : s.inLen.toNat = 4 * s.W * s.H := len
  refine ⟨_, exec_ldpix dims fits hlen, rfl, planesOfRgba_fit _ _ _, fun x y hx hy => ?_, fun x y hx hy => ?_⟩
  · rw [State.done_cur, planesOfRgba, sampleAt_planeOf _ _ _ _ _ hx hy, pixelYcc_input hlen hx hy]
  · have inside : 2 * x < s.W ∧ 2 * y < s.H := by omega
    rw [State.done_cur, planesOfRgba, sampleAt_planeOf _ _ _ _ _ hx hy, sampleAt_planeOf _ _ _ _ _ hx hy,
      pixelYcc_input hlen inside.1 inside.2]
    exact ⟨rfl, rfl⟩

/-- A sample of a plane that is a part of `INBUF` (R152). -/
theorem sampleAt_slice_input {s : State} {i j w h x y : Nat} (hi : i + w * h ≤ j) (hj : j ≤ s.inLen.toNat) (hx : x < w)
    (hy : y < h) : sampleAt (slice s.input i j) w x y = s.inByte (i + (y * w + x)) := by
  have place := plane_index_lt hx hy
  exact (byteAt_slice _ _ _ _ (by omega)).trans (s.byteAt_input (by omega))

/-- A sample of a chroma plane subsampled from a full-resolution plane in `INBUF` (R144, R152). -/
theorem sampleAt_subsample_input {s : State} {i j w h x y : Nat} (hi : i + w * h ≤ j) (hj : j ≤ s.inLen.toNat)
    (hx : x < w / 2) (hy : y < h / 2) :
    sampleAt (subsample (slice s.input i j) w h) (w / 2) x y = s.inByte (i + (2 * y * w + 2 * x)) := by
  have inside : 2 * x < w ∧ 2 * y < h := by omega
  rw [subsample, sampleAt_planeOf _ _ _ _ _ hx hy, sampleAt_slice_input hi hj inside.1 inside.2]

/-- Settles O15: the three planes are the thirds of the operand, and subsampling takes samples inside them. -/
theorem ldplnLoadsPlanes : Obligations.LdplnLoadsPlanes := by
  unfold Obligations.LdplnLoadsPlanes
  intro s dims fits len
  have hlen : s.inLen.toNat = 3 * (s.W * s.H) := len
  refine ⟨_, exec_ldpln dims fits hlen, rfl, planesOfPlanes_fit ?_, fun x y hx hy => ?_, fun x y hx hy => ⟨?_, ?_⟩⟩
  · rw [State.input_length]
    omega
  · rw [State.done_cur, planesOfPlanes, sampleAt_slice_input (by omega) (by omega) hx hy, Nat.zero_add]
  · exact sampleAt_subsample_input (by omega) (by omega) hx hy
  · exact sampleAt_subsample_input (by omega) (by omega) hx hy

/-! ### Storing planes (R154, R156) -/

/-- `STRGBA` where its checks pass (R154). -/
theorem exec_strgba {s : State} {ps : PlaneSet} (bytes : ps ≠ .res) (valid : s.planeSetError ps (fun _ => true) = none)
    (cap : 4 * s.W * s.H ≤ s.cfg.outCap) :
    exec (.strgba ps) s = .next (s.done (rgbaOfPlanes s.W s.H (s.planesOf ps))) := by
  change execStrgba ps s = _
  rw [execStrgba, if_neg bytes, valid]
  exact if_neg (not_lt.mpr cap)

/-- `STPLN` where its checks pass (R156). -/
theorem exec_stpln {s : State} {ps : PlaneSet} (bytes : ps ≠ .res) (valid : s.planeSetError ps (fun _ => true) = none)
    (cap : s.W * s.H + 2 * (s.W / 2 * (s.H / 2)) ≤ s.cfg.outCap) :
    exec (.stpln ps) s = .next (s.done ((s.planesOf ps).y ++ (s.planesOf ps).cb ++ (s.planesOf ps).cr)) := by
  change execStpln ps s = _
  rw [execStpln, if_neg bytes, valid]
  exact if_neg (not_lt.mpr cap)

/-- The four bytes of pixel `(x, y)` stand at offset `4 * (y * w + x)` (R141). -/
theorem rgbaOfPlanes_getElem? {w h x y j : Nat} (p : PerCh Plane) (hx : x < w) (hy : y < h) (hj : j < 4) :
    (rgbaOfPlanes w h p)[4 * (y * w + x) + j]? =
      (opaquePixel (sampleAt p.y w x y) (expand p.cb (w / 2) (h / 2) x y) (expand p.cr (w / 2) (h / 2) x y))[j]? :=
  planeOf_flatten_getElem? (fun _ _ => rfl) hx hy hj

/-- Settles O16: the output is a plane of four-byte pixels, each laid out at its place. -/
theorem strgbaStoresPixels : Obligations.StrgbaStoresPixels := by
  unfold Obligations.StrgbaStoresPixels
  intro s ps ⟨_, _, _, outMax, _⟩ bytes valid cap
  refine ⟨_, exec_strgba bytes (State.planeSetError_all valid) cap, rfl, ?_, fun x y hx hy => ?_⟩
  · rw [State.done_outLen, rgbaOfPlanes_length]
    exact toNat_ofNat_of_le cap outMax
  · have byte := fun j (hj : j < 4) => rgbaOfPlanes_getElem? (s.planesOf ps) hx hy hj
    exact ⟨State.done_outByte_of_getElem? (byte 0 (by decide)), State.done_outByte_of_getElem? (byte 1 (by decide)),
      State.done_outByte_of_getElem? (byte 2 (by decide)), State.done_outByte_of_getElem? (byte 3 (by decide))⟩

/-- What stands at each place of the three planes laid one after another (R156). -/
theorem append_planes_getElem? {w h : Nat} {p : PerCh Plane} (fits : PlanesFit w h p) :
    (p.y ++ p.cb ++ p.cr).length = w * h + 2 * (w / 2 * (h / 2)) ∧
      (∀ x y, x < w → y < h → (p.y ++ p.cb ++ p.cr)[y * w + x]? = some (sampleAt p.y w x y)) ∧
      ∀ x y, x < w / 2 → y < h / 2 →
        (p.y ++ p.cb ++ p.cr)[w * h + (y * (w / 2) + x)]? = some (sampleAt p.cb (w / 2) x y) ∧
        (p.y ++ p.cb ++ p.cr)[w * h + w / 2 * (h / 2) + (y * (w / 2) + x)]? = some (sampleAt p.cr (w / 2) x y) := by
  have ylen : p.y.length = w * h := fits .y
  have cblen : p.cb.length = w / 2 * (h / 2) := fits .cb
  have crlen : p.cr.length = w / 2 * (h / 2) := fits .cr
  refine ⟨?_, fun x y hx hy => ?_, fun x y hx hy => ⟨?_, ?_⟩⟩
  · simp only [List.length_append, ylen, cblen, crlen]
    omega
  · rw [List.append_assoc, List.getElem?_append_left (ylen ▸ plane_index_lt hx hy), getElem?_eq_sampleAt ylen hx hy]
  · rw [List.append_assoc, List.getElem?_append_right (by omega), ylen, Nat.add_sub_cancel_left,
      List.getElem?_append_left (cblen ▸ plane_index_lt hx hy), getElem?_eq_sampleAt cblen hx hy]
  · have front : (p.y ++ p.cb).length = w * h + w / 2 * (h / 2) := by rw [List.length_append, ylen, cblen]
    rw [List.getElem?_append_right (by omega), front, Nat.add_sub_cancel_left, getElem?_eq_sampleAt crlen hx hy]

/-- Settles O17: the output is the three planes one after another, each of its own size. -/
theorem stplnStoresPlanes : Obligations.StplnStoresPlanes := by
  unfold Obligations.StplnStoresPlanes
  intro s ps ⟨_, _, _, outMax, _⟩ bytes valid fits cap
  obtain ⟨len, luma, chroma⟩ := append_planes_getElem? fits
  rw [Nat.mul_assoc 2] at cap ⊢
  refine ⟨_, exec_stpln bytes (State.planeSetError_all valid) cap, rfl, ?_, fun x y hx hy => ?_, fun x y hx hy => ?_⟩
  · rw [State.done_outLen, len]
    exact toNat_ofNat_of_le cap outMax
  · exact State.done_outByte_of_getElem? (luma x y hx hy)
  · obtain ⟨cb, cr⟩ := chroma x y hx hy
    exact ⟨State.done_outByte_of_getElem? cb, State.done_outByte_of_getElem? cr⟩

/-! ### A block of a plane (R147, R160) -/

/-- A block that starts inside a plane is one of its `ceil8` blocks (R10). -/
theorem lt_ceil8 {a n : Nat} (h : 8 * a < n) : a < ceil8 n := by
  unfold ceil8
  omega

/-- `GETBLK` where its checks pass (R160). -/
theorem exec_getblk {s : State} {ps : PlaneSet} {ch : Ch} (valid : s.planeSetError ps (fun c => c = ch) = none)
    (col : s.arg0.toNat < ceil8 (planeW s.W ch)) (row : s.arg1.toNat < ceil8 (planeH s.H ch)) :
    exec (.getblk ps ch) s = .next ({ s with
      sb := mapBlock (BitVec.ofInt 32)
        (getblk (s.planeInt ps ch) (planeW s.W ch) (planeH s.H ch) s.arg0.toNat s.arg1.toNat) }.done []) := by
  change execGetblk ps ch s = _
  rw [execGetblk, valid]
  exact if_neg (not_or.mpr ⟨not_le.mpr col, not_le.mpr row⟩)

/-- Settles O18: an entry of the block is a sample, or the zero beyond the plane. -/
theorem getblkExtractsBlock : Obligations.GetblkExtractsBlock := by
  unfold Obligations.GetblkExtractsBlock
  intro s ps ch valid col row
  refine ⟨_, exec_getblk (State.planeSetError_single valid) (lt_ceil8 col) (lt_ceil8 row), rfl, fun n => ?_⟩
  simp only [State.done_sb, mapBlock_get, getblk, mkBlock_get]
  split
  · rfl
  · rfl

end Sys2Proof.Machine
end

section
/-! PROOFS. Family 42_dct: `FDCT` and `IDCT` (spec R179, R180), and binary32 values as the rationals they round. -/

namespace Sys2Proof.Machine

/-! ### Binary32 values as rationals (R10, R13) -/

/-- Division by `d` and rounding, on integers, is `rnd` of the quotient. -/
theorem rndDiv_eq_rndRat (n : Int) {d : Nat} (hd : 0 < d) : rndDiv n d = rndRat ((n : Rat) / d) := by
  have hd' : (0 : Rat) < d := Nat.cast_pos.mpr hd
  have floor (m : Int) : ⌊(m : Rat) / d + 1 / 2⌋ = (2 * m + d) / (2 * d) := by
    have quotient : (m : Rat) / d + 1 / 2 = ((2 * m + d : Int) : Rat) / ((2 * d : Nat) : Rat) := by
      push_cast
      field_simp
    rw [quotient, Rat.floor_intCast_div_natCast, Nat.cast_mul, Nat.cast_two]
  have sign : (0 : Rat) ≤ n / d ↔ 0 ≤ n := by rw [le_div_iff₀ hd', zero_mul, Int.cast_nonneg_iff]
  simp only [rndDiv, rndRat, sign, floor]
  split
  · rfl
  · rw [← neg_div, ← Int.cast_neg, floor, mul_neg]

theorem F32.rndDivBy_eq_rndRat (f : F32) {d : Nat} (hd : 0 < d) : f.rndDivBy d = rndRat (f.toRat / d) := by
  rw [F32.rndDivBy, rndDiv_eq_rndRat _ (by positivity), F32.toRat, div_div, Nat.cast_mul, mul_comm (d : Rat)]
  norm_num

theorem F32.abs_toRat (f : F32) : |f.toRat| = f.mag / 2 ^ 149 := by
  rw [F32.toRat, abs_div, abs_of_pos (by positivity : (0 : Rat) < 2 ^ 149), F32.units]
  cases f.neg <;> simp

theorem patternRat_of_mag_eq_zero {w : Word} (zero : (F32.ofBits w).mag = 0) : patternRat w = 0 :=
  abs_eq_zero.mp (by rw [patternRat, F32.abs_toRat, zero, Nat.cast_zero, zero_div])

/-- The check of `IDCT` on one entry (R180) is the domain of `NUM.idct`. -/
theorem inIdctDomain_iff (w : Word) : inIdctDomain w = true ↔ f32IsFinite w = true ∧ |patternRat w| ≤ 2 ^ 23 := by
  rw [inIdctDomain, Bool.and_eq_true, decide_eq_true_eq, patternRat, F32.abs_toRat, div_le_iff₀ (by positivity)]
  norm_cast

/-- `rnd` recovers an integer from anything nearer than one half. -/
theorem rndRat_eq_of_abs_sub_lt {q : Rat} {z : Int} (near : |q - z| < 1 / 2) : rndRat q = z := by
  obtain ⟨hlo, hhi⟩ := abs_lt.mp near
  unfold rndRat
  split
  · exact Int.floor_eq_iff.mpr ⟨by linarith, by linarith⟩
  · rw [neg_eq_iff_eq_neg, Int.floor_eq_iff, Int.cast_neg]
    exact ⟨by linarith, by linarith⟩

/-! ### The two commands (R179, R180) -/

theorem center_mapBlock_toInt (b : Bool) (a : Block Word) :
    center b (mapBlock BitVec.toInt a) = mkBlock fun n => a[n].toInt - if b then 128 else 0 :=
  block_ext fun n => by simp only [center, mapBlock_get, mkBlock_get]

/-- Settles O19: in the domain the check of `exec_fdct` passes. -/
theorem fdctTransforms : Obligations.FdctTransforms := by
  unfold Obligations.FdctTransforms
  intro s b domain
  refine ⟨_, exec_fdct (center_natAbs_le domain), ?_⟩
  rw [center_mapBlock_toInt]
  rfl

/-- Settles O20: in the domain the check of `exec_idct` passes, and its integer rounding is `rnd` of the exact value. -/
theorem idctTransforms : Obligations.IdctTransforms := by
  unfold Obligations.IdctTransforms
  intro s b domain
  refine ⟨_, exec_idct b fun n => (inIdctDomain_iff _).mpr (domain n), rfl, fun n => ?_⟩
  simp only [State.done_sb, mapBlock_get, rndBlock, F32.rndDivBy_eq_rndRat _ Nat.one_pos, Nat.cast_one, div_one,
    patternRat]

end Sys2Proof.Machine
end

section
/-! PROOFS. Family 42_dct: the exact transforms are orthonormal (spec R170, R171), so that `FDCT 1` then `IDCT 1` gives
a block of samples back (R181). -/

namespace Sys2Proof.Machine

/-! ### The transforms are orthonormal (R170, R171) -/

open Matrix
open scoped Kronecker

/-- The sum behind the orthogonality of the cosines: multiplied by `2 sin t` it telescopes. -/
theorem two_mul_sin_mul_sum_cos (t : ℝ) (N : Nat) :
    2 * Real.sin t * ∑ x ∈ Finset.range N, Real.cos ((2 * x + 1) * t) = Real.sin (2 * N * t) := by
  induction N with
  | zero => simp
  | succ N ih =>
    have term : 2 * Real.sin t * Real.cos ((2 * N + 1) * t) = Real.sin (2 * (N + 1) * t) - Real.sin (2 * N * t) := by
      rw [show 2 * ((N : ℝ) + 1) * t = (2 * N + 1) * t + t by ring, show 2 * (N : ℝ) * t = (2 * N + 1) * t - t by ring,
        Real.sin_add, Real.sin_sub]
      ring
    rw [Finset.sum_range_succ, mul_add, ih, term, Nat.cast_succ]
    ring

/-- The eight cosines of one frequency sum to zero, but for frequency 0. -/
theorem sum_cos_eq {j : Nat} (hj : j < 16) :
    ∑ x : Fin 8, Real.cos ((2 * (x : ℕ) + 1) * (j * Real.pi / 16)) = if j = 0 then 8 else 0 := by
  split
  case isTrue h0 => simp [h0]
  case isFalse h0 =>
    have lower : 0 < (j : ℝ) * Real.pi / 16 := by positivity
    have upper : (j : ℝ) * Real.pi / 16 < Real.pi := by
      have : (j : ℝ) < 16 := by exact_mod_cast hj
      nlinarith [Real.pi_pos]
    have telescoped := two_mul_sin_mul_sum_cos (j * Real.pi / 16) 8
    rw [show 2 * ((8 : ℕ) : ℝ) * (j * Real.pi / 16) = j * Real.pi by push_cast; ring, Real.sin_nat_mul_pi,
      Finset.sum_range] at telescoped
    exact (mul_eq_zero.mp telescoped).resolve_left (mul_pos two_pos (Real.sin_pos_of_pos_of_lt_pi lower upper)).ne'

/-- `cos(k*pi*(2x+1)/16)`, scaled to an orthonormal basis: the 8-point transform along one axis (R170). -/
noncomputable def dctMatrix : Matrix (Fin 8) (Fin 8) ℝ :=
  of fun k x => (if k.val = 0 then 1 / √2 else 1) * (1 / 2) * Real.cos ((k : ℕ) * Real.pi * (2 * (x : ℕ) + 1) / 16)

/-- Two rows of cosines, by their difference and their sum as frequencies. -/
theorem sum_cos_mul_cos {k l : Nat} (hl : l ≤ k) (hk : k < 8) :
    ∑ x : Fin 8, Real.cos (k * Real.pi * (2 * (x : ℕ) + 1) / 16) * Real.cos (l * Real.pi * (2 * (x : ℕ) + 1) / 16) =
      (if k = l then 4 else 0) + if k = 0 then 4 else 0 := by
  have product (x : Fin 8) :
      Real.cos (k * Real.pi * (2 * (x : ℕ) + 1) / 16) * Real.cos (l * Real.pi * (2 * (x : ℕ) + 1) / 16) =
        (Real.cos ((2 * (x : ℕ) + 1) * ((k - l : ℕ) * Real.pi / 16)) +
          Real.cos ((2 * (x : ℕ) + 1) * ((k + l : ℕ) * Real.pi / 16))) / 2 := by
    rw [show (2 * ((x : ℕ) : ℝ) + 1) * ((k - l : ℕ) * Real.pi / 16) =
        k * Real.pi * (2 * (x : ℕ) + 1) / 16 - l * Real.pi * (2 * (x : ℕ) + 1) / 16 by push_cast [hl]; ring,
      show (2 * ((x : ℕ) : ℝ) + 1) * ((k + l : ℕ) * Real.pi / 16) =
        k * Real.pi * (2 * (x : ℕ) + 1) / 16 + l * Real.pi * (2 * (x : ℕ) + 1) / 16 by push_cast; ring,
      Real.cos_sub, Real.cos_add]
    ring
  rw [Finset.sum_congr rfl fun x _ => product x, ← Finset.sum_div, Finset.sum_add_distrib, sum_cos_eq (by omega),
    sum_cos_eq (by omega)]
  have difference : k - l = 0 ↔ k = l := by omega
  have total : k + l = 0 ↔ k = 0 := by omega
  simp only [difference, total]
  split <;> split <;> norm_num

theorem one_div_sqrt_two_mul_self : (1 / √2 : ℝ) * (1 / √2) = 1 / 2 := by
  rw [div_mul_div_comm, one_mul, Real.mul_self_sqrt two_pos.le]

theorem dctMatrix_mul_transpose_apply (k l : Fin 8) :
    (dctMatrix * dctMatrixᵀ) k l =
      (if k.val = 0 then 1 / √2 else 1) * (if l.val = 0 then 1 / √2 else 1) * (1 / 4) *
        ∑ x : Fin 8, Real.cos (k * Real.pi * (2 * (x : ℕ) + 1) / 16) *
          Real.cos (l * Real.pi * (2 * (x : ℕ) + 1) / 16) := by
  rw [mul_apply, Finset.mul_sum]
  refine Finset.sum_congr rfl fun x _ => ?_
  simp only [dctMatrix, of_apply, transpose_apply]
  ring

theorem dctMatrix_mul_transpose : dctMatrix * dctMatrixᵀ = 1 := by
  have diagonal (k : Fin 8) : (dctMatrix * dctMatrixᵀ) k k = 1 := by
    rw [dctMatrix_mul_transpose_apply, sum_cos_mul_cos le_rfl k.isLt]
    by_cases h0 : k.val = 0
    · simp only [h0, if_true, one_div_sqrt_two_mul_self]
      norm_num
    · simp [h0]
  have below {k l : Fin 8} (hl : l < k) : (dctMatrix * dctMatrixᵀ) k l = 0 := by
    rw [dctMatrix_mul_transpose_apply, sum_cos_mul_cos hl.le k.isLt]
    simp only [Fin.val_ne_of_ne hl.ne', Nat.ne_zero_of_lt hl, if_false, add_zero, mul_zero]
  have symmetric : (dctMatrix * dctMatrixᵀ).IsSymm := isSymm_mul_transpose_self _
  ext k l
  rcases lt_trichotomy l k with hl | rfl | hl
  · rw [below hl, one_apply_ne hl.ne']
  · rw [diagonal, one_apply_eq]
  · rw [← symmetric.apply, below hl, one_apply_ne hl.ne]

/-- The 8 × 8 transform on blocks, index `8 * row + column` (R12): `dctMatrix` along both axes. -/
noncomputable def blockDctMatrix : Matrix (Fin 64) (Fin 64) ℝ :=
  (dctMatrix ⊗ₖ dctMatrix).reindex finProdFinEquiv finProdFinEquiv

theorem blockDctMatrix_apply (n m : Fin 64) :
    blockDctMatrix n m =
      (if n.val % 8 = 0 then 1 / √2 else 1) * (if n.val / 8 = 0 then 1 / √2 else 1) * (1 / 4) *
        (Real.cos ((n.val % 8 : ℕ) * Real.pi * (2 * (m.val % 8 : ℕ) + 1) / 16) *
          Real.cos ((n.val / 8 : ℕ) * Real.pi * (2 * (m.val / 8 : ℕ) + 1) / 16)) := by
  have factors : blockDctMatrix n m =
      dctMatrix ⟨n.val / 8, by omega⟩ ⟨m.val / 8, by omega⟩ * dctMatrix ⟨n.val % 8, by omega⟩ ⟨m.val % 8, by omega⟩ :=
    rfl
  rw [factors]
  simp only [dctMatrix, of_apply]
  ring

theorem blockDctMatrix_mul_transpose : blockDctMatrix * blockDctMatrixᵀ = 1 := by
  simp only [blockDctMatrix, reindex_apply, transpose_submatrix, submatrix_mul_equiv]
  rw [← kroneckerMap_transpose, ← mul_kronecker_mul, dctMatrix_mul_transpose, one_kronecker_one, submatrix_one_equiv]

theorem blockDctMatrix_transpose_mul : blockDctMatrixᵀ * blockDctMatrix = 1 :=
  mul_eq_one_comm.mp blockDctMatrix_mul_transpose

theorem isForwardDct_iff {h F : Fin 64 → ℝ} : IsForwardDct h F ↔ F = blockDctMatrix *ᵥ h := by
  rw [IsForwardDct, funext_iff]
  refine forall_congr' fun n => ?_
  simp only [mulVec, dotProduct, blockDctMatrix_apply, Finset.mul_sum]
  refine Eq.congr_right (Finset.sum_congr rfl fun m _ => ?_)
  ring

theorem isInverseDct_iff {F h : Fin 64 → ℝ} : IsInverseDct F h ↔ h = blockDctMatrixᵀ *ᵥ F := by
  rw [IsInverseDct, funext_iff]
  refine forall_congr' fun m => ?_
  simp only [mulVec, dotProduct, transpose_apply, blockDctMatrix_apply, Finset.mul_sum]
  refine Eq.congr_right (Finset.sum_congr rfl fun n _ => ?_)
  ring

/-- A matrix whose columns are orthonormal keeps the square sum. -/
theorem mulVec_dotProduct_self {A : Matrix (Fin 64) (Fin 64) ℝ} (columns : Aᵀ * A = 1) (v : Fin 64 → ℝ) :
    (A *ᵥ v) ⬝ᵥ (A *ᵥ v) = v ⬝ᵥ v := by
  rw [dotProduct_mulVec, ← mulVec_transpose, mulVec_mulVec, columns, one_mulVec]

/-! ### Bounds by the square sum -/

theorem dotProduct_self_le_of_abs_le {v : Fin 64 → ℝ} {c : ℝ} (bound : ∀ n, |v n| ≤ c) : v ⬝ᵥ v ≤ (8 * c) ^ 2 := by
  calc v ⬝ᵥ v ≤ ∑ _n : Fin 64, c ^ 2 := Finset.sum_le_sum fun n _ => by
        rw [← pow_two, ← sq_abs]
        exact pow_le_pow_left₀ (abs_nonneg _) (bound n) 2
    _ = (8 * c) ^ 2 := by
        rw [Finset.sum_const, Finset.card_univ, Fintype.card_fin, nsmul_eq_mul]
        ring

theorem abs_le_of_dotProduct_self_le {v : Fin 64 → ℝ} {c : ℝ} (hc : 0 ≤ c) (bound : v ⬝ᵥ v ≤ c ^ 2) (n : Fin 64) :
    |v n| ≤ c :=
  abs_le_of_sq_le_sq
    ((pow_two (v n)).trans_le (Finset.single_le_sum (f := fun m => v m * v m) (fun _ _ => mul_self_nonneg _)
      (Finset.mem_univ n)) |>.trans bound) hc

/-- Cauchy-Schwarz on the 64 entries. -/
theorem sum_abs_le_of_dotProduct_self_le {v : Fin 64 → ℝ} {c : ℝ} (hc : 0 ≤ c) (bound : v ⬝ᵥ v ≤ c ^ 2) :
    ∑ n, |v n| ≤ 8 * c := by
  have squares : ∑ n, |v n| ^ 2 = v ⬝ᵥ v := Finset.sum_congr rfl fun n _ => by rw [sq_abs, pow_two]
  have cauchy := sq_sum_le_card_mul_sum_sq (s := Finset.univ) (f := fun n => |v n|)
  rw [squares, Finset.card_univ, Fintype.card_fin] at cauchy
  refine abs_le_of_sq_le_sq' (cauchy.trans ?_) (by positivity) |>.2
  push_cast
  linarith [mul_pow 8 c 2]

/-! ### The round trip of a block of samples (R181) -/

section RoundTrip
variable {a T : Fin 64 → ℝ} (centred : ∀ n, |a n| ≤ 128)
  (fwd : ∀ n, |T n - (blockDctMatrix *ᵥ a) n| ≤ 1 / 2 ^ 18 * ∑ m, |a m|)
include centred

theorem forward_dotProduct_self_le : (blockDctMatrix *ᵥ a) ⬝ᵥ (blockDctMatrix *ᵥ a) ≤ 1024 ^ 2 :=
  (mulVec_dotProduct_self blockDctMatrix_transpose_mul a).trans_le
    ((dotProduct_self_le_of_abs_le centred).trans_eq (by norm_num))

include fwd

/-- The 64 centred samples have magnitudes of at most 128, so `ACC` allows 1/32 at a coefficient. -/
theorem abs_sub_forward_le (n : Fin 64) : |T n - (blockDctMatrix *ᵥ a) n| ≤ 1 / 32 := by
  have total : ∑ m, |a m| ≤ 8192 := (Finset.sum_le_sum fun _ _ => centred _).trans_eq (by simp; norm_num)
  linarith [fwd n]

theorem abs_coefficient_le (n : Fin 64) : |T n| ≤ 1025 := by
  have exact_le := abs_le_of_dotProduct_self_le (by norm_num) (forward_dotProduct_self_le centred) n
  have error := abs_sub_forward_le centred fwd n
  linarith [abs_sub_abs_le_abs_sub (T n) ((blockDctMatrix *ᵥ a) n)]

theorem sum_abs_coefficient_le : ∑ n, |T n| ≤ 8194 := by
  have exact_le := sum_abs_le_of_dotProduct_self_le (by norm_num) (forward_dotProduct_self_le centred)
  calc ∑ n, |T n| ≤ ∑ n, (|(blockDctMatrix *ᵥ a) n| + 1 / 32) := Finset.sum_le_sum fun n _ => by
        linarith [abs_sub_forward_le centred fwd n, abs_sub_abs_le_abs_sub (T n) ((blockDctMatrix *ᵥ a) n)]
    _ ≤ 8194 := by
        rw [Finset.sum_add_distrib]
        simp only [Finset.sum_const, Finset.card_univ, Fintype.card_fin, nsmul_eq_mul]
        push_cast
        linarith

/-- The inverse is orthonormal, so it moves the forward errors to errors of at most 8/32 at a sample. -/
theorem abs_exact_inverse_sub_le (n : Fin 64) : |(blockDctMatrixᵀ *ᵥ T) n - a n| ≤ 1 / 4 := by
  have moved : blockDctMatrixᵀ *ᵥ (T - blockDctMatrix *ᵥ a) = blockDctMatrixᵀ *ᵥ T - a := by
    rw [mulVec_sub, mulVec_mulVec, blockDctMatrix_transpose_mul, one_mulVec]
  have columns : blockDctMatrixᵀᵀ * blockDctMatrixᵀ = 1 := by rw [transpose_transpose, blockDctMatrix_mul_transpose]
  have errors := dotProduct_self_le_of_abs_le (v := T - blockDctMatrix *ᵥ a) (abs_sub_forward_le centred fwd)
  rw [← mulVec_dotProduct_self columns, moved] at errors
  exact (abs_le_of_dotProduct_self_le (by norm_num) errors n).trans_eq (by norm_num)

/-- With the two error bounds of `ACC` the inverse of the transform is nearer than one half to every sample. -/
theorem abs_inverse_sub_lt {g : Fin 64 → ℝ}
    (inv : ∀ n, |g n - (blockDctMatrixᵀ *ᵥ T) n| ≤ 1 / 2 ^ 18 * ∑ m, |T m|) (n : Fin 64) : |g n - a n| < 1 / 2 := by
  have total := sum_abs_coefficient_le centred fwd
  linarith [inv n, abs_exact_inverse_sub_le centred fwd n, abs_sub_le (g n) ((blockDctMatrixᵀ *ᵥ T) n) (a n)]

end RoundTrip

theorem abs_intCast_le {z : Int} {c : Nat} (bound : z.natAbs ≤ c) : |(z : ℝ)| ≤ c := by
  rw [← Int.cast_abs, Int.abs_eq_natAbs, Int.cast_natCast]
  exact Nat.cast_le.mpr bound

section Numerics
variable {num : NumSel} {a : Block Int} (centred : ∀ n : Fin 64, a[n].natAbs ≤ 128) (fdctAcc : FdctAcc num a)
include centred fdctAcc

/-- What `FDCT` makes of centred samples lies in the domain of `IDCT`. -/
theorem numFdct_finite_and_abs_le (n : Fin 64) :
    f32IsFinite (numFdct num a)[n] = true ∧ |patternRat (numFdct num a)[n]| ≤ 2 ^ 23 := by
  have magnitudes (m : Fin 64) : |(a[m] : ℝ)| ≤ 128 := abs_intCast_le (centred m)
  have coefficient : |patternRat (numFdct num a)[n]| ≤ 1025 := by
    exact_mod_cast abs_coefficient_le magnitudes (fdctAcc _ (isForwardDct_iff.mpr rfl)) n
  exact ⟨numFdct_finite num a (fun m => (centred m).trans (by norm_num)) n, coefficient.trans (by norm_num)⟩

/-- `rnd` of the inverse of the transform is the centred sample (R181). -/
theorem rndRat_numIdct_numFdct (idctAcc : IdctAcc num (numFdct num a)) (n : Fin 64) :
    rndRat (patternRat (numIdct num (numFdct num a))[n]) = a[n] := by
  have magnitudes (m : Fin 64) : |(a[m] : ℝ)| ≤ 128 := abs_intCast_le (centred m)
  refine rndRat_eq_of_abs_sub_lt ?_
  rw [← Rat.cast_lt (K := ℝ)]
  push_cast
  exact abs_inverse_sub_lt magnitudes (fdctAcc _ (isForwardDct_iff.mpr rfl)) (idctAcc _ (isInverseDct_iff.mpr rfl)) n

end Numerics

/-- Settles O55: `fdctTransforms` and `idctTransforms` complete the two commands, `rndRat_numIdct_numFdct` says what the
second one rounds to. -/
theorem sampleBlockRoundTrip : Obligations.SampleBlockRoundTrip := by
  unfold Obligations.SampleBlockRoundTrip
  intro s samples fdctAcc idctAcc
  have centred (n : Fin 64) : (mkBlock fun n => s.sb[n].toInt - 128)[n].natAbs ≤ 128 := by
    obtain ⟨lower, upper⟩ := samples n
    rw [mkBlock_get]
    omega
  obtain ⟨t, hfdct, tFrame⟩ := fdctTransforms s true fun n => by
    simpa only [mkBlock_get, if_true] using (centred n).trans (by norm_num : 128 ≤ 2 ^ 23)
  have htb : t.tb = numFdct s.cfg.num (mkBlock fun n => s.sb[n].toInt - 128) :=
    (congrArg (fun s : State => s.tb) tFrame :)
  have hcfg : t.cfg = s.cfg := (congrArg State.cfg tFrame :)
  obtain ⟨u, hidct, uFrame, hsb⟩ := idctTransforms t true (htb ▸ numFdct_finite_and_abs_le centred fdctAcc)
  refine ⟨t, u, hfdct, congrArg (fun s : State => s.err) tFrame, hidct, congrArg (fun s : State => s.err) uFrame,
    block_ext fun n => ?_⟩
  rw [hsb, htb, hcfg, rndRat_numIdct_numFdct centred fdctAcc idctAcc, mkBlock_get, if_pos rfl, sub_add_cancel,
    BitVec.ofInt_toInt]

end Sys2Proof.Machine
end

section
/-! PROOFS. Family 42_dct: `REF32` on a subnormal operand, where its products round to zero (spec R177, log 19). -/

namespace Sys2Proof.Machine

/-- A block with one coefficient, at frequency 0, has a constant inverse (R172). -/
theorem inverse_of_dc {F h : Fin 64 → ℝ} (inv : IsInverseDct F h) (dc : ∀ m, m ≠ 0 → F m = 0) (n : Fin 64) :
    h n = F 0 / 8 := by
  rw [inv n, Finset.sum_eq_single 0 (fun m _ hm => by rw [dc m hm]; ring)
    (fun absent => absurd (Finset.mem_univ _) absent)]
  simp only [Fin.val_zero, Nat.zero_mod, Nat.zero_div, if_true, one_div_sqrt_two_mul_self, Nat.cast_zero, zero_mul,
    zero_div, Real.cos_zero]
  ring

/-- The block whose entry 0 is 2^-149, zeros elsewhere. -/
def subnormalBlock : Block Word := (Vector.replicate 64 0).set 0 0x00000001#32

theorem F32.mul_mag_eq_zero {a : F32} (b : F32) (ha : a.mag = 0) : (a.mul b).mag = 0 := by
  simp only [F32.mul, ha, Nat.zero_mul]
  decide

/-- Zeros of either sign add up to +0.0. -/
theorem sum64_of_mag_eq_zero {t : Fin 64 → F32} (zeros : ∀ n, (t n).mag = 0) : sum64 t = ⟨false, 0⟩ := by
  refine List.foldl_fixed' (fun n => ?_) _
  have stays : ∀ neg : Bool, F32.add ⟨false, 0⟩ ⟨neg, 0⟩ = ⟨false, 0⟩ := by decide
  have zero : t n = ⟨(t n).neg, 0⟩ := by rw [← zeros n]
  rw [zero, stays]

/-- `cf(0) * cf(0)` is below one half (R177), so its product with 2^-149 rounds to zero; the other entries are zeros. -/
theorem scaled_subnormalBlock_mag (n : Fin 64) :
    (((cf (n.val % 8)).mul (cf (n.val / 8))).mul (F32.ofBits subnormalBlock[n])).mag = 0 := by
  revert n
  decide +kernel

theorem numIdct_subnormalBlock : numIdct .ref32 subnormalBlock = Vector.replicate 64 0 := by
  refine block_ext fun n => ?_
  have sum : sum64 (fun m => ((((cf (m.val % 8)).mul (cf (m.val / 8))).mul (F32.ofBits subnormalBlock[m])).mul
      (cosAt (m.val % 8) (n.val % 8))).mul (cosAt (m.val / 8) (n.val / 8))) = ⟨false, 0⟩ :=
    sum64_of_mag_eq_zero fun m => F32.mul_mag_eq_zero _ (F32.mul_mag_eq_zero _ (scaled_subnormalBlock_mag m))
  have scaled : (quarter.mul ⟨false, 0⟩).toBits = 0 := by decide +kernel
  rw [numIdct, mkBlock_get, ref32IdctAt, sum, scaled]
  exact (Vector.getElem_replicate n.isLt).symm

theorem inIdctDomain_subnormalBlock (n : Fin 64) : inIdctDomain subnormalBlock[n] = true := by
  revert n
  decide +kernel

theorem patternRat_subnormalBlock_zero : patternRat subnormalBlock[(0 : Fin 64)] = 1 / 2 ^ 149 := by
  have value : F32.ofBits subnormalBlock[(0 : Fin 64)] = ⟨false, 1⟩ := by decide
  rw [patternRat, value]
  simp [F32.toRat, F32.units]

theorem patternRat_subnormalBlock_of_ne {n : Fin 64} (hn : n ≠ 0) : patternRat subnormalBlock[n] = 0 := by
  refine patternRat_of_mag_eq_zero ?_
  revert n
  decide

theorem inverse_subnormalBlock {h : Fin 64 → ℝ}
    (inv : IsInverseDct (fun m => ((patternRat subnormalBlock[m] : ℚ) : ℝ)) h) (n : Fin 64) : h n = 1 / 2 ^ 152 := by
  rw [inverse_of_dc inv (fun m hm => by rw [patternRat_subnormalBlock_of_ne hm, Rat.cast_zero]),
    patternRat_subnormalBlock_zero]
  push_cast
  norm_num

theorem not_idctAcc_subnormalBlock : ¬ IdctAcc .ref32 subnormalBlock := by
  intro acc
  have bound := acc _ (isInverseDct_iff.mpr rfl) 0
  have total : ∑ m : Fin 64, |((patternRat subnormalBlock[m] : ℚ) : ℝ)| = 1 / 2 ^ 149 := by
    rw [Finset.sum_eq_single 0 (fun m _ hm => by rw [patternRat_subnormalBlock_of_ne hm, Rat.cast_zero, abs_zero])
      (fun absent => absurd (Finset.mem_univ _) absent), patternRat_subnormalBlock_zero]
    simp
  have answer : patternRat (numIdct .ref32 subnormalBlock)[(0 : Fin 64)] = 0 := by
    rw [numIdct_subnormalBlock]
    exact patternRat_of_mag_eq_zero (by decide)
  rw [total, answer, inverse_subnormalBlock (isInverseDct_iff.mpr rfl)] at bound
  norm_num at bound

/-- Settles O56: the printed values are evaluated; on `subnormalBlock` the answer 0 is too far from the exact
inverse. -/
theorem ref32MissesAccOnSubnormals : Obligations.Ref32MissesAccOnSubnormals := by
  unfold Obligations.Ref32MissesAccOnSubnormals
  exact ⟨by decide +kernel, by decide +kernel, by decide +kernel, by decide +kernel, inIdctDomain_subnormalBlock,
    numIdct_subnormalBlock, fun _ inv => inverse_subnormalBlock inv, not_idctAcc_subnormalBlock,
    fun acc => not_idctAcc_subnormalBlock (acc.2 _ inIdctDomain_subnormalBlock)⟩

end Sys2Proof.Machine
end

section
/-! PROOFS. Family 43_quant: `QUANT` and `DEQUANT` (spec R193 to R196), and how far the two together move a coefficient
(R199). -/

namespace Sys2Proof.Machine

/-! ### What 24 significant bits hold is kept (R13, R111) -/

/-- Rounding keeps a representable magnitude: no other is at distance 0. -/
theorem flMag_of_representableMag {m : Nat} (rep : RepresentableMag m) : flMag m 0 = m := by
  by_contra moved
  have nearest := (flMag_nearest rep (Ne.symm moved)).1
  omega

/-- The leading 24 bits of a representable magnitude are all of it. -/
theorem RepresentableMag.leading_bits {m : Nat} (rep : RepresentableMag m) :
    m >>> (m.log2 - 23) <<< (m.log2 - 23) = m := by
  rw [Nat.shiftRight_eq_div_pow, Nat.shiftLeft_eq]
  refine Nat.div_mul_cancel ?_
  rcases rep.on_grid_or_lt (m.log2 - 23) with ⟨a, grid⟩ | below
  · exact ⟨a, grid.trans (mul_comm _ _)⟩
  · have short : m.log2 - 23 = 0 := by
      have := log2_lt_of_lt_two_pow (by omega) below
      omega
    rw [short, pow_zero]
    exact one_dvd m

theorem F32.ofBits_toBits {f : F32} (rep : RepresentableMag f.mag) (small : f.mag.log2 < 277) :
    F32.ofBits f.toBits = f := by
  rw [(f.toBits_spec small).2, rep.leading_bits]

theorem F32.ofInt_mag {z : Int} (small : z.natAbs ≤ 2 ^ 24) : (F32.ofInt z).mag = z.natAbs * 2 ^ 149 := by
  rw [F32.ofInt, Nat.shiftLeft_eq]
  exact flMag_of_representableMag (representableMag_of_le small 149)

theorem F32.toRat_ofInt {z : Int} (small : z.natAbs ≤ 2 ^ 24) : (F32.ofInt z).toRat = z := by
  have units : (F32.ofInt z).units = z * 2 ^ 149 := by
    rw [F32.units, F32.ofInt_mag small, F32.ofInt]
    simp only [decide_eq_true_eq]
    split <;> omega
  rw [F32.toRat, units, Int.cast_mul, Int.cast_pow, Int.cast_ofNat, mul_div_cancel_right₀ _ (by positivity)]

/-- `float` of an integer of at most 24 bits is that integer (R13, R195). -/
theorem patternRat_toBits_ofInt {z : Int} (small : z.natAbs ≤ 2 ^ 24) : patternRat (F32.ofInt z).toBits = z := by
  have rep : RepresentableMag (F32.ofInt z).mag := F32.ofInt_mag small ▸ representableMag_of_le small 149
  rw [patternRat, F32.ofBits_toBits rep (log2_lt_of_le (F32.ofInt_mag_le z 24 small) (by norm_num)),
    F32.toRat_ofInt small]

/-! ### Tables and coefficients (R191 to R193) -/

theorem tableOf_pos (t : Table) (n : Fin 64) : 0 < (tableOf t)[n] := by
  revert n
  cases t <;> decide

theorem tableOf_le (t : Table) (n : Fin 64) : (tableOf t)[n] ≤ 2 ^ 7 := by
  revert n
  cases t <;> decide

theorem natAbs_coefficient_mul_le (k : Byte) (t : Table) (n : Fin 64) :
    (k.toInt * (tableOf t)[n]).natAbs ≤ 2 ^ 24 := by
  have coefficient : k.toInt.natAbs ≤ 2 ^ 7 := by
    have := BitVec.le_toInt k
    have := BitVec.toInt_lt (x := k)
    omega
  rw [Int.natAbs_mul, Int.natAbs_natCast]
  exact (Nat.mul_le_mul coefficient (tableOf_le t n)).trans (by norm_num)

/-- The saturated byte holds the saturated value (R193). -/
theorem sat8_toInt (k : Int) : (sat8 k).toInt = max (-128) (min 127 k) := by
  have clamped : clamp k (-128) 127 = max (-128) (min 127 k) := by
    unfold clamp
    split_ifs <;> omega
  rw [sat8, clamped]
  exact BitVec.toInt_ofInt_eq_self (by decide) (by norm_num) (by norm_num)

/-- `rnd` moves a rational by at most one half (R10). -/
theorem abs_rndRat_sub_le (x : Rat) : |(rndRat x : Rat) - x| ≤ 1 / 2 := by
  unfold rndRat
  split
  · rw [← round_eq, abs_sub_comm]
    exact abs_sub_round x
  · rw [← round_eq, Int.cast_neg, neg_sub_comm]
    exact abs_sub_round (-x)

/-! ### The two functions (R193, R195) -/

theorem quant_get_toInt (f : Block Word) (t : Table) (n : Fin 64) :
    (quant f (tableOf t))[n].toInt = max (-128) (min 127 (rndRat (patternRat f[n] / ((tableOf t)[n] : Rat)))) := by
  rw [quant, mkBlock_get, sat8_toInt, F32.rndDivBy_eq_rndRat _ (tableOf_pos t n), patternRat]

theorem patternRat_dequant_get (k : Block Byte) (t : Table) (n : Fin 64) :
    patternRat (dequant k (tableOf t))[n] = (k[n].toInt * (tableOf t)[n] : Int) := by
  rw [dequant, mkBlock_get, patternRat_toBits_ofInt (natAbs_coefficient_mul_le k[n] t n)]

theorem dequant_get_finite (k : Block Byte) (t : Table) (n : Fin 64) :
    f32IsFinite (dequant k (tableOf t))[n] = true :=
  ((inIdctDomain_iff _).mp (dequant_inIdctDomain k t n)).1

theorem dequant_get_of_zero {k : Block Byte} {n : Fin 64} (q : Block Nat) (zero : k[n] = 0) : (dequant k q)[n] = 0 := by
  have positive_zero : (F32.ofInt 0).toBits = 0 := by decide
  rw [dequant, mkBlock_get, zero, BitVec.ofNat_eq_ofNat, BitVec.toInt_zero, zero_mul, positive_zero]

/-! ### The two commands (R194, R196) and the bound of R199 -/

/-- `DEQUANT` has no check: it completes in every state (R196). -/
theorem exec_dequant (s : State) (t : Table) :
    exec (.dequant t) s = .next ({ s with tb := dequant s.qb (tableOf t) }.done []) := rfl

/-- Settles O21: on finite entries the check of `exec_quant` passes, and `quant_get_toInt` says what each entry is. -/
theorem quantQuantises : Obligations.QuantQuantises := by
  unfold Obligations.QuantQuantises
  exact fun s q finite => ⟨_, exec_quant q finite, rfl, quant_get_toInt s.tb q⟩

/-- Settles O22: a product has at most 24 bits, so `float` keeps it. -/
theorem dequantRestores : Obligations.DequantRestores := by
  unfold Obligations.DequantRestores
  refine ⟨decode_encode (i := .dequant .lum) rfl, decode_encode (i := .dequant .chr) rfl, fun s q =>
    ⟨_, exec_dequant s q, rfl, fun n => ⟨dequant_get_finite s.qb q n, patternRat_dequant_get s.qb q n, ?_⟩⟩⟩
  exact dequant_get_of_zero (tableOf q)

/-- Settles O51: without saturation the byte is the rounded quotient, off by at most one half of a table entry. -/
theorem quantDequantError : Obligations.QuantDequantError := by
  unfold Obligations.QuantDequantError
  intro f q n _ lower upper
  have positive : (0 : Rat) < (tableOf q)[n] := Nat.cast_pos.mpr (tableOf_pos q n)
  have unsaturated : (quant f (tableOf q))[n].toInt = rndRat (patternRat f[n] / ((tableOf q)[n] : Rat)) := by
    rw [quant_get_toInt, min_eq_right upper, max_eq_right lower]
  rw [patternRat_dequant_get, unsaturated, Int.cast_mul, Int.cast_natCast]
  generalize ((tableOf q)[n] : Rat) = d at *
  calc |(rndRat (patternRat f[n] / d) : Rat) * d - patternRat f[n]|
      = |((rndRat (patternRat f[n] / d) : Rat) - patternRat f[n] / d) * d| := by
        rw [sub_mul, div_mul_cancel₀ _ positive.ne']
    _ = |(rndRat (patternRat f[n] / d) : Rat) - patternRat f[n] / d| * d := by rw [abs_mul, abs_of_pos positive]
    _ ≤ 1 / 2 * d := mul_le_mul_of_nonneg_right (abs_rndRat_sub_le _) positive.le
    _ = d / 2 := one_div_mul_eq_div 2 d

end Sys2Proof.Machine
end

section
/-! PROOFS. Family 44_zigzag: the permutation of a block (spec R211), its two functions (R214) and the commands `ZZ` and
`UNZZ` (R212, R213). -/

namespace Sys2Proof.Machine

/-! ### The permutation (R211) -/

/-- The second listing of R211 inverts the first. -/
theorem zigzagPosition_zigzagIndex : ∀ k : Fin 64, zigzagPosition[zigzagIndex[k]] = k := by decide

theorem zigzagIndex_zigzagPosition : ∀ n : Fin 64, zigzagIndex[zigzagPosition[n]] = n := by decide

/-! ### The two functions (R214) -/

theorem toZigzag_get (q : Block Byte) (k : Fin 64) : (toZigzag q)[k] = q[zigzagIndex[k]] := mkBlock_get _ k

theorem fromZigzag_get (z : Block Byte) (n : Fin 64) : (fromZigzag z)[n] = z[zigzagPosition[n]] := mkBlock_get _ n

/-- R214 defines `fromZigzag` by the place a byte goes to, the model by the place it comes from. -/
theorem fromZigzag_get_zigzagIndex (z : Block Byte) (k : Fin 64) : (fromZigzag z)[zigzagIndex[k]] = z[k] := by
  simp only [fromZigzag_get, zigzagPosition_zigzagIndex]

theorem fromZigzag_toZigzag (q : Block Byte) : fromZigzag (toZigzag q) = q :=
  block_ext fun n => by simp only [fromZigzag_get, toZigzag_get, zigzagIndex_zigzagPosition]

theorem toZigzag_fromZigzag (z : Block Byte) : toZigzag (fromZigzag z) = z :=
  block_ext fun k => by rw [toZigzag_get, fromZigzag_get_zigzagIndex]

/-! ### Signed coefficients and wire bytes: `u8of` and `sext_8` are readings of the same eight bits -/

theorem byte_toNat_eq_toInt_emod (b : Byte) : b.toNat = (b.toInt % 256).toNat := by
  have below := b.isLt
  rw [BitVec.toInt_eq_toNat_cond]
  split <;> omega

theorem byte_toInt_eq (b : Byte) : b.toInt = if b.toNat < 128 then (b.toNat : Int) else (b.toNat : Int) - 256 := by
  rw [BitVec.toInt_eq_toNat_cond]
  split <;> split <;> omega

/-! ### The two commands (R212, R213) -/

/-- `ZZ` has no check: it completes in every state. -/
theorem exec_zz (s : State) : exec .zz s = .next ({ s with zb := toZigzag s.qb }.done []) := rfl

/-- `UNZZ` has no check: it completes in every state. -/
theorem exec_unzz (s : State) : exec .unzz s = .next ({ s with qb := fromZigzag s.zb }.done []) := rfl

/-- Settles O23: each command stores its function's block and ends with no output. -/
theorem zigzagCommands : Obligations.ZigzagCommands := by
  unfold Obligations.ZigzagCommands
  refine ⟨decode_encode (i := .zz) rfl, decode_encode (i := .unzz) rfl, fun s => ⟨?zz, ?unzz⟩⟩
  case zz => exact ⟨_, exec_zz s, rfl, toZigzag_get s.qb⟩
  case unzz => exact ⟨_, exec_unzz s, rfl, fromZigzag_get_zigzagIndex s.zb⟩

/-- Settles O47: the two listings of R211 are inverse permutations, so the two functions undo each other. -/
theorem zigzagInverse : Obligations.ZigzagInverse := by
  unfold Obligations.ZigzagInverse
  refine ⟨fun q k => ?wire, fun z k => ?signed, fromZigzag_toZigzag, toZigzag_fromZigzag⟩
  case wire => rw [toZigzag_get, byte_toNat_eq_toInt_emod]
  case signed => rw [fromZigzag_get_zigzagIndex, byte_toInt_eq]

end Sys2Proof.Machine
end

section
/-! PROOFS. Family 45_mrle: the run-length code (spec R220 to R224) and the commands `RLEENC` and `RLEDEC` (R226,
R227). -/

namespace Sys2Proof.Machine

/-! ### The encoder takes the longest run (R221) -/

/-- The same byte again: the run grows, below the cap. -/
theorem mrleRun_cons_same {v : Byte} {r : Nat} (l : List Byte) (below : r < 255) :
    mrleRun v r (v :: l) = mrleRun v (r + 1) l := by
  rw [mrleRun, if_pos ⟨rfl, below⟩]

/-- At the cap, or before another byte or the end, the run's item is emitted and a new one begins. -/
theorem mrleRun_stop {v : Byte} {r : Nat} {l : List Byte} (stop : r = 255 ∨ l.head? ≠ some v) :
    mrleRun v r l = mrleItem v r ++ mrleEnc l := by
  cases l with
  | nil => rw [mrleRun, mrleEnc, List.append_nil]
  | cons b l =>
    have ends : ¬ (b = v ∧ r < 255) := by
      rintro ⟨rfl, below⟩
      exact stop.elim below.ne fun other => other rfl
    rw [mrleRun, if_neg ends, mrleEnc]

theorem mrleRun_replicate {v : Byte} {r k : Nat} (l : List Byte) (cap : r + k ≤ 255) :
    mrleRun v r (List.replicate k v ++ l) = mrleRun v (r + k) l := by
  induction k generalizing r with
  | zero => rfl
  | succ k ih =>
    rw [List.replicate_succ, List.cons_append, mrleRun_cons_same _ (by omega), ih (by omega), Nat.add_assoc,
      Nat.add_comm 1]

/-- A longest run, capped at 255, is coded as one item. -/
theorem mrleEnc_replicate_append {v : Byte} {r : Nat} {l : List Byte} (pos : 1 ≤ r) (cap : r ≤ 255)
    (longest : r = 255 ∨ l.head? ≠ some v) : mrleEnc (List.replicate r v ++ l) = mrleItem v r ++ mrleEnc l := by
  obtain ⟨k, rfl⟩ := Nat.exists_eq_add_of_le pos
  calc mrleEnc (List.replicate (1 + k) v ++ l)
      = mrleRun v 1 (List.replicate k v ++ l) := by
        rw [Nat.add_comm, List.replicate_succ, List.cons_append, mrleEnc]
    _ = mrleRun v (1 + k) l := mrleRun_replicate l cap
    _ = mrleItem v (1 + k) ++ mrleEnc l := mrleRun_stop longest

/-- Settles O48: a longest run is one item, and `mrleEnc_length` bounds the code. -/
theorem mrleEncodesLongestRuns : Obligations.MrleEncodesLongestRuns := by
  unfold Obligations.MrleEncodesLongestRuns
  exact ⟨rfl, fun v r l pos cap longest => mrleEnc_replicate_append pos cap longest, mrleEnc_length⟩

/-! ### The decoder (R224) -/

/-- An escape with fewer than two bytes after it is cut short. -/
theorem mrleDec_cut {l : List Byte} (short : l.length < 2) : mrleDec (0 :: l) = none := by
  match l, short with
  | [], _ | [_], _ => simp [mrleDec]

/-- Three bytes give at most 255. -/
theorem mrleDec_length {z d : List Byte} (dec : mrleDec z = some d) : d.length ≤ 85 * z.length := by
  induction z using mrleDec.induct generalizing d with
  | case1 =>
    obtain rfl : d = [] := Option.some.inj (dec.symm.trans mrleDec_nil)
    exact le_rfl
  | case2 b l literal ih =>
    rw [mrleDec_literal b l literal, Option.map_eq_some_iff] at dec
    obtain ⟨e, tail, rfl⟩ := dec
    have := ih tail
    simp only [List.length_cons]
    omega
  | case3 b escape n v l ih =>
    rw [not_not.mp escape, mrleDec_triple, Option.map_eq_some_iff] at dec
    obtain ⟨e, tail, rfl⟩ := dec
    have := ih tail
    have := n.isLt
    simp only [List.length_append, List.length_replicate, List.length_cons]
    omega
  | case4 b l escape cut =>
    have short : l.length < 2 := by
      match l, cut with
      | [], _ | [_], _ => simp
      | n :: v :: l, cut => exact (cut n v l rfl).elim
    rw [not_not.mp escape, mrleDec_cut short] at dec
    cases dec

/-! ### The round trip (R222) -/

/-- An item stands for the run it was written for (R220, R221). -/
theorem mrleDec_mrleItem_append {v : Byte} {r : Nat} (l : List Byte) (pos : 1 ≤ r) (cap : r ≤ 255) :
    mrleDec (mrleItem v r ++ l) = (mrleDec l).map (List.replicate r v ++ ·) := by
  unfold mrleItem
  split
  case isTrue =>
    have count : (BitVec.ofNat 8 r).toNat = r := Nat.mod_eq_of_lt (Nat.lt_succ_of_le cap)
    rw [List.cons_append, List.cons_append, List.cons_append, List.nil_append, mrleDec_triple, count]
  case isFalse single =>
    obtain ⟨short, literal⟩ := not_or.mp single
    obtain rfl : r = 1 := by omega
    exact mrleDec_literal v l literal

theorem mrleDec_mrleRun {v : Byte} {r : Nat} (x : List Byte) (pos : 1 ≤ r) (cap : r ≤ 255) :
    mrleDec (mrleRun v r x) = some (List.replicate r v ++ x) := by
  induction x generalizing v r with
  | nil => simpa only [mrleRun, mrleDec_nil, List.append_nil, Option.map_some] using mrleDec_mrleItem_append [] pos cap
  | cons b x ih =>
    rw [mrleRun]
    split
    case isTrue grows =>
      obtain ⟨rfl, below⟩ := grows
      rw [ih (Nat.le_add_left 1 r) below, List.replicate_succ', List.append_assoc, List.singleton_append]
    case isFalse => rw [mrleDec_mrleItem_append _ pos cap, ih le_rfl (by decide)]; rfl

theorem mrleDec_mrleEnc (x : List Byte) : mrleDec (mrleEnc x) = some x := by
  cases x with
  | nil => exact mrleDec_nil
  | cons b x => exact mrleDec_mrleRun x le_rfl (by decide)

/-- Settles O49: every item decodes to the run it was written for; the decoder's cases and its length bound are the
lemmas above. -/
theorem mrleRoundTrip : Obligations.MrleRoundTrip := by
  unfold Obligations.MrleRoundTrip
  exact ⟨mrleDec_mrleEnc, rfl, mrleDec_nil, fun v l literal => mrleDec_literal v l literal, mrleDec_triple,
    mrleDec_cut (by decide), fun n => mrleDec_cut Nat.one_lt_two, fun z d => mrleDec_length⟩

/-! ### The two commands (R226, R227) -/

/-- `RLEENC` where its checks pass (R226). -/
theorem exec_rleenc {s : State} (fits : s.inFits) (cap : (mrleEnc s.input).length ≤ s.cfg.outCap) :
    exec .rleenc s = .next (s.done (mrleEnc s.input)) := by
  change execRleenc s = _
  rw [execRleenc, if_neg (not_not.mpr fits)]
  exact if_neg (not_lt.mpr cap)

/-- `RLEDEC` where its checks pass (R227). -/
theorem exec_rledec {s : State} {d : List Byte} (fits : s.inFits) (dec : mrleDec s.input = some d)
    (cap : d.length ≤ s.cfg.outCap) : exec .rledec s = .next (s.done d) := by
  change execRledec s = _
  rw [execRledec, if_neg (not_not.mpr fits), dec]
  exact if_neg (not_lt.mpr cap)

/-- The host finds the output of a completed command in `OUTBUF`: `OUT_LEN` holds every length a build allows (R8,
R37). -/
theorem State.done_wrote {s : State} {out : List Byte} (legal : s.cfg.Legal) (cap : out.length ≤ s.cfg.outCap) :
    Wrote (s.done out) out := by
  obtain ⟨_, _, _, outMax, _⟩ := legal
  refine ⟨toNat_ofNat_of_le cap outMax, fun a ha => ?_⟩
  rw [State.done_outByte _ _ _ ha, List.getElem?_eq_getElem ha]

/-- Settles O24: the checks of `exec_rleenc` pass, and `State.done` writes the code. -/
theorem rleencWritesCode : Obligations.RleencWritesCode := by
  unfold Obligations.RleencWritesCode
  exact fun s legal fits cap => ⟨_, exec_rleenc fits cap, rfl, State.done_wrote legal cap⟩

/-- Settles O25: the checks of `exec_rledec` pass, and `State.done` writes the bytes. -/
theorem rledecWritesBytes : Obligations.RledecWritesBytes := by
  unfold Obligations.RledecWritesBytes
  exact fun s d legal fits dec cap => ⟨_, exec_rledec fits dec cap, rfl, State.done_wrote legal cap⟩

end Sys2Proof.Machine
end

section
/-! PROOFS. Family 46_still: the still-frame stream (spec R246, R252) and the closed loop of key frames (R250). -/

namespace Sys2Proof.Machine

/-! ### The still-frame stream (R246) -/

theorem keyStream_length (w h : Nat) (coef : List Byte) :
    (keyStream w h coef).length = 8 + (mrleEnc coef).length := by
  simp only [keyStream, List.length_append, le32_length]

theorem keyStream_drop (w h : Nat) (coef : List Byte) : (keyStream w h coef).drop 8 = mrleEnc coef := rfl

theorem rd32_keyStream_width {w : Nat} (hw : w < 2 ^ 32) (h : Nat) (coef : List Byte) :
    rd32 (keyStream w h coef) 0 = w := by
  rw [keyStream, List.append_assoc]
  exact rd32_le32 w hw _

theorem rd32_keyStream_height (w : Nat) {h : Nat} (hh : h < 2 ^ 32) (coef : List Byte) :
    rd32 (keyStream w h coef) 4 = h :=
  rd32_le32 h hh (mrleEnc coef)

/-- The payload of a stream is the coefficient region it codes (R222, R254). -/
theorem keyPayload_keyStream {w h : Nat} {coef : List Byte} (len : coef.length = lenCoef w h) :
    keyPayload w h ((keyStream w h coef).drop 8) = .ok coef := by
  rw [keyStream_drop]
  exact keyPayload_ok.mpr ⟨mrleDec_mrleEnc coef, len⟩

/-- `EMITKEY` where its checks pass (R252). -/
theorem exec_emitkey {s : State} (stage : s.fstage.isTransformed = true) (kind : s.fkind = .key)
    (cap : (keyStream s.W s.H s.coef).length ≤ s.cfg.outCap) :
    exec .emitkey s = .next ({ s with fstage := .serialized }.done (keyStream s.W s.H s.coef)) := by
  change execEmitkey s = _
  rw [execEmitkey, if_neg (not_not.mpr stage), if_neg (not_not.mpr kind)]
  exact if_neg (not_lt.mpr cap)

/-- Settles O27: the checks of `exec_emitkey` pass, and `State.done` writes the stream. -/
theorem emitkeyWritesStream : Obligations.EmitkeyWritesStream := by
  unfold Obligations.EmitkeyWritesStream
  intro s legal stage kind cap
  have hcap : (keyStream s.W s.H s.coef).length ≤ s.cfg.outCap := by rwa [keyStream_length]
  exact ⟨_, exec_emitkey (s.fstage.isTransformed_iff.mpr stage) kind hcap, rfl, State.done_wrote legal hcap⟩

/-! ### A decoder fed with an output (R407) -/

/-- An engine fed with an output has exactly that output as its operand. -/
theorem FedWith.input {d u : State} {out : List Byte} (fed : FedWith d u) (wrote : Wrote u out) : d.input = out := by
  obtain ⟨lens, -, copied⟩ := fed
  obtain ⟨outLen, written⟩ := wrote
  have inLen : d.inLen.toNat = out.length := by rw [lens, outLen]
  have operand : d.input.length = out.length := by rw [State.input_length, inLen]
  refine List.ext_getElem? fun a => ?_
  by_cases ha : a < out.length
  · rw [State.input, State.inBytes_getElem? _ _ _ _ (inLen ▸ ha), Nat.zero_add, copied a (outLen ▸ ha),
      written a ha]
  · rw [List.getElem?_eq_none (by omega), List.getElem?_eq_none (by omega)]

/-- `DECKEY` accepts a stream of a whole coefficient region, and restores its planes (R254). -/
theorem exec_deckey_of_fed {d u : State} {w h : Word} {coef : List Byte} (fed : FedWith d u)
    (wrote : Wrote u (keyStream w.toNat h.toNat coef)) (dims : legalDims d.cfg w.toNat h.toNat)
    (len : coef.length = lenCoef w.toNat h.toNat) :
    exec .deckey d = .next ({ d.setDims w h with
      chopen := false, ref := keyPlanes d.cfg.num w.toNat h.toNat coef, refv := true }.done []) := by
  have operand : d.input = keyStream w.toNat h.toNat coef := fed.input wrote
  have header : 8 ≤ d.inLen.toNat := by
    rw [← State.input_length, operand, keyStream_length]
    omega
  obtain ⟨-, fits, -⟩ := fed
  have run := exec_deckey (s := d) (p := coef) fits header (w := w.toNat) (h := h.toNat)
    (by rw [operand, rd32_keyStream_width w.isLt]) (by rw [operand, rd32_keyStream_height _ h.isLt]) dims
    (by rw [operand, keyPayload_keyStream len])
  simpa only [BitVec.ofNat_toNat, BitVec.setWidth_eq] using run

/-- Settles O57: `EMITKEY` writes the dimensions and the `COEF` that `XFKEY` left, `DECKEY` reads both back, and each of
`XFKEY` and `DECKEY` makes its reference with `keyPlanes` of them. -/
theorem keyClosedLoop : Obligations.KeyClosedLoop := by
  unfold Obligations.KeyClosedLoop
  intro s t u d legal stage hxfkey hemitkey ok num dims fed
  obtain ⟨t', ht', frame, hcoef, href⟩ := xfkey_codes s stage
  obtain rfl : t' = t := Host.Outcome.next.inj (ht'.symm.trans hxfkey)
  have hcfg : t'.cfg = s.cfg := by rw [frame]
  have hfrmW : t'.frmW = s.frmW := by rw [frame]
  have hfrmH : t'.frmH = s.frmH := by rw [frame]
  have hW : t'.W = s.W := congrArg BitVec.toNat hfrmW
  have hH : t'.H = s.H := congrArg BitVec.toNat hfrmH
  have hdims : legalDims d.cfg t'.W t'.H := by rwa [hW, hH]
  have len : t'.coef.length = lenCoef t'.W t'.H := by rw [hcoef, coefOf_length, hW, hH]
  cases exec_completes hemitkey ok with
  | emitkey _ _ cap =>
    have wrote := State.done_wrote (s := { t' with fstage := .serialized }) (hcfg ▸ legal) cap
    refine ⟨_, exec_deckey_of_fed (w := t'.frmW) (h := t'.frmH) fed wrote hdims len, rfl, rfl, hfrmW, hfrmH, ?_⟩
    rw [href, ← num, ← hW, ← hH]
    rfl

end Sys2Proof.Machine
end

section
/-! PROOFS. Family 46_still: `XFP` (spec R306), and the frames a predicted payload (R302, R312) or a chain (R344) gives,
sample by sample. -/

namespace Sys2Proof.Machine

/-! ### `XFP` (R306) -/

theorem reconPlanes_get (num : NumSel) (w h : Nat) (pr : PerCh Plane) (z : List Byte) (c : Ch) :
    (reconPlanes num w h pr z).get c = reconP (pr.get c) ((planesOfCoef num w h z).get c) :=
  PerCh.of_get _ c

/-- What `XFP` leaves: the vectors of the search, what they predict from the old reference, what remains, its code, and
the reference rebuilt from prediction and code. -/
theorem xfp_codes (s : State) (stage : s.fstage = .raw) (ref : s.refv = true) :
    ∃ t, exec .xfp s = .next t ∧
      t = { s with
        mv := t.mv, pred := t.pred, res := t.res, coef := t.coef, ref := t.ref
        mvv := ⟨true, true, true⟩, predv := ⟨true, true, true⟩, resv := ⟨true, true, true⟩
        fstage := .transformed, fkind := .predicted, err := .ok, outLen := 0
        outbuf := t.outbuf, outGen := t.outGen } ∧
      t.mv = PerCh.of s.fieldOf ∧
      t.pred = PerCh.of (fun c => predict c (s.ref.get c) (t.mv.get c) (planeW s.W c) (planeH s.H c)) ∧
      t.res = PerCh.of (fun c => residual (s.cur.get c) (t.pred.get c)) ∧
      t.coef = coefOf s.cfg.num s.W s.H (fun c => resAt (t.res.get c) (planeW s.W c)) false ∧
      t.ref = reconPlanes s.cfg.num s.W s.H t.pred t.coef := by
  refine ⟨_, exec_xfp stage ref rfl rfl rfl, rfl, rfl, ?_, rfl, rfl, rfl⟩
  simp only [State.done_pred, State.done_mv, PerCh.of_get]

/-- Settles O32: `xfp_codes` channel by channel; `coefOf_getElem?` places each coded block, `reconPlanes_sampleAt` says
what the reference holds. -/
theorem xfpCodesAndReconstructs : Obligations.XfpCodesAndReconstructs := by
  unfold Obligations.XfpCodesAndReconstructs
  intro s stage ref
  obtain ⟨t, ht, frame, hmv, hpred, hres, hcoef, href⟩ := xfp_codes s stage ref
  have predLength : ∀ c, (t.pred.get c).length = planeW s.W c * planeH s.H c := fun c => by
    rw [hpred, PerCh.of_get, predict_length]
  refine ⟨t, ht, frame, hcoef, fun c => ⟨?_, ?_, ?_, ?_, fun bx bY j hx hy => ?_, fun x y hx hy => ?_⟩⟩
  · rw [hmv, PerCh.of_get]
    rfl
  · rw [hpred, PerCh.of_get]
  · rw [hres, PerCh.of_get]
  · rw [href, reconPlanes_get]
  · rw [hcoef]
    exact coefOf_getElem? _ _ _ _ _ c bx bY j hx hy
  · rw [href]
    exact reconPlanes_sampleAt _ _ _ _ _ c x y (predLength c) hx hy

/-! ### Predicted payloads (R312) -/

theorem fieldOk_iff {c : Ch} {pw ph r : Nat} {mv : List MVec} :
    fieldOk c pw ph r mv = true ↔
      ∀ m < mbCount c pw ph, vectorOk pw ph r (macroblock c pw ph m) (vectorAt mv m) := by
  simp only [fieldOk, List.all_eq_true, List.mem_range, decide_eq_true_eq]

/-- The planes predicted from the reference of `s` by the vectors of a decoded payload `p`. -/
def State.payloadPrediction (s : State) (p : List Byte) : PerCh Plane :=
  PerCh.of fun c => predict c (s.ref.get c) ((fieldsOf s.W s.H p).get c) (planeW s.W c) (planeH s.H c)

/-- The reference a decoded payload `p` gives: its prediction plus its decoded residual (R312). -/
def State.payloadPlanes (s : State) (p : List Byte) : PerCh Plane :=
  reconPlanes s.cfg.num s.W s.H (s.payloadPrediction p) (slice p 0 (lenCoef s.W s.H))

/-- A payload of the right length whose vectors pass the check is accepted (R312). -/
theorem State.decodePredicted_eq_payloadPlanes {s : State} {z p : List Byte} (dec : mrleDec z = some p)
    (len : p.length = lenCoef s.W s.H + lenVec s.W s.H)
    (vectors : ∀ c : Ch, ∀ m < mbCount c (planeW s.W c) (planeH s.H c),
      vectorOk (planeW s.W c) (planeH s.H c) s.R (macroblock c (planeW s.W c) (planeH s.H c) m)
        (payloadVector s.W s.H p c m)) :
    s.decodePredicted z = .ok (s.payloadPlanes p) := by
  refine State.decodePredicted_ok.mpr ⟨p, dec, len, fun c => fieldOk_iff.mpr fun m hm => ?_, rfl⟩
  rw [vectorAt_fieldsOf _ _ _ _ _ len hm]
  exact vectors c m hm

theorem State.payloadPrediction_length (s : State) (p : List Byte) (c : Ch) :
    ((s.payloadPrediction p).get c).length = planeW s.W c * planeH s.H c := by
  rw [State.payloadPrediction, PerCh.of_get, predict_length]

theorem State.payloadPlanes_fit (s : State) (p : List Byte) : PlanesFit s.W s.H (s.payloadPlanes p) :=
  fun c => reconPlanes_length _ _ _ _ _ c (s.payloadPrediction_length p c)

theorem State.payloadPlanes_get (s : State) (p : List Byte) (c : Ch) :
    (s.payloadPlanes p).get c =
      reconP (predict c (s.ref.get c) ((fieldsOf s.W s.H p).get c) (planeW s.W c) (planeH s.H c))
        ((planesOfCoef s.cfg.num s.W s.H (slice p 0 (lenCoef s.W s.H))).get c) := by
  rw [State.payloadPlanes, reconPlanes_get, State.payloadPrediction, PerCh.of_get]

/-- A predicted sample is the reference sample the vector of its macroblock points at (R290, R304). -/
theorem State.payloadPrediction_sampleAt {s : State} {p : List Byte} (len : p.length = lenCoef s.W s.H + lenVec s.W s.H)
    {c : Ch} {x y : Nat} (hx : x < planeW s.W c) (hy : y < planeH s.H c) :
    sampleAt ((s.payloadPrediction p).get c) (planeW s.W c) x y =
      sampleZ (s.ref.get c) (planeW s.W c)
        (x + (payloadVector s.W s.H p c (mbIndexAt c (planeW s.W c) x y)).dx.toInt)
        (y + (payloadVector s.W s.H p c (mbIndexAt c (planeW s.W c) x y)).dy.toInt) := by
  rw [State.payloadPrediction, PerCh.of_get, predict, sampleAt_planeOf _ _ _ _ _ hx hy,
    vectorAt_fieldsOf _ _ _ _ _ len (mbIndexAt_lt c _ _ x y hx hy)]

/-- A sample of the new reference: predicted plus decoded residual, clamped (R302, R312). -/
theorem State.payloadPlanes_sampleAt {s : State} {p : List Byte} (len : p.length = lenCoef s.W s.H + lenVec s.W s.H)
    {c : Ch} {x y : Nat} (hx : x < planeW s.W c) (hy : y < planeH s.H c) :
    let v := payloadVector s.W s.H p c (mbIndexAt c (planeW s.W c) x y)
    sampleAt ((s.payloadPlanes p).get c) (planeW s.W c) x y =
      clampByte ((sampleZ (s.ref.get c) (planeW s.W c) (x + v.dx.toInt) (y + v.dy.toInt)).toNat +
        decodedAt s.cfg.num s.W s.H p c x y) := by
  rw [State.payloadPlanes, reconPlanes_sampleAt _ _ _ _ _ c x y (s.payloadPrediction_length p c) hx hy, sampleInt,
    State.payloadPrediction_sampleAt len hx hy, decodedAt_slice _ _ _ _ _ _ _ hx hy]

/-! ### `CHNEXT` (R344) -/

/-- `CHNEXT` where its checks pass and the frame's slice is accepted. -/
theorem exec_chnext {s : State} {r : PerCh Plane} (opened : s.chopen = true) (fits : s.inFits)
    (idx : s.chdIdx.toNat < s.chdCount.toNat) (len : s.chdOff.toNat + s.nextLen ≤ s.inLen.toNat)
    (dec : s.decodeNext (s.inBytes s.chdOff.toNat s.nextLen) = .ok r) :
    exec .chnext s = .next ({ s with
      ref := r, refv := true, chdIdx := s.chdIdx + 1
      chdOff := BitVec.ofNat 32 (s.chdOff.toNat + s.nextLen) }.done []) := by
  change execChnext s = _
  rw [execChnext, if_neg (not_not.mpr opened), if_neg (not_not.mpr fits), if_neg (not_le.mpr idx),
    if_neg (not_lt.mpr len), dec]

theorem State.nextLen_eq {s : State} {len : Nat} (h : s.chlen[s.chdIdx.toNat]?.map BitVec.toNat = some len) :
    s.nextLen = len := by
  obtain ⟨n, hn, rfl⟩ := Option.map_eq_some_iff.mp h
  rw [State.nextLen, List.getD, hn, Option.getD_some]

/-- A count below another word's value has room to go up by 1. -/
theorem toNat_add_one_of_lt {a b : Word} (h : a.toNat < b.toNat) : (a + 1).toNat = a.toNat + 1 := by
  have := b.isLt
  rw [BitVec.toNat_add]
  exact Nat.mod_eq_of_lt (show a.toNat + 1 < 2 ^ 32 by omega)

/-- Settles O39: frame 0 leaves `keyPlanes` of its payload, a later frame `payloadPlanes` of its own, and both are known
sample by sample. -/
theorem chnextDecodesNextFrame : Obligations.ChnextDecodesNextFrame := by
  unfold Obligations.ChnextDecodesNextFrame
  intro s len z p opened fits idx hlen inside hz
  have hnext : s.nextLen = len := State.nextLen_eq hlen
  have hslice : s.inBytes s.chdOff.toNat s.nextLen = z := by rw [hnext, hz]; rfl
  have hinside : s.chdOff.toNat + s.nextLen ≤ s.inLen.toNat := hnext ▸ inside
  have hoff : (BitVec.ofNat 32 (s.chdOff.toNat + s.nextLen)).toNat = s.chdOff.toNat + len := by
    have := s.inLen.isLt
    rw [hnext]
    exact toNat_ofNat_of_le inside (by omega)
  refine ⟨fun first header hw hh dec plen => ?_, fun later ref dec plen vectors => ?_⟩
  · have accepted : s.decodeNext z = .ok (keyPlanes s.cfg.num s.W s.H p) :=
      State.decodeNext_ok.mpr (.inl ⟨first, by simpa [hz] using header, hw, hh, p, dec, plen, rfl⟩)
    refine ⟨_, exec_chnext opened fits idx hinside (hslice ▸ accepted), ?_, hoff, fun c => keyPlanes_length ..,
      fun c x y => keyPlanes_sampleAt _ _ _ _ c x y⟩
    rw [first]
    rfl
  · have accepted : s.decodeNext z = .ok (s.payloadPlanes p) :=
      State.decodeNext_ok.mpr (.inr ⟨later, ref, State.decodePredicted_eq_payloadPlanes dec plen vectors⟩)
    refine ⟨_, exec_chnext opened fits idx hinside (hslice ▸ accepted), ?_, toNat_add_one_of_lt idx, hoff,
      s.payloadPlanes_fit p, fun c => ⟨s.payloadPlanes_get p c, fun x y => State.payloadPlanes_sampleAt plen⟩⟩
    rw [← ref]
    rfl

end Sys2Proof.Machine
end

section
/-! PROOFS. Family 47_motion_est: the exhaustive search (spec R272 to R275, R280) and `MEST` (R276, R278). -/

namespace Sys2Proof.Machine

/-! ### The candidates in scan order (R274) -/

/-- The model casts the list of counts before it maps; here the cast is part of the map. -/
theorem offsets_eq (r : Nat) : offsets r = (List.range (2 * r)).map fun k : Nat => (k : Int) - r := by
  simp [offsets, ← List.map_eq_flatMap]

theorem mem_offsets_iff {r : Nat} {u : Int} : u ∈ offsets r ↔ -(r : Int) ≤ u ∧ u < r := by
  refine ⟨mem_offsets, fun ⟨hlo, hhi⟩ => ?_⟩
  simp only [offsets_eq, List.mem_map, List.mem_range]
  exact ⟨(u + r).toNat, by omega, by omega⟩

theorem mem_candidates_iff {r : Nat} {d : Int × Int} : d ∈ candidates r ↔ d.1 ∈ offsets r ∧ d.2 ∈ offsets r := by
  refine ⟨mem_candidates, fun ⟨hu, hv⟩ => ?_⟩
  simp only [candidates, List.mem_flatMap, List.mem_map]
  exact ⟨d.1, hu, d.2, hv, rfl⟩

/-- `d` is scanned before `e`: the first coordinate is the outer one, both ascend (R274). -/
def ScannedBefore (d e : Int × Int) : Prop := d.1 < e.1 ∨ (d.1 = e.1 ∧ d.2 < e.2)

theorem ScannedBefore.irrefl (d : Int × Int) : ¬ ScannedBefore d d := by
  unfold ScannedBefore
  omega

theorem ScannedBefore.asymm {d e : Int × Int} (h : ScannedBefore d e) : ¬ ScannedBefore e d := by
  unfold ScannedBefore at *
  omega

theorem ScannedBefore.trichotomy (d e : Int × Int) : ScannedBefore d e ∨ d = e ∨ ScannedBefore e d := by
  unfold ScannedBefore
  rw [Prod.ext_iff]
  omega

theorem offsets_ascend (r : Nat) : (offsets r).Pairwise (· < ·) := by
  rw [offsets_eq]
  exact List.pairwise_map.mpr (List.pairwise_lt_range.imp fun h => by omega)

/-- The list of candidates is in scan order. -/
theorem candidates_pairwise (r : Nat) : (candidates r).Pairwise ScannedBefore := by
  refine List.pairwise_flatMap.mpr ⟨fun u _ => ?_, (offsets_ascend r).imp fun {u u'} hlt => ?_⟩
  · exact List.pairwise_map.mpr ((offsets_ascend r).imp fun hlt => .inr ⟨rfl, hlt⟩)
  · simp only [List.mem_map]
    rintro _ ⟨v, -, rfl⟩ _ ⟨v', -, rfl⟩
    exact .inl hlt

/-- In a list in scan order, what is scanned before an entry stands in front of it. -/
theorem mem_of_scannedBefore {before after : List (Int × Int)} {d e : Int × Int}
    (order : (before ++ d :: after).Pairwise ScannedBefore) (he : e ∈ before ++ d :: after)
    (h : ScannedBefore e d) : e ∈ before := by
  obtain ⟨-, tail, -⟩ := List.pairwise_append.mp order
  rcases List.mem_append.mp he with hbefore | htail
  · exact hbefore
  · rcases List.mem_cons.mp htail with rfl | hafter
    · exact absurd h (ScannedBefore.irrefl e)
    · exact absurd (List.rel_of_pairwise_cons tail hafter) h.asymm

/-! ### What the scan keeps (R274) -/

section Search

variable (cu rf : Plane) (pw ph : Nat) (b : Macroblock)

/-- `best` is what the candidates scanned so far leave: a least cost, the zero offset on ties, else the candidate that
came first. -/
structure FirstBest (scanned : List (Int × Int)) (best : Best) : Prop where
  cost : best.2 = sad cu rf pw b best.1.1 best.1.2
  le_zero : best.2 ≤ sad cu rf pw b 0 0
  le : ∀ d ∈ scanned, adm pw ph b d.1 d.2 → best.2 ≤ sad cu rf pw b d.1 d.2
  first : best.1 ≠ (0, 0) → best.2 < sad cu rf pw b 0 0 ∧ adm pw ph b best.1.1 best.1.2 ∧
    ∃ before after, scanned = before ++ best.1 :: after ∧
      ∀ d ∈ before, adm pw ph b d.1 d.2 → best.2 < sad cu rf pw b d.1 d.2

variable {cu rf pw ph b}

/-- A candidate that is inadmissible or not better leaves the best as it is. -/
theorem FirstBest.keep {scanned : List (Int × Int)} {best : Best} (h : FirstBest cu rf pw ph b scanned best)
    {d : Int × Int} (worse : adm pw ph b d.1 d.2 → best.2 ≤ sad cu rf pw b d.1 d.2) :
    FirstBest cu rf pw ph b (scanned ++ [d]) best where
  cost := h.cost
  le_zero := h.le_zero
  le e he := by
    rcases List.mem_append.mp he with hold | hnew
    · exact h.le e hold
    · rwa [List.mem_singleton.mp hnew]
  first hne := by
    obtain ⟨lt, hadm, before, after, rfl, hbefore⟩ := h.first hne
    exact ⟨lt, hadm, before, after ++ [d], by simp, hbefore⟩

/-- A candidate that is admissible and strictly better takes its place. -/
theorem FirstBest.replace {scanned : List (Int × Int)} {best : Best} (h : FirstBest cu rf pw ph b scanned best)
    {d : Int × Int} (hadm : adm pw ph b d.1 d.2) (better : sad cu rf pw b d.1 d.2 < best.2) :
    FirstBest cu rf pw ph b (scanned ++ [d]) (d, sad cu rf pw b d.1 d.2) where
  cost := rfl
  le_zero := better.le.trans h.le_zero
  le e he eadm := by
    rcases List.mem_append.mp he with hold | hnew
    · exact better.le.trans (h.le e hold eadm)
    · rw [List.mem_singleton.mp hnew]
  first _ := ⟨better.trans_le h.le_zero, hadm, scanned, [], rfl, fun e he eadm => better.trans_le (h.le e he eadm)⟩

theorem FirstBest.tryOffset {scanned : List (Int × Int)} {best : Best} (h : FirstBest cu rf pw ph b scanned best)
    (d : Int × Int) : FirstBest cu rf pw ph b (scanned ++ [d]) (tryOffset cu rf pw ph b best d) := by
  unfold Machine.tryOffset
  split
  · next hadm =>
    dsimp only
    split
    · next better => exact h.replace hadm better
    · next worse => exact h.keep fun _ => not_lt.mp worse
  · next inadmissible => exact h.keep fun hadm => absurd hadm inadmissible

theorem FirstBest.foldl {scanned : List (Int × Int)} {best : Best} (h : FirstBest cu rf pw ph b scanned best)
    (l : List (Int × Int)) :
    FirstBest cu rf pw ph b (scanned ++ l) (l.foldl (Machine.tryOffset cu rf pw ph b) best) := by
  induction l generalizing scanned best with
  | nil => simpa using h
  | cons d l ih => simpa using ih (h.tryOffset d)

/-- The search leaves the first best of all candidates; the early exit does too, because no cost is below 0. -/
theorem bestOffset_firstBest (cu rf : Plane) (pw ph r : Nat) (b : Macroblock) :
    FirstBest cu rf pw ph b (candidates r) (bestOffset cu rf pw ph r b) := by
  unfold bestOffset
  dsimp only
  split
  · next zero => exact ⟨zero.symm, Nat.zero_le _, fun _ _ _ => Nat.zero_le _, fun hne => absurd rfl hne⟩
  · have start : FirstBest cu rf pw ph b [] ((0, 0), sad cu rf pw b 0 0) :=
      ⟨rfl, le_rfl, nofun, fun hne => absurd rfl hne⟩
    exact start.foldl (candidates r)

end Search

/-- Settles O53: the search leaves the first best of the candidates, which stand in scan order. -/
theorem searchFindsFirstBest : Obligations.SearchFindsFirstBest := by
  unfold Obligations.SearchFindsFirstBest
  intro cu rf pw ph r b best
  have found : FirstBest cu rf pw ph b (candidates r) best := bestOffset_firstBest cu rf pw ph r b
  have candidate : ∀ u v : Int, -(r : Int) ≤ u → u < r → -(r : Int) ≤ v → v < r → (u, v) ∈ candidates r :=
    fun u v ulo uhi vlo vhi => mem_candidates_iff.mpr ⟨mem_offsets_iff.mpr ⟨ulo, uhi⟩, mem_offsets_iff.mpr ⟨vlo, vhi⟩⟩
  refine ⟨found.cost, found.le_zero, fun u v ulo uhi vlo vhi => found.le _ (candidate u v ulo uhi vlo vhi),
    fun hne => ?_⟩
  obtain ⟨lt, hadm, before, after, around, hbefore⟩ := found.first hne
  obtain ⟨hu, hv⟩ := mem_candidates_iff.mp (around ▸ List.mem_append_right before List.mem_cons_self)
  obtain ⟨ulo, uhi⟩ := mem_offsets_iff.mp hu
  obtain ⟨vlo, vhi⟩ := mem_offsets_iff.mp hv
  refine ⟨lt, hadm, ulo, uhi, vlo, vhi, fun u v ulo uhi vlo vhi uvadm earlier => hbefore (u, v) ?_ uvadm⟩
  exact mem_of_scannedBefore (around ▸ candidates_pairwise r) (around ▸ candidate u v ulo uhi vlo vhi) earlier

/-! ### A shift is recovered (R280) -/

/-- An offset under which every sample meets its equal costs 0 (R272). -/
theorem sad_eq_zero {cu rf : Plane} {pw : Nat} {b : Macroblock} {dx dy : Int}
    (shift : ∀ i j : Nat, i < b.w → j < b.h →
      sampleAt cu pw (b.x + i) (b.y + j) = sampleZ rf pw (b.x + i + dx) (b.y + j + dy)) :
    sad cu rf pw b dx dy = 0 := by
  simp only [sad, List.sum_eq_zero_iff, List.forall_mem_map, List.mem_range]
  intro j hj i hi
  rw [shift i j hi hj, add_right_comm _ dx, add_right_comm _ dy, sub_self, Int.natAbs_zero]

/-- Settles O54: the shift costs 0, so the least cost is 0; no admissible offset scanned before it costs as little, and
the one found does not come after it. -/
theorem shiftIsRecovered : Obligations.ShiftIsRecovered := by
  unfold Obligations.ShiftIsRecovered
  intro cu rf pw ph r b dx dy shift hadm xlo xhi ylo yhi
  obtain ⟨cost, -, least, other⟩ := searchFindsFirstBest cu rf pw ph r b
  have zero : sad cu rf pw b dx dy = 0 := sad_eq_zero shift
  have found : (bestOffset cu rf pw ph r b).2 = 0 :=
    Nat.le_zero.mp (zero ▸ least dx dy xlo (by omega) ylo (by omega) hadm)
  refine ⟨cost.symm.trans found, fun origin earlier => ?_⟩
  have hne : (bestOffset cu rf pw ph r b).1 ≠ (0, 0) := fun h => origin (by rw [← found, cost, h])
  obtain ⟨-, badm, ulo, -, vlo, vhi, first⟩ := other hne
  rcases ScannedBefore.trichotomy (bestOffset cu rf pw ph r b).1 (dx, dy) with hbefore | heq | hafter
  · exact absurd (cost.symm.trans found) (earlier _ _ ulo vlo vhi hbefore badm)
  · exact heq
  · have := first dx dy xlo (by omega) ylo (by omega) hadm hafter
    omega

/-! ### `MEST` (R278) -/

/-- The vector of a macroblock is what the search finds for it, because an offset inside the radius fits a signed byte
(R276). -/
theorem vectorAt_field {c : Ch} {cu rf : Plane} {pw ph r m : Nat} (hr : r < 128) (hm : m < mbCount c pw ph) :
    (vectorAt (field c cu rf pw ph r) m).dx.toInt = (bestOffset cu rf pw ph r (macroblock c pw ph m)).1.1 ∧
      (vectorAt (field c cu rf pw ph r) m).dy.toInt = (bestOffset cu rf pw ph r (macroblock c pw ph m)).1.2 := by
  obtain ⟨hdx, hdy, -⟩ := bestOffset_reachable cu rf r (macroblock_adm_zero hm)
  have entry : vectorAt (field c cu rf pw ph r) m = vectorOf (bestOffset cu rf pw ph r (macroblock c pw ph m)).1 := by
    simp [vectorAt, field, List.getD, hm]
  rw [entry]
  exact ⟨toInt_ofInt_of_le hr hdx, toInt_ofInt_of_le hr hdy⟩

theorem PerCh.set_get_self {α : Type} (p : PerCh α) (c : Ch) (v : α) : (p.set c v).get c = v := by
  rw [PerCh.set_get, if_pos rfl]

theorem PerCh.set_get_other {α : Type} (p : PerCh α) {c d : Ch} (v : α) (h : d ≠ c) : (p.set c v).get d = p.get d := by
  rw [PerCh.set_get, if_neg h]

/-- Settles O29: `MEST` stores the field of the search, and `vectorAt_field` says what that holds. -/
theorem mestEstimates : Obligations.MestEstimates := by
  unfold Obligations.MestEstimates
  intro s ch stage ref
  refine ⟨_, exec_mest ch stage ref, rfl, PerCh.set_get_self .., fun c hc =>
    ⟨PerCh.set_get_other _ _ hc, PerCh.set_get_other _ _ hc⟩, ?_, fun m hm => ?_⟩
  · rw [State.done_mv, PerCh.set_get_self]
    exact field_length ..
  · rw [State.done_mv, PerCh.set_get_self]
    exact vectorAt_field s.radius.isLt hm

end Sys2Proof.Machine
end

section
/-! PROOFS. Family 48_residual: the leaf commands `MCOMP` and `RESID` (spec R290, R291, R296, R298), the payload of a
predicted frame (R304, R308, R312) and the closed loop of predicted frames (R314). -/

namespace Sys2Proof.Machine

/-! ### Macroblocks tile their plane (R270) -/

/-- The samples of macroblock `m` are the ones that look up vector `m` (R270, R290). -/
theorem mbIndexAt_macroblock {c : Ch} {pw ph m i j : Nat} (hi : i < (macroblock c pw ph m).w)
    (hj : j < (macroblock c pw ph m).h) :
    mbIndexAt c pw ((macroblock c pw ph m).x + i) ((macroblock c pw ph m).y + j) = m := by
  have side : 0 < mbSide c := by cases c <;> decide
  have hi' : i < mbSide c := hi.trans_le (min_le_left _ _)
  have hj' : j < mbSide c := hj.trans_le (min_le_left _ _)
  simp only [macroblock, mbIndexAt, Nat.mul_add_div side, Nat.div_eq_of_lt hi', Nat.div_eq_of_lt hj', Nat.add_zero,
    Nat.div_add_mod']

theorem macroblock_sample_lt {c : Ch} {pw ph m i j : Nat} (hi : i < (macroblock c pw ph m).w)
    (hj : j < (macroblock c pw ph m).h) :
    (macroblock c pw ph m).x + i < pw ∧ (macroblock c pw ph m).y + j < ph := by
  simp only [macroblock, lt_min_iff] at hi hj ⊢
  omega

/-! ### `MCOMP` and `RESID` (R296, R298) -/

/-- A predicted sample, reached through its macroblock (R290). -/
theorem predict_sampleAt_macroblock {c : Ch} {pw ph m i j : Nat} (rf : Plane) (mv : List MVec)
    (hi : i < (macroblock c pw ph m).w) (hj : j < (macroblock c pw ph m).h) :
    sampleAt (predict c rf mv pw ph) pw ((macroblock c pw ph m).x + i) ((macroblock c pw ph m).y + j) =
      sampleZ rf pw ((macroblock c pw ph m).x + (vectorAt mv m).dx.toInt + i)
        ((macroblock c pw ph m).y + (vectorAt mv m).dy.toInt + j) := by
  obtain ⟨hx, hy⟩ := macroblock_sample_lt hi hj
  rw [predict, sampleAt_planeOf _ _ _ _ _ hx hy, mbIndexAt_macroblock hi hj]
  dsimp only
  rw [Nat.cast_add, Nat.cast_add, add_right_comm _ (i : Int), add_right_comm _ (j : Int)]

/-- Settles O30: `MCOMP` stores `predict`, and `predict_sampleAt_macroblock` says what that holds. -/
theorem mcompPredicts : Obligations.McompPredicts := by
  unfold Obligations.McompPredicts
  intro s ch ref valid
  refine ⟨_, exec_mcomp ch ref valid, rfl, PerCh.set_get_self .., fun c hc =>
    ⟨PerCh.set_get_other _ _ hc, PerCh.set_get_other _ _ hc⟩, ?_, fun m i j _ hi hj => ?_⟩
  · rw [State.done_pred, PerCh.set_get_self, predict_length]
  · rw [State.done_pred, PerCh.set_get_self]
    exact predict_sampleAt_macroblock _ _ hi hj

/-- A residual is the difference of the two samples (R291). -/
theorem resAt_residual {w h x y : Nat} {cu p : Plane} (hcu : cu.length = w * h) (hp : p.length = w * h) (hx : x < w)
    (hy : y < h) :
    resAt (residual cu p) w x y = ((sampleAt cu w x y).toNat : Int) - ((sampleAt p w x y).toNat : Int) := by
  simp only [resAt, residual, List.getD, List.getElem?_zipWith, getElem?_eq_sampleAt hcu hx hy,
    getElem?_eq_sampleAt hp hx hy, Option.getD_some]

/-- Settles O31: `RESID` stores `residual`, and `resAt_residual` says what that holds. -/
theorem residSubtracts : Obligations.ResidSubtracts := by
  unfold Obligations.ResidSubtracts
  intro s ch stage valid curLength predLength
  refine ⟨_, exec_resid ch stage valid, rfl, PerCh.set_get_self .., fun c hc =>
    ⟨PerCh.set_get_other _ _ hc, PerCh.set_get_other _ _ hc⟩, ?_, fun x y hx hy => ?_⟩
  · rw [State.done_res, PerCh.set_get_self, residual_length, curLength, predLength, min_self]
  · rw [State.done_res, PerCh.set_get_self]
    exact resAt_residual curLength predLength hx hy

/-! ### The payload of a predicted frame (R304) -/

/-- What `predStream` codes: the coefficients, then the vector bytes of Y, Cb and Cr. -/
def predPayload (coef : List Byte) (mv : PerCh (List MVec)) : List Byte :=
  coef ++ vecBytes mv.y ++ vecBytes mv.cb ++ vecBytes mv.cr

theorem mrleDec_predStream (coef : List Byte) (mv : PerCh (List MVec)) :
    mrleDec (predStream coef mv) = some (predPayload coef mv) := mrleDec_mrleEnc _

theorem vecBytes_append (a b : List MVec) : vecBytes (a ++ b) = vecBytes a ++ vecBytes b := List.flatMap_append

/-- The middle one of three pieces. -/
theorem slice_append_middle {α : Type} {a b c : List α} {i j : Nat} (hi : i = a.length) (hj : j = i + b.length) :
    slice (a ++ b ++ c) i j = b := by
  subst hj hi
  rw [slice, List.append_assoc, List.drop_left, Nat.add_sub_cancel_left, List.take_left]

section Payload

variable {w h : Nat} {coef : List Byte} {mv : PerCh (List MVec)}
  (hcoef : coef.length = lenCoef w h)
  (hmv : ∀ c : Ch, (mv.get c).length = mbCount c (planeW w c) (planeH h c))

include hcoef

/-- The coefficients stand in front (R304). -/
theorem slice_predPayload : slice (predPayload coef mv) 0 (lenCoef w h) = coef := by
  have front : slice ([] ++ coef ++ (vecBytes mv.y ++ vecBytes mv.cb ++ vecBytes mv.cr)) 0 (lenCoef w h) = coef :=
    slice_append_middle rfl (by rw [Nat.zero_add, hcoef])
  simpa only [predPayload, List.nil_append, List.append_assoc] using front

include hmv

theorem predPayload_length : (predPayload coef mv).length = lenCoef w h + lenVec w h := by
  have hy : mv.y.length = mY w h := hmv .y
  have hcb : mv.cb.length = mC w h := hmv .cb
  have hcr : mv.cr.length = mC w h := hmv .cr
  simp only [predPayload, List.length_append, vecBytes_length, hcoef, hy, hcb, hcr, lenVec]
  omega

/-- The vector fields read back as they were written (R292, R304). -/
theorem fieldsOf_predPayload : fieldsOf w h (predPayload coef mv) = mv := by
  have hy : mv.y.length = mY w h := hmv .y
  have hcb : mv.cb.length = mC w h := hmv .cb
  have hcr : mv.cr.length = mC w h := hmv .cr
  have luma : slice (predPayload coef mv) (lenCoef w h) (lenCoef w h + 2 * mY w h) = vecBytes mv.y := by
    rw [predPayload, List.append_assoc _ (vecBytes mv.cb)]
    exact slice_append_middle hcoef.symm (by rw [vecBytes_length, hy])
  have blue : slice (predPayload coef mv) (lenCoef w h + 2 * mY w h) (lenCoef w h + 2 * mY w h + 2 * mC w h) =
      vecBytes mv.cb :=
    slice_append_middle (by rw [List.length_append, vecBytes_length, hcoef, hy]) (by rw [vecBytes_length, hcb])
  have red : slice (predPayload coef mv) (lenCoef w h + 2 * mY w h + 2 * mC w h) (lenCoef w h + lenVec w h) =
      vecBytes mv.cr := by
    rw [← List.append_nil (predPayload coef mv)]
    refine slice_append_middle ?_ ?_
    · simp only [List.length_append, vecBytes_length, hcoef, hy, hcb]
    · rw [vecBytes_length, hcr, lenVec]
      omega
  simp only [fieldsOf, luma, blue, red, vecsOfBytes_vecBytes]

end Payload

/-! ### `EMITP` (R308) -/

/-- `EMITP` where its checks pass (R308). -/
theorem exec_emitp {s : State} (stage : s.fstage.isTransformed = true) (kind : s.fkind = .predicted)
    (cap : (predStream s.coef s.mv).length ≤ s.cfg.outCap) :
    exec .emitp s = .next ({ s with fstage := .serialized }.done (predStream s.coef s.mv)) := by
  change execEmitp s = _
  rw [execEmitp, if_neg (not_not.mpr stage), if_neg (not_not.mpr kind)]
  exact if_neg (not_lt.mpr cap)

/-- The fields one after another have the bytes of the fields one after another (R292). -/
theorem predStream_eq_mrleEnc (coef : List Byte) (mv : PerCh (List MVec)) :
    predStream coef mv = mrleEnc (coef ++ vecBytes (mv.y ++ mv.cb ++ mv.cr)) := by
  simp only [predStream, vecBytes_append, List.append_assoc]

/-- Settles O33: the checks of `exec_emitp` pass, and `State.done` writes the payload. -/
theorem emitpWritesPayload : Obligations.EmitpWritesPayload := by
  unfold Obligations.EmitpWritesPayload
  intro s z legal stage kind hz cap
  obtain rfl : z = predStream s.coef s.mv := hz.trans (predStream_eq_mrleEnc s.coef s.mv).symm
  exact ⟨_, exec_emitp (s.fstage.isTransformed_iff.mpr stage) kind cap, rfl, State.done_wrote legal cap⟩

/-! ### `DECP` (R312) -/

/-- `DECP` where its checks pass and its operand is accepted (R312). -/
theorem exec_decp {s : State} {r : PerCh Plane} (fits : s.inFits) (ref : s.refv = true)
    (dec : s.decodePredicted s.input = .ok r) : exec .decp s = .next ({ s with ref := r }.done []) := by
  change execDecp s = _
  rw [execDecp, if_neg (not_not.mpr fits), if_neg (not_not.mpr ref), dec]

/-- Settles O34: the reference is `payloadPlanes`, known sample by sample. -/
theorem decpDecodes : Obligations.DecpDecodes := by
  unfold Obligations.DecpDecodes
  intro s p fits ref dec len vectors
  exact ⟨_, exec_decp fits ref (State.decodePredicted_eq_payloadPlanes dec len vectors), rfl, s.payloadPlanes_fit p,
    fun c => ⟨s.payloadPlanes_get p c, fun x y => State.payloadPlanes_sampleAt len⟩⟩

/-! ### The closed loop (R314) -/

/-- The decoder accepts every vector of a field that was searched within its radius (R274, R312). -/
theorem field_fieldOk (c : Ch) (cu rf : Plane) (pw ph : Nat) {r k : Nat} (hr : r < 128) (hk : r ≤ k) :
    fieldOk c pw ph k (field c cu rf pw ph r) = true := by
  refine fieldOk_iff.mpr fun m hm => ?_
  obtain ⟨hdx, hdy, hadm⟩ := bestOffset_reachable cu rf r (macroblock_adm_zero hm)
  obtain ⟨dxEq, dyEq⟩ := vectorAt_field (cu := cu) (rf := rf) hr hm
  rw [vectorOk, dxEq, dyEq]
  exact ⟨by omega, by omega, hadm⟩

/-- Settles O58: `EMITP` writes the coefficients and vectors that `XFP` left, `DECP` reads both back, and each of `XFP`
and `DECP` makes its reference with `reconPlanes` of them and the same old reference. -/
theorem predictedClosedLoop : Obligations.PredictedClosedLoop := by
  unfold Obligations.PredictedClosedLoop
  intro s t u d legal stage ref hxfp hemitp ok hfrmW hfrmH num radius dref href fed
  obtain ⟨t', ht', frame, hmv, hpred, -, hcoef, htref⟩ := xfp_codes s stage ref
  obtain rfl : t' = t := Host.Outcome.next.inj (ht'.symm.trans hxfp)
  have hcfg : t'.cfg = s.cfg := by rw [frame]
  have hW : d.W = s.W := congrArg BitVec.toNat hfrmW
  have hH : d.H = s.H := congrArg BitVec.toNat hfrmH
  have coefLength : t'.coef.length = lenCoef d.W d.H := by rw [hcoef, coefOf_length, hW, hH]
  have fieldEq : ∀ c, t'.mv.get c = s.fieldOf c := fun c => by rw [hmv, PerCh.of_get]
  have fieldLength : ∀ c, (t'.mv.get c).length = mbCount c (planeW d.W c) (planeH d.H c) := fun c => by
    rw [fieldEq, hW, hH]
    exact field_length ..
  cases exec_completes hemitp ok with
  | emitp _ _ cap =>
    have wrote := State.done_wrote (s := { t' with fstage := .serialized }) (hcfg ▸ legal) cap
    have operand : d.input = predStream t'.coef t'.mv := fed.input wrote
    obtain ⟨-, fits, -⟩ := fed
    have accepted : d.decodePredicted d.input = .ok t'.ref := by
      refine State.decodePredicted_ok.mpr ⟨_, operand ▸ mrleDec_predStream _ _,
        predPayload_length coefLength fieldLength, fun c => ?_, ?_⟩
      · rw [fieldsOf_predPayload coefLength fieldLength, fieldEq, hW, hH]
        exact field_fieldOk c _ _ _ _ s.radius.isLt radius
      · rw [fieldsOf_predPayload coefLength fieldLength, slice_predPayload coefLength, htref, hpred, href, num, hW, hH]
    exact ⟨_, exec_decp fits dref accepted, rfl, rfl⟩

end Sys2Proof.Machine
end

section
/-! PROOFS. Family 49_chain: the chain-encode store (spec R336, R338), the container (R334, R340) and its round trip
(R342). -/

namespace Sys2Proof.Machine

/-! ### The chain-encode store (R336, R338) -/

/-- Settles O35: `CHRST` has no check. -/
theorem chrstEmptiesChain : Obligations.ChrstEmptiesChain := by
  unfold Obligations.ChrstEmptiesChain
  exact ⟨decode_encode (i := .chrst) rfl, fun s => ⟨_, rfl, rfl⟩⟩

/-- `CHAPP` where its checks pass (R338): a key frame first, later a predicted frame of the chain's dimensions. -/
theorem exec_chapp {s : State} (stage : s.fstage.isTransformed = true) (first : s.cheCount = 0 → s.fkind = .key)
    (later : s.cheCount ≠ 0 → s.fkind = .predicted ∧ s.frmW = s.cheW ∧ s.frmH = s.cheH)
    (cap : s.cheCount.toNat < s.cfg.chMax) (len : s.frameStream.length ≤ 2 ^ 32 - 1) :
    exec .chapp s = .next ({ s with
      cheW := if s.cheCount = 0 then s.frmW else s.cheW, cheH := if s.cheCount = 0 then s.frmH else s.cheH
      chs := s.chs ++ [s.frameStream], cheCount := s.cheCount + 1, fstage := .serialized }.done []) := by
  change execChapp s = _
  rw [execChapp, if_neg (not_not.mpr stage), if_neg (by tauto), if_neg (by tauto), if_neg (by tauto),
    if_neg (not_le.mpr cap)]
  exact if_neg (not_lt.mpr len)

/-- The dimensions recorded are the frame's: at the first append by `CHAPP` itself, later by its check (R338). -/
theorem recorded_eq {n : Word} {frame recorded : Word} (later : n ≠ 0 → frame = recorded) :
    (if n = 0 then frame else recorded) = frame := by
  split
  · rfl
  · exact (later ‹_›).symm

/-- Settles O36: in each of the two positions the checks of `exec_chapp` pass, and the stream is that of the kind. -/
theorem chappAppends : Obligations.ChappAppends := by
  unfold Obligations.ChappAppends
  intro s z legal stage position cap len
  have first : s.cheCount = 0 → s.fkind = .key := by
    rcases position with ⟨-, kind, -⟩ | ⟨count, -⟩
    · exact fun _ => kind
    · exact fun h => absurd h count
  have later : s.cheCount ≠ 0 → s.fkind = .predicted ∧ s.frmW = s.cheW ∧ s.frmH = s.cheH := by
    rcases position with ⟨count, -⟩ | ⟨-, kind, hw, hh, -⟩
    · exact fun h => absurd count h
    · exact fun _ => ⟨kind, hw, hh⟩
  have stream : s.frameStream = z := by
    rcases position with ⟨-, kind, rfl⟩ | ⟨-, kind, -, -, rfl⟩ <;> rw [State.frameStream, kind] <;> rfl
  have width := recorded_eq fun count => (later count).2.1
  have height := recorded_eq fun count => (later count).2.2
  obtain ⟨-, -, -, -, -, chMax⟩ := legal
  refine ⟨_, exec_chapp (s.fstage.isTransformed_iff.mpr stage) first later cap (stream ▸ len), ?_, ?_⟩
  · rw [stream, width, height]
    rfl
  · rw [State.done_cheCount, BitVec.toNat_add]
    exact Nat.mod_eq_of_lt (show s.cheCount.toNat + 1 < 2 ^ 32 by omega)

/-! ### The container (R334) -/

/-- `CHEMIT` where its checks pass (R340). -/
theorem exec_chemit {s : State} (count : s.cheCount ≠ 0) (cap : containerSize s.chs ≤ s.cfg.outCap) :
    exec .chemit s = .next (s.done (container s.chs s.cheW.toNat s.cheH.toNat)) := by
  change execChemit s = _
  rw [execChemit, if_neg count, if_neg (not_lt.mpr cap)]

/-- The host finds the container in `OUTBUF`. -/
theorem container_wrote {s : State} (legal : s.cfg.Legal) (cap : containerSize s.chs ≤ s.cfg.outCap) (w h : Nat) :
    Wrote (s.done (container s.chs w h)) (container s.chs w h) :=
  State.done_wrote legal (by rwa [container_length])

/-- Settles O37: the checks of `exec_chemit` pass, and `State.done` writes the container. -/
theorem chemitWritesContainer : Obligations.ChemitWritesContainer := by
  unfold Obligations.ChemitWritesContainer
  intro s legal count len cap
  refine ⟨_, exec_chemit count cap, rfl, ?_⟩
  rw [len]
  exact container_wrote legal cap _ _

/-! ### Reading a container back (R342) -/

/-- A little-endian word stands where the bytes before it end (R65). -/
theorem rd32_append {a b : List Byte} {n o : Nat} (ho : o = a.length) (hn : n < 2 ^ 32) :
    rd32 (a ++ le32 n ++ b) o = n := by
  subst ho
  calc rd32 (a ++ le32 n ++ b) a.length = rd32 (le32 n ++ b) 0 := by
        simp only [rd32, byteAt, List.append_assoc, List.getD_eq_getElem?_getD, List.getElem?_append_right,
          Nat.le_add_right, Nat.add_sub_cancel_left, le_refl, Nat.sub_self, Nat.zero_add]
    _ = n := rd32_le32 n hn b

/-- The table of lengths takes four bytes a stream (R334). -/
theorem lengths_length (chs : List (List Byte)) : (chs.flatMap fun z => le32 z.length).length = 4 * chs.length := by
  simp [List.length_flatMap, Nat.mul_comm]

/-- A list around one of its entries. -/
theorem eq_append_cons_of_getElem? {α : Type} {l : List α} {i : Nat} {z : α} (h : l[i]? = some z) :
    l = l.take i ++ z :: l.drop (i + 1) ∧ (l.take i).length = i := by
  obtain ⟨hi, rfl⟩ := List.getElem?_eq_some_iff.mp h
  exact ⟨by rw [List.getElem_cons_drop, List.take_append_drop], List.length_take_of_le hi.le⟩

section Container

variable {chs : List (List Byte)} {w h : Nat}

theorem rd32_container_count (few : chs.length < 2 ^ 32) : rd32 (container chs w h) 0 = chs.length := by
  simp only [container, List.append_assoc]
  exact rd32_le32 _ few _

theorem rd32_container_width (hw : w < 2 ^ 32) : rd32 (container chs w h) (4 + 4 * chs.length) = w := by
  rw [container, List.append_assoc _ (le32 h)]
  exact rd32_append (by rw [List.length_append, le32_length, lengths_length]) hw

theorem rd32_container_height (hh : h < 2 ^ 32) : rd32 (container chs w h) (8 + 4 * chs.length) = h := by
  refine rd32_append ?_ hh
  simp only [List.length_append, le32_length, lengths_length]
  omega

/-- Entry `i` of the table of lengths (R334). -/
theorem rd32_container_length {i : Nat} {z : List Byte} (hz : chs[i]? = some z) (short : z.length < 2 ^ 32) :
    rd32 (container chs w h) (4 + 4 * i) = z.length := by
  obtain ⟨around, place⟩ := eq_append_cons_of_getElem? hz
  have table : (chs.flatMap fun z => le32 z.length) =
      ((chs.take i).flatMap fun z => le32 z.length) ++
        (le32 z.length ++ (chs.drop (i + 1)).flatMap fun z => le32 z.length) := by
    conv_lhs => rw [around, List.flatMap_append, List.flatMap_cons]
  have layout : container chs w h = le32 chs.length ++ ((chs.take i).flatMap fun z => le32 z.length) ++ le32 z.length ++
      (((chs.drop (i + 1)).flatMap fun z => le32 z.length) ++ le32 w ++ le32 h ++ chs.flatten) := by
    simp only [container, table, List.append_assoc]
  rw [layout]
  exact rd32_append (by rw [List.length_append, le32_length, lengths_length, place]) short

theorem lengthTable_container (short : ∀ z ∈ chs, z.length < 2 ^ 32) :
    lengthTable (container chs w h) chs.length = chs.map List.length := by
  refine List.ext_getElem (by simp [lengthTable]) fun i hi _ => ?_
  have hi : i < chs.length := by simpa [lengthTable] using hi
  simp only [lengthTable, List.getElem_map, List.getElem_range]
  exact rd32_container_length (List.getElem?_eq_getElem hi) (short _ (List.getElem_mem hi))

/-- Stream `i` stands behind the header and the streams before it (R334). -/
theorem slice_container {i o : Nat} {z : List Byte} (hz : chs[i]? = some z)
    (ho : o = 12 + 4 * chs.length + ((chs.take i).map List.length).sum) :
    slice (container chs w h) o (o + z.length) = z := by
  obtain ⟨around, -⟩ := eq_append_cons_of_getElem? hz
  have streams : chs.flatten = (chs.take i).flatten ++ (z ++ (chs.drop (i + 1)).flatten) := by
    conv_lhs => rw [around, List.flatten_append, List.flatten_cons]
  have layout : container chs w h =
      le32 chs.length ++ (chs.flatMap fun z => le32 z.length) ++ le32 w ++ le32 h ++ (chs.take i).flatten ++ z ++
        (chs.drop (i + 1)).flatten := by
    simp only [container, streams, List.append_assoc]
  rw [layout]
  refine slice_append_middle ?_ rfl
  simp only [List.length_append, le32_length, lengths_length, List.length_flatten, ho]
  omega

/-- The head of a container is the one it was written with (R342). -/
theorem parseContainer_container {p : Params} (pos : 1 ≤ chs.length) (few : chs.length < 2 ^ 32)
    (room : chs.length ≤ p.chMax) (short : ∀ z ∈ chs, z.length < 2 ^ 32) (hw : w < 2 ^ 32) (hh : h < 2 ^ 32)
    (dims : legalDims p w h) :
    parseContainer p (container chs w h) = .ok ⟨chs.length, chs.map List.length, w, h⟩ := by
  refine parseContainer_ok.mpr ⟨?_, pos, room, dims, container_length chs w h⟩
  rw [rd32_container_count few, lengthTable_container short, rd32_container_width hw, rd32_container_height hh]

end Container

/-- A range inside the operand is that slice of it (R11, R62). -/
theorem State.inBytes_eq_slice {s : State} {o n : Nat} (inside : n ≤ s.inLen.toNat - o) :
    s.inBytes o n = slice s.input o (o + n) := by
  refine List.ext_getElem? fun k => ?_
  by_cases hk : k < n
  · rw [State.inBytes_getElem? _ _ _ _ hk, slice_getElem? _ _ _ _ (by omega), State.input,
      State.inBytes_getElem? _ _ _ _ (by omega), Nat.zero_add]
  · rw [List.getElem?_eq_none (by rw [State.inBytes_length]; omega),
      List.getElem?_eq_none (by rw [slice_length]; omega)]

theorem ofNat_toNat_word (w : Word) : BitVec.ofNat 32 w.toNat = w := by
  rw [BitVec.ofNat_toNat, BitVec.setWidth_eq]

/-- Settles O60: the operand is the container, its head reads back as it was written, and so does every slice. -/
theorem containerRoundTrip : Obligations.ContainerRoundTrip := by
  unfold Obligations.ContainerRoundTrip
  intro s t d legal count short hchemit ok room dims fed
  cases exec_completes hchemit ok with
  | chemit nonzero cap =>
    have operand : d.input = container s.chs s.cheW.toNat s.cheH.toNat := fed.input (container_wrote legal cap _ _)
    have pos : 1 ≤ s.chs.length := by
      rw [← count]
      exact Nat.pos_of_ne_zero fun h0 => nonzero (BitVec.eq_of_toNat_eq h0)
    have head := parseContainer_container pos (count ▸ s.cheCount.isLt) (count ▸ room) short s.cheW.isLt
      s.cheH.isLt dims
    have len : d.inLen.toNat = (container s.chs s.cheW.toNat s.cheH.toNat).length := by
      rw [← operand, State.input_length]
    obtain ⟨-, fits, -⟩ := fed
    have run := exec_chopen fits (operand ▸ head)
    have lens : ∀ n ∈ s.chs.map List.length, n < 2 ^ 32 := List.forall_mem_map.mpr short
    refine ⟨_, run, rfl, ofNat_toNat_word s.cheW, ofNat_toNat_word s.cheH, ?_, map_toNat_ofNat lens, fun i z hz => ?_⟩
    · exact (congrArg (BitVec.ofNat 32) count.symm).trans (ofNat_toNat_word s.cheCount)
    · have there := slice_container (w := s.cheW.toNat) (h := s.cheH.toNat) hz rfl
      have inside := congrArg List.length there
      rw [slice_length, ← len] at inside
      change d.inBytes _ _ = z
      rw [State.inBytes_eq_slice (by omega), operand, there]

end Sys2Proof.Machine
end

section
/-! PROOFS. Family 60_exceptions: a command reports the first check of its row that fails (spec R364), and an abort
changes nothing else (R366). -/

namespace Sys2Proof.Machine

/-! ### Rows of checks (R364) -/

theorem firstFailure_cons (b : Bool) (e : Err) (l : List (Bool × Err)) :
    firstFailure ((b, e) :: l) = if b then some e else firstFailure l := by
  cases b <;> rfl

/-- The error a decoder answers. -/
def errorOf {α : Type} : Except Err α → Option Err
  | .error e => some e
  | .ok _ => none

/-- A decoder answers the first failure of its checks. -/
def Names {α : Type} (x : Except Err α) (checks : List (Bool × Err)) : Prop := errorOf x = firstFailure checks

/-- A command leaves in `ERR` the first failure of its checks, 0 when none fails. -/
def Reports (r : Result) (checks : List (Bool × Err)) : Prop :=
  ∃ t, r = .next t ∧ t.err = (firstFailure checks).getD .ok

section Decoders

variable {α : Type} {x : Except Err α} {checks : List (Bool × Err)} {c : Prop} [Decidable c] {b : Bool} {e : Err}

theorem Names.ok (a : α) : Names (.ok a) [] := rfl

/-- One check of a decoder: where it fails the decoder names it, else the rest decides. -/
theorem Names.check (hb : b = true ↔ c) (rest : ¬ c → Names x checks) :
    Names (if c then .error e else x) ((b, e) :: checks) := by
  rw [Names, firstFailure_cons]
  by_cases hc : c
  · rw [if_pos hc, if_pos (hb.mpr hc)]
    rfl
  · rw [if_neg hc, if_neg fun h => hc (hb.mp h)]
    exact rest hc

/-- A check written with the branches the other way round. -/
theorem Names.require (hb : b = true ↔ ¬ c) (rest : c → Names x checks) :
    Names (if c then x else .error e) ((b, e) :: checks) := by
  rw [← ite_not]
  exact .check hb fun h => rest (not_not.mp h)

/-- A check that passes is no failure. -/
theorem Names.skip (pass : b = false) (rest : Names x checks) : Names x ((b, e) :: checks) := by
  rw [Names, firstFailure_cons, pass]
  exact rest

end Decoders

section Commands

variable {s : State} {r : Result} {checks : List (Bool × Err)} {c : Prop} [Decidable c] {b : Bool} {e : Err}

theorem Reports.complete {t : State} (ok : t.err = .ok) : Reports (.next t) [] := ⟨t, rfl, ok⟩

/-- One check of a command: where it fails the command aborts with its error, else the rest of the command runs. -/
theorem Reports.check (hb : b = true ↔ c) (rest : ¬ c → Reports r checks) :
    Reports (if c then .next (s.abort e) else r) ((b, e) :: checks) := by
  rw [Reports, firstFailure_cons]
  by_cases hc : c
  · rw [if_pos hc, if_pos (hb.mpr hc)]
    exact ⟨_, rfl, rfl⟩
  · rw [if_neg hc, if_neg fun h => hc (hb.mp h)]
    exact rest hc

/-- A check that passes is no failure. -/
theorem Reports.skip (pass : b = false) (rest : Reports r checks) : Reports r ((b, e) :: checks) := by
  rw [Reports, firstFailure_cons, pass]
  exact rest

/-- A check of a block's entries, which is written with the branches the other way round. -/
theorem Reports.require (hb : b = true ↔ ¬ c) (rest : c → Reports r checks) :
    Reports (if c then r else .next (s.abort e)) ((b, e) :: checks) := by
  rw [← ite_not]
  exact .check hb fun h => rest (not_not.mp h)

/-- Two conditions with one error are one check of the table. -/
theorem Reports.either {d : Prop} [Decidable d] (hb : b = true ↔ c ∨ d) (rest : ¬ (c ∨ d) → Reports r checks) :
    Reports (if c then .next (s.abort e) else if d then .next (s.abort e) else r) ((b, e) :: checks) := by
  rw [← ite_or]
  exact .check hb rest

/-- The error a decoder names is the one its command aborts with. -/
theorem Reports.ofError {α : Type} (names : Names (.error e : Except Err α) checks) :
    Reports (.next (s.abort e)) checks :=
  ⟨_, rfl, by rw [← names]; rfl⟩

/-- A command completes on what its decoder accepts. -/
theorem Reports.ofOk {α : Type} {a : α} {t : State} (ok : t.err = .ok) (names : Names (.ok a) checks) :
    Reports (.next t) checks :=
  ⟨t, rfl, by rw [← names]; exact ok⟩

end Commands

/-! ### The conditions of the checks -/

theorem not_bit_iff {b : Bool} : (!b) = true ↔ ¬ b = true := by
  cases b <;> decide

theorem inTooLong_iff (s : State) : decide (s.cfg.inCap < s.inLen.toNat) = true ↔ ¬ s.inFits :=
  decide_eq_true_iff.trans not_le.symm

/-- `PSValid` as the table has it and as a command runs it (R158). -/
theorem planeSetCheck_iff (s : State) (ps : PlaneSet) (l : List Ch) :
    (planeSetCheck s ps l).1 = true ↔ ¬ PlaneSetValid s ps l := by
  cases ps <;> simp [planeSetCheck, PlaneSetValid]

theorem planeSetCheck_error (s : State) (ps : PlaneSet) (l : List Ch) :
    (planeSetCheck s ps l).2 = if ps = .ref then .missingReference else .badRequest := by
  cases ps <;> rfl

theorem Reports.planeSet {s : State} {ps : PlaneSet} {need : Ch → Bool} {l : List Ch} {r : Result}
    {checks : List (Bool × Err)} (hneed : ∀ c, need c = true ↔ c ∈ l) (rest : Reports r checks) :
    Reports (match s.planeSetError ps need with | some e => .next (s.abort e) | none => r)
      (planeSetCheck s ps l :: checks) := by
  have valid := State.planeSetError_eq_none_iff_valid (s := s) (ps := ps) hneed
  rw [Reports, firstFailure_cons]
  cases h : s.planeSetError ps need with
  | none =>
    rw [if_neg fun fails => (planeSetCheck_iff s ps l).mp fails (valid.mp h)]
    exact rest
  | some e =>
    have invalid : ¬ PlaneSetValid s ps l := fun hv => nomatch h.symm.trans (valid.mpr hv)
    rw [if_pos ((planeSetCheck_iff s ps l).mpr invalid), planeSetCheck_error, ← State.planeSetError_eq_some h]
    exact ⟨_, rfl, rfl⟩

/-- Needing every channel is needing the three of the list. -/
theorem needs_all_iff (c : Ch) : true = true ↔ c ∈ [Ch.y, Ch.cb, Ch.cr] := by
  cases c <;> decide

theorem fdctDomain_iff (s : State) (b : Bool) :
    decide (∃ n : Fin 64, 2 ^ 23 < (s.sb[n].toInt - if b then 128 else 0).natAbs) = true ↔
      ¬ (center b (mapBlock BitVec.toInt s.sb)).toList.all (fun v => decide (v.natAbs ≤ 2 ^ 23)) = true := by
  rw [decide_eq_true_iff, block_toList_all, not_forall]
  refine exists_congr fun n => ?_
  rw [decide_eq_true_iff, not_le, center, mapBlock_get, mapBlock_get]

theorem idctDomain_iff (s : State) :
    decide (∃ n : Fin 64, f32IsFinite s.tb[n] = false ∨ 2 ^ 23 * 2 ^ 149 < (F32.ofBits s.tb[n]).mag) = true ↔
      ¬ s.tb.toList.all inIdctDomain = true := by
  rw [decide_eq_true_iff, block_toList_all, not_forall]
  refine exists_congr fun n => ?_
  rw [inIdctDomain, Bool.and_eq_true, decide_eq_true_iff, not_and_or, not_le, Bool.not_eq_true]

theorem quantDomain_iff (s : State) :
    decide (∃ n : Fin 64, f32IsFinite s.tb[n] = false) = true ↔ ¬ s.tb.toList.all f32IsFinite = true := by
  rw [decide_eq_true_iff, block_toList_all, not_forall]
  exact exists_congr fun n => (Bool.not_eq_true _).symm.to_iff

/-! ### The decoders (R254, R312, R342, R344) -/

theorem keyPayload_names (w h : Nat) (z : List Byte) : Names (keyPayload w h z) (keyChecks w h z) := by
  rw [keyPayload, keyChecks]
  cases mrleDec z with
  | none => rfl
  | some p => exact .skip rfl (.check decide_eq_true_iff fun _ => .ok p)

theorem decodePredicted_names (s : State) (z : List Byte) : Names (s.decodePredicted z) (predictedChecks s z) := by
  rw [State.decodePredicted, predictedChecks]
  cases mrleDec z with
  | none => rfl
  | some p =>
    refine .skip rfl (.check decide_eq_true_iff fun _ => .check decide_eq_true_iff fun _ =>
      .require ?_ fun _ => .ok _)
    simp only [decide_eq_true_iff, List.all_eq_true, fieldOk_iff, List.mem_range, Option.getD_some, not_forall,
      exists_prop]

theorem parseContainer_names (s : State) : Names (parseContainer s.cfg s.input) (commandChecks .chopen s).tail := by
  have len := s.input_length
  refine .check ?_ fun _ => .check decide_eq_true_iff fun _ => .check ?_ fun _ => .check decide_eq_true_iff fun _ =>
    .check decide_eq_true_iff fun _ => .check ?_ fun _ => .check ?_ fun _ => .ok _
  all_goals rw [decide_eq_true_iff, len]

theorem decodeNext_names (s : State) :
    Names (s.decodeNext (s.inBytes s.chdOff.toNat s.nextLen)) ((commandChecks .chnext s).drop 4) := by
  change Names (if s.chdIdx = 0 then _ else _) (if s.chdIdx = 0 then _ else _)
  by_cases first : s.chdIdx = 0
  · rw [if_pos first, if_pos first]
    refine .check ?_ fun _ => .check decide_eq_true_iff fun _ => ?_
    · rw [decide_eq_true_iff, State.inBytes_length]
    · have names := keyPayload_names s.W s.H ((s.inBytes s.chdOff.toNat s.nextLen).drop 8)
      cases payload : keyPayload s.W s.H ((s.inBytes s.chdOff.toNat s.nextLen).drop 8) with
      | error e | ok p => rwa [payload] at names
  · rw [if_neg first, if_neg first]
    exact .check not_bit_iff fun _ => decodePredicted_names s _

/-! ### Every command (R364) -/

/-- Each command runs the checks of its row of the table in their order. -/
theorem exec_reports {i : Instr} (wf : i.WellFormed) (s : State) : Reports (exec i s) (commandChecks i s) := by
  cases i with
  | nop | srst | rgb2ycc | ycc2rgb | dequant | zz | unzz | chrst => exact .complete rfl
  | ldpix =>
    exact .check decide_eq_true_iff fun _ => .check (inTooLong_iff s) fun _ => .check decide_eq_true_iff fun _ =>
      .complete rfl
  | ldpln =>
    exact .check decide_eq_true_iff fun _ => .check (inTooLong_iff s) fun _ =>
      .check (by rw [decide_eq_true_iff, Nat.mul_assoc]) fun _ => .complete rfl
  | strgba ps =>
    change Reports (execStrgba ps s) _
    rw [execStrgba, if_neg (bne_iff_ne.mp wf)]
    exact .planeSet needs_all_iff (.check decide_eq_true_iff fun _ => .complete rfl)
  | stpln ps =>
    change Reports (execStpln ps s) _
    rw [execStpln, if_neg (bne_iff_ne.mp wf)]
    exact .planeSet needs_all_iff (.check (by rw [decide_eq_true_iff, Nat.mul_assoc]) fun _ => .complete rfl)
  | getblk ps ch => exact .planeSet (by simp) (.check decide_eq_true_iff fun _ => .complete rfl)
  | fdct b => exact .require (fdctDomain_iff s b) fun _ => .complete rfl
  | idct b => exact .require (idctDomain_iff s) fun _ => .complete rfl
  | quant t => exact .require (quantDomain_iff s) fun _ => .complete rfl
  | rleenc => exact .check (inTooLong_iff s) fun _ => .check decide_eq_true_iff fun _ => .complete rfl
  | rledec =>
    refine .check (inTooLong_iff s) fun _ => ?_
    cases mrleDec s.input with
    | none => exact ⟨_, rfl, rfl⟩
    | some d => exact .skip rfl (.check decide_eq_true_iff fun _ => .complete rfl)
  | xfkey => exact .check decide_eq_true_iff fun _ => .complete rfl
  | emitkey | emitp =>
    exact .check not_bit_iff fun _ => .check decide_eq_true_iff fun _ => .check decide_eq_true_iff fun _ =>
      .complete rfl
  | deckey =>
    refine .check (inTooLong_iff s) fun _ => .check decide_eq_true_iff fun _ => .check decide_eq_true_iff fun _ => ?_
    have names := keyPayload_names (rd32 s.input 0) (rd32 s.input 4) (s.input.drop 8)
    cases payload : keyPayload (rd32 s.input 0) (rd32 s.input 4) (s.input.drop 8) with
    | error e => exact .ofError (payload ▸ names)
    | ok p => exact .ofOk rfl (payload ▸ names)
  | mest | xfp => exact .check decide_eq_true_iff fun _ => .check not_bit_iff fun _ => .complete rfl
  | mcomp ch => exact .check not_bit_iff fun _ => .check not_bit_iff fun _ => .complete rfl
  | resid ch => exact .check decide_eq_true_iff fun _ => .check not_bit_iff fun _ => .complete rfl
  | decp =>
    refine .check (inTooLong_iff s) fun _ => .check not_bit_iff fun _ => ?_
    have names := decodePredicted_names s s.input
    cases dec : s.decodePredicted s.input with
    | error e => exact .ofError (dec ▸ names)
    | ok r => exact .ofOk rfl (dec ▸ names)
  | chapp =>
    exact .check not_bit_iff fun _ => .either decide_eq_true_iff fun _ => .check decide_eq_true_iff fun _ =>
      .check decide_eq_true_iff fun _ => .check (by rw [decide_eq_true_iff]; omega) fun _ => .complete rfl
  | chemit => exact .check decide_eq_true_iff fun _ => .check decide_eq_true_iff fun _ => .complete rfl
  | chopen =>
    refine .check (inTooLong_iff s) fun _ => ?_
    have names := parseContainer_names s
    cases head : parseContainer s.cfg s.input with
    | error e => exact .ofError (head ▸ names)
    | ok c => exact .ofOk rfl (head ▸ names)
  | chnext =>
    refine .check not_bit_iff fun _ => .check (inTooLong_iff s) fun _ => .check decide_eq_true_iff fun _ =>
      .check decide_eq_true_iff fun _ => ?_
    have names := decodeNext_names s
    cases dec : s.decodeNext (s.inBytes s.chdOff.toNat s.nextLen) with
    | error e => exact .ofError (dec ▸ names)
    | ok r => exact .ofOk rfl (dec ▸ names)

/-- Settles O40: an illegal word aborts, and a legal one runs a well-formed command, which reports its own row. -/
theorem checksInOrder : Obligations.ChecksInOrder := by
  unfold Obligations.ChecksInOrder
  intro w s
  change ∃ t, runWord w s = .next t ∧ _
  rw [runWord]
  cases hw : decode w with
  | error e => exact ⟨_, rfl, rfl⟩
  | ok i => exact exec_reports (wellFormed_encode_of_decode hw).1 s

/-! ### Aborts (R366) -/

/-- A command that completes leaves `ERR` 0. -/
theorem Completes.err {i : Instr} {s t : State} (h : Completes s i t) : t.err = .ok := by
  cases h <;> rfl

/-- What a word written to `CMD` leaves when `ERR` is set: the state as it was, aborted. -/
theorem runWord_eq_abort {w : Word} {s t : State} (h : runWord w s = .next t) (failed : t.err ≠ .ok) :
    ∃ e, t = s.abort e := by
  unfold runWord at h
  split at h
  · rcases exec_cases h with ⟨e, -, rfl⟩ | completes
    · exact ⟨e, rfl⟩
    · exact absurd completes.err failed
  · cases h
    exact ⟨_, rfl⟩

/-- Settles O41: a word that leaves `ERR` set aborted, and `State.abort` writes nothing else. -/
theorem abortChangesNothing : Obligations.AbortChangesNothing := by
  unfold Obligations.AbortChangesNothing
  intro w s t h failed
  obtain ⟨e, rfl⟩ := runWord_eq_abort h failed
  rfl

end Sys2Proof.Machine
end

section
/-! PROOFS. Family 70_reset_and_hazards: the host's reset, `SRST` and `NOP` (spec R400, R403, R404), and the state after
power-on (R49). -/

namespace Sys2Proof.Machine

/-! ### The host's reset and `SRST` (R400, R403) -/

/-- What a warm reset writes, register by register; the stores keep their contents (log 9). -/
theorem State.warmReset_eq (s : State) : s.warmReset =
    { s with
      err := .ok, firstErr := .ok, fstage := .empty, fkind := .key, refv := false, mvv := ⟨false, false, false⟩
      predv := ⟨false, false, false⟩, resv := ⟨false, false, false⟩, chopen := false, frmW := 0, frmH := 0
      inLen := 0, outLen := 0, arg0 := 0, arg1 := 0, px := 0, yc := 0, radius := 8, sb := Vector.replicate 64 0
      qb := Vector.replicate 64 0, zb := Vector.replicate 64 0, tb := Vector.replicate 64 0, chs := []
      cheCount := 0, cheW := 0, cheH := 0, chlen := [], chdCount := 0, chdIdx := 0, chdOff := 0 } := rfl

/-- The state after power-on is a fixed point of the warm reset. -/
theorem State.warmReset_reset : State.reset.warmReset = State.reset := rfl

/-- `STATUS` reads only fields a warm reset writes. -/
theorem State.warmReset_statusWord (s : State) : s.warmReset.statusWord = State.reset.statusWord := rfl

theorem State.reset_statusWord : State.reset.statusWord = 0 := by decide

/-- Settles O7: the warm reset field by field, which the state after power-on already satisfies. -/
theorem hardwareReset : Obligations.HardwareReset := by
  unfold Obligations.HardwareReset
  exact ⟨fun s => congrArg Host.Outcome.next s.warmReset_eq, congrArg Host.Outcome.next State.warmReset_reset, rfl,
    State.reset_statusWord, rfl, rfl⟩

/-- Settles O11: `SRST` is the warm reset, which keeps both buffers. -/
theorem srstResets : Obligations.SrstResets := by
  unfold Obligations.SrstResets
  refine ⟨decode_encode (i := .srst) rfl, fun s => ⟨s.warmReset, rfl, s.warmReset_eq, ?_, rfl, fun a =>
    ⟨s.warmReset_inByte a, s.warmReset_outByte a⟩⟩⟩
  exact s.warmReset_statusWord.trans State.reset_statusWord

/-! ### The state after power-on (R49) -/

/-- Settles O8: the build is legal, the buffers are empty, no store is valid and the chains have no frame. -/
theorem resetSatisfiesInv : Obligations.ResetSatisfiesInv := by
  unfold Obligations.ResetSatisfiesInv
  exact
    { cfgLegal := show Config.build.Legal by decide
      inbufOk := ⟨State.reset_wf.1, rfl⟩
      outbufOk := ⟨State.reset_wf.2, rfl⟩
      outLenOk := fun a ha => absurd ha (Nat.not_lt_zero a)
      firstErrOk := fun he => absurd rfl he
      curOk := fun he => absurd rfl he
      coefOk := nofun
      kindOk := nofun
      refOk := nofun
      mvOk := fun c hc => by simp at hc
      predOk := fun c hc => by simp at hc
      resOk := fun c hc => by simp at hc
      chsOk := ⟨rfl, Nat.zero_le _, nofun⟩
      cheOk := fun he => absurd rfl he
      chdOk := ⟨rfl, le_rfl⟩
      openOk := nofun }

/-! ### `NOP` (R404) -/

/-- Settles O10: `NOP` completes in every state with no output. -/
theorem nopClearsErrAndOutLen : Obligations.NopClearsErrAndOutLen := by
  unfold Obligations.NopClearsErrAndOutLen
  exact ⟨decode_encode (i := .nop) rfl, fun s => ⟨s.done [], rfl, rfl⟩⟩

end Sys2Proof.Machine
end
